-- ==== Sys2Proof/Word.lean ====
section
/-!
DEFINITION. The word types of the block (00_scope.md R8): bytes, 32-bit patterns, the 12-bit window cursor and the
24-bit neighbour pixel.
-/

namespace Sys2Proof

/-- A byte is 8 bits (00_scope.md R8). -/
abbrev Byte := BitVec 8

/-- A 32-bit pattern: a header field, a pointer or a count (10_state.md R10). -/
abbrev Word := BitVec 32

/-- The window cursor, 12 bits: its addition is the modulo 4096 of 41_dictionary.md R103. -/
abbrev Cursor := BitVec 12

/-- A neighbour pixel, 24 bits (10_state.md R24). -/
abbrev Pixel := BitVec 24

end Sys2Proof
end

