-- ==== Sys2Proof/Config.lean ====
section
/-!
DEFINITION. What is fixed for one machine: the parameters of 00_scope.md R6, the two OPEN parameters of R7 and
92_eei_decisions.md (D5, D6) with their default `none`, and the free values, which have no body.
-/

namespace Sys2Proof

/-- Window length `N` (00_scope.md R6). -/
def Config.windowLength : Nat := 4096

/-- Initial window cursor `WP0` (00_scope.md R6). -/
def Config.windowStart : Cursor := 4078#12

/-- Header length `HLEN` in bytes; the payload starts here (00_scope.md R6, 20_memory.md R41). -/
def Config.headerLength : Nat := 32

/-- The initial value of CNT after a control byte: tokens per control byte (00_scope.md R6). -/
def Config.tokensPerControl : Fin 9 := 8

/-- What a supplied BACKREF answers (42_tokenstream.md R114). `copy k pos n`: `k` bytes consumed, `n` bytes copied from
window position `pos`. -/
inductive BackrefResult where
  | truncated
  | refuse
  | copy (k : Nat) (pos : Cursor) (n : Nat)
  deriving DecidableEq, Repr

/-- The type of a supplied BACKREF: it sees the bytes `IN[IP .. LIMIT-1]`, IP, LIMIT and WP, and nothing else
(92_eei_decisions.md, OPEN parameters; log 12). -/
abbrev BackrefFn := List Byte → Word → Word → Cursor → BackrefResult

/-- What a supplied DELTA answers (44_v2_predictor.md R138). `pixel k q0 q1 q2`: `k` bytes consumed including the tag and
the reconstructed pixel. -/
inductive DeltaResult where
  | truncated
  | refuse
  | pixel (k : Nat) (q0 q1 q2 : Byte)
  deriving DecidableEq, Repr

/-- The type of a supplied DELTA: the tag, the bytes `IN[IP .. LIMIT-1]`, IP, LIMIT, and the neighbour pixel, which is
`none` exactly when NBRV = 0 (92_eei_decisions.md, OPEN parameters; 93_implementation_defined.md U14; log 12). -/
abbrev DeltaFn := Byte → List Byte → Word → Word → Option Pixel → DeltaResult

/-- The two OPEN parameters (00_scope.md R7). -/
structure Params where
  backref : Option BackrefFn
  delta   : Option DeltaFn

/-- The spec's default, at which `exec`, `step` and `core` stand: both `none` (00_scope.md R7, 92_eei_decisions.md D5 and
D6; log 11). `execWith`, `stepWith` and `coreWith` take any other parameters. -/
def Config.params : Params := { backref := none, delta := none }

/-- The constraints 92_eei_decisions.md puts on a supplied BACKREF: `k >= 1` and `n >= 1` (`pos < 4096` is its type). -/
def BackrefFn.Lawful (f : BackrefFn) : Prop :=
  ∀ bytes ip limit wp k pos n, f bytes ip limit wp = .copy k pos n → 1 ≤ k ∧ 1 ≤ n

/-- The constraint 92_eei_decisions.md puts on a supplied DELTA: `k >= 1`. -/
def DeltaFn.Lawful (f : DeltaFn) : Prop :=
  ∀ t bytes ip limit nbr k q0 q1 q2, f t bytes ip limit nbr = .pixel k q0 q1 q2 → 1 ≤ k

/-- Every supplied parameter meets its constraints. -/
def Params.Lawful (p : Params) : Prop :=
  (∀ f, p.backref = some f → f.Lawful) ∧ ∀ f, p.delta = some f → f.Lawful

/-- Whose free value it is. Two sources are two different arguments of the free values, so nothing relates the value of
one register, byte or read to that of another (10_state.md R11; log 5). -/
inductive FreeSource where
  /-- A register after RESET, by its host number (10_state.md R30; log 5). -/
  | register (number : Nat)
  /-- A byte of WIN after RESET, by its address (log 5). -/
  | window (address : Nat)
  /-- NBR at the first pixel of a plane (44_v2_predictor.md R136; log 9). -/
  | neighbour
  /-- A byte of OUT that was not written, as the block reads it, by its address (10_state.md R25; log 8). -/
  | unwritten (address : Nat)
  /-- A byte of OUT that is not valid, as the host reads it: the number of the host's read and the address
  (60_exceptions.md R190; log 19). -/
  | hostRead (read address : Nat)
  deriving DecidableEq, Repr

/-- FREE VALUE (log 5, 8, 9, 19): the bits of a register or byte that holds no value. `count` is the State field `free`,
`source` whose value it is. No body: nothing can be proved of it. -/
opaque Config.freeBits (w : Nat) (count : Nat) (source : FreeSource) : BitVec w

/-- FREE VALUE (log 5): an unspecified register that takes `n + 1` values (MODE, CNT, NBRV). -/
opaque Config.freeFin (n : Nat) (count : Nat) (source : FreeSource) : Fin (n + 1)

/-- FREE VALUE (log 7): the content of a byte of IN that the host has never written. -/
opaque Config.freeIn (address : Nat) : Byte

end Sys2Proof
end

