-- ==== Sys2Proof/Syntax.lean ====
section
/-!
DEFINITION. The instructions: one constructor of `Instr` per row of spec/opcode_table.json (30_encoding.md R71), with the
operands its format gives it (R60 to R66), and the rows of the selection table of 40_header_wrapper.md R80.
-/

namespace Sys2Proof

/-- The eight 32-bit header fields in file order (30_encoding.md R61): the operands of HLOAD and the content of the header
registers (10_state.md R16). Each is a two's-complement pattern, read signed with `toInt`. -/
structure Header where
  htype     : Word
  hsent     : Word
  hoffx     : Word
  hoffy     : Word
  hwidth    : Word
  hheight   : Word
  hpacked   : Word
  hunpacked : Word
  deriving DecidableEq, Repr

/-- One constructor per row of the opcode table (30_encoding.md R71). -/
inductive Instr where
  /-- `START`, host command (40_header_wrapper.md R81). -/
  | start
  /-- `HLOAD`, format H: the 32 header bytes (R82). -/
  | hload (h : Header)
  /-- `HCHK`, zero-length sequencer step (R83). -/
  | hchk
  /-- `CTL`, format C: the control byte `k` (42_tokenstream.md R111). -/
  | ctl (k : Byte)
  /-- `LIT`, format L: the literal byte `d` (R112). -/
  | lit (d : Byte)
  /-- `BREF`, format B: reserved, no layout, so no operand (R114, 30_encoding.md R64). -/
  | bref
  /-- `END`, zero-length sequencer step (R116). -/
  | endPhase
  /-- `PIX.RAW`, format P with tag 0 and the three bytes of the pixel (44_v2_predictor.md R137). -/
  | pixRaw (p0 p1 p2 : Byte)
  /-- `PIX.DELTA`, format P with a non-zero tag: reserved, no further operand has a layout (R138, 30_encoding.md R65). -/
  | pixDelta (t : Byte)
  /-- `ALEN`, format A: the alpha length `n` (45_v3_composite.md R150). -/
  | alen (n : Word)
  /-- `RESET`, host command (70_reset_and_hazards.md R200). -/
  | reset
  deriving DecidableEq, Repr

/-- The rows of the selection table 40_header_wrapper.md R80 that take a step. The row is the context in which an item is
decoded (30_encoding.md R60, R69); `pix` is one row for both pixel items, told apart by the tag. -/
inductive Row where
  | reset
  | start
  | hload
  | hchk
  | endPhase
  | ctl
  | lit
  | bref
  | pix
  | alen
  deriving DecidableEq, Repr

/-- The row in whose context an instruction is decoded. -/
def Instr.row : Instr → Row
  | .start        => .start
  | .hload _      => .hload
  | .hchk         => .hchk
  | .ctl _        => .ctl
  | .lit _        => .lit
  | .bref         => .bref
  | .endPhase     => .endPhase
  | .pixRaw _ _ _ => .pix
  | .pixDelta _   => .pix
  | .alen _       => .alen
  | .reset        => .reset

end Sys2Proof
end

