-- ==== Sys2Proof/WellFormed.lean ====
section
/-!
DEFINITION. Which instruction terms stand for an item of the stream. The types of the operands do the rest.
-/

namespace Sys2Proof

/-- The one check the operand types do not make: the tag of PIX.DELTA is not 0, since tag 0 is PIX.RAW
(30_encoding.md R65, 44_v2_predictor.md R138). -/
def Instr.wellFormed : Instr → Bool
  | .start        => true
  | .hload _      => true
  | .hchk         => true
  | .ctl _        => true
  | .lit _        => true
  | .bref         => true
  | .endPhase     => true
  | .pixRaw _ _ _ => true
  | .pixDelta t   => t != 0
  | .alen _       => true
  | .reset        => true

/-- A well-formed instruction, as a proposition. -/
abbrev Instr.WellFormed (i : Instr) : Prop := i.wellFormed = true

end Sys2Proof
end

