-- ==== Sys2Proof/Decode.lean ====
section
/-!
DEFINITION. The decoder and the encoder of stream items (30_encoding.md). An item's format is told by the row of the
selection table, not by its bits alone (R60), so `decode` takes the row; it is total on any bytes and rejects by name.
-/

namespace Sys2Proof

/-- Why bytes are not an item in a context. -/
inductive Reject where
  /-- Fewer bytes than the item's length (30_encoding.md R60, column length). -/
  | tooShort (r : Row)
  deriving DecidableEq, Repr

/-- Operand assembly of a 32-bit field (30_encoding.md R67, 20_memory.md R44): the byte at the lowest address is the least
significant. -/
def wordOfBytes (b0 b1 b2 b3 : Byte) : Word := b3 ++ b2 ++ b1 ++ b0

/-- The four bytes of a 32-bit pattern, least significant first: `LE32` of 46_reference_encoder.md. -/
def wordBytes (w : Word) : List Byte :=
  [w.extractLsb' 0 8, w.extractLsb' 8 8, w.extractLsb' 16 8, w.extractLsb' 24 8]

/-- A 32-bit field off the front of a byte list, with the rest. -/
def takeWord : List Byte → Option (Word × List Byte)
  | b0 :: b1 :: b2 :: b3 :: rest => some (wordOfBytes b0 b1 b2 b3, rest)
  | _ => none

/-- Format H (30_encoding.md R61): eight 32-bit fields at offsets 0, 4, .., 28. -/
def takeHeader (bytes : List Byte) : Option (Header × List Byte) := do
  let (htype, r) ← takeWord bytes
  let (hsent, r) ← takeWord r
  let (hoffx, r) ← takeWord r
  let (hoffy, r) ← takeWord r
  let (hwidth, r) ← takeWord r
  let (hheight, r) ← takeWord r
  let (hpacked, r) ← takeWord r
  let (hunpacked, r) ← takeWord r
  some ({ htype, hsent, hoffx, hoffy, hwidth, hheight, hpacked, hunpacked }, r)

/-- The bytes of a header, in file order (30_encoding.md R61). -/
def headerBytes (h : Header) : List Byte :=
  wordBytes h.htype ++ wordBytes h.hsent ++ wordBytes h.hoffx ++ wordBytes h.hoffy
    ++ wordBytes h.hwidth ++ wordBytes h.hheight ++ wordBytes h.hpacked ++ wordBytes h.hunpacked

/-- How many bytes the fetch of a row looks at (30_encoding.md R60, R69). BREF has no layout, so none (R64); a pixel item
is told by its first byte and is four bytes when that is 0 (R65). -/
def Row.length : Row → Nat
  | .reset    => 0
  | .start    => 0
  | .hload    => 32
  | .hchk     => 0
  | .endPhase => 0
  | .ctl      => 1
  | .lit      => 1
  | .bref     => 0
  | .pix      => 4
  | .alen     => 4

/-- The instruction at the front of `bytes` in the context of a row, with the bytes after it. After a non-zero tag no byte
has a layout (30_encoding.md R65), so only the tag is taken. -/
def decode (r : Row) (bytes : List Byte) : Except Reject (Instr × List Byte) :=
  match r with
  | .reset    => .ok (.reset, bytes)
  | .start    => .ok (.start, bytes)
  | .hchk     => .ok (.hchk, bytes)
  | .endPhase => .ok (.endPhase, bytes)
  | .bref     => .ok (.bref, bytes)
  | .hload    =>
    match takeHeader bytes with
    | some (h, rest) => .ok (.hload h, rest)
    | none           => .error (.tooShort .hload)
  | .ctl      =>
    match bytes with
    | k :: rest => .ok (.ctl k, rest)
    | []        => .error (.tooShort .ctl)
  | .lit      =>
    match bytes with
    | d :: rest => .ok (.lit d, rest)
    | []        => .error (.tooShort .lit)
  | .pix      =>
    match bytes with
    | []        => .error (.tooShort .pix)
    | t :: rest =>
      if t = 0 then
        match rest with
        | p0 :: p1 :: p2 :: rest' => .ok (.pixRaw p0 p1 p2, rest')
        | _                       => .error (.tooShort .pix)
      else .ok (.pixDelta t, rest)
  | .alen     =>
    match takeWord bytes with
    | some (n, rest) => .ok (.alen n, rest)
    | none           => .error (.tooShort .alen)

/-- The bytes of an instruction in stream order (30_encoding.md R60 to R66). Host commands, sequencer steps and BREF have
none; of PIX.DELTA only the tag has a layout. -/
def encode : Instr → List Byte
  | .start           => []
  | .hload h         => headerBytes h
  | .hchk            => []
  | .ctl k           => [k]
  | .lit d           => [d]
  | .bref            => []
  | .endPhase        => []
  | .pixRaw p0 p1 p2 => [0, p0, p1, p2]
  | .pixDelta t      => [t]
  | .alen n          => wordBytes n
  | .reset           => []

/-- The first `n` bytes of a number, byte 0 the least significant: how spec/opcode_table.json's bits are laid out as the
hardware stores them. -/
def bytesOfNat : (n : Nat) → (w : Nat) → List Byte
  | 0, _     => []
  | n + 1, w => BitVec.ofNat 8 w :: bytesOfNat n (w / 256)

/-- The context a table word is read in, since its bits alone do not tell the item (30_encoding.md R60, R70; log 17):
no bits START, 256 bits HLOAD, 8 bits the first item of a control-byte phase CTL, 32 bits a pixel item when its first
byte is the fixed 0 of PIX.RAW and the alpha length otherwise. -/
def tableRow (nbits w : Nat) : Option Row :=
  if nbits = 0 then some .start
  else if nbits = 8 then some .ctl
  else if nbits = 32 then (if w % 256 = 0 then some .pix else some .alen)
  else if nbits = 256 then some .hload
  else none

/-- The instruction the decoder reads from a table row's bits (log 17). -/
def decodeTableWord (nbits w : Nat) : Option Instr :=
  match tableRow nbits w with
  | none   => none
  | some r =>
    match decode r (bytesOfNat (nbits / 8) w) with
    | .ok (i, _) => some i
    | .error _   => none

end Sys2Proof
end

