-- ==== Sys2Proof/Machine/Memory.lean ====
section
/-!
DEFINITION. The three byte spaces IN, OUT and WIN (20_memory.md R40) as lists of (address, byte) cells in one canonical
form, what an unlisted address reads as, the seed of the window (41_dictionary.md R100), and the reads and writes.
-/

namespace Sys2Proof.Machine

/-- The three address spaces of 20_memory.md R40. -/
inductive Space where
  | inp
  | out
  | win
  deriving DecidableEq, Repr

/-- The contents of one space: cells with strictly rising addresses, none equal to what an unlisted address reads as. -/
abbrev Mem := List Host.Cell

/-- Byte `i` of the seed sequence `SEED()` (41_dictionary.md R100). -/
def seed (i : Nat) : Byte :=
  if i ≤ 3327 then BitVec.ofNat 8 (i / 13)
  else if i ≤ 3583 then BitVec.ofNat 8 (i - 3328)
  else if i ≤ 3839 then BitVec.ofNat 8 (255 - (i - 3584))
  else if i ≤ 3967 then 0x00#8
  else if i ≤ 4077 then 0x20#8
  else 0x00#8

/-- How many addresses a space has (20_memory.md R40, address widths). -/
def Space.size : Space → Nat
  | .inp => 4294967296
  | .out => 4294967296
  | .win => 4096

/-- What an unlisted address reads as, the ONE definition: in WIN the seed byte (a seeded window lists nothing,
41_dictionary.md R102); in IN and OUT no value, since nothing has written the byte (10_state.md R25; log 4, 8, 10). -/
def Space.blank : Space → Nat → Option Byte
  | .inp, _ => none
  | .out, _ => none
  | .win, a => some (seed a)

/-- The byte at an address; `none` where nothing has written it. -/
def Mem.read (sp : Space) : Mem → Nat → Option Byte
  | [], a           => sp.blank a
  | (b, v) :: m, a => if b = a then some v else Mem.read sp m a

/-- Put a cell at its place, replacing the cell of that address. -/
def Mem.insert (a : Nat) (v : Byte) : Mem → Mem
  | []           => [(a, v)]
  | (b, w) :: m =>
    if a < b then (a, v) :: (b, w) :: m
    else if b = a then (a, v) :: m
    else (b, w) :: Mem.insert a v m

/-- Remove every cell of an address. -/
def Mem.erase (a : Nat) : Mem → Mem
  | []           => []
  | (b, w) :: m => if b = a then Mem.erase a m else (b, w) :: Mem.erase a m

/-- Write a byte. Writing what an unlisted address reads as removes the cell, so equal memories are equal lists. -/
def Mem.write (sp : Space) (m : Mem) (a : Nat) (v : Byte) : Mem :=
  if sp.blank a = some v then Mem.erase a m else Mem.insert a v m

/-- Write several bytes, first cell first (20_memory.md R52). -/
def Mem.writeAll (sp : Space) (m : Mem) : List Host.Cell → Mem
  | []            => m
  | (a, v) :: cs => Mem.writeAll sp (Mem.write sp m a v) cs

/-- The contents in which each address below `n` reads as `f` of it. -/
def Mem.ofFn (sp : Space) (f : Nat → Byte) (n : Nat) : Mem :=
  (List.range n).filterMap (fun a => if sp.blank a = some (f a) then none else some (a, f a))

/-- The window in which every byte is 0: the content State.reset names (log 10). -/
@[irreducible] def zeroWindow : Mem := Mem.ofFn .win (fun _ => 0) 4096

/-- Every address is at least `lo`, below the size of the space, and strictly above the one before it; no cell holds what
an unlisted address reads as. -/
def Mem.wfFrom (sp : Space) : Nat → Mem → Bool
  | _, []            => true
  | lo, (a, v) :: m =>
    decide (lo ≤ a) && decide (a < sp.size) && decide (sp.blank a ≠ some v) && Mem.wfFrom sp (a + 1) m

/-- The canonical form. -/
def Mem.wf (sp : Space) (m : Mem) : Bool := Mem.wfFrom sp 0 m

end Sys2Proof.Machine
end

