-- ==== Sys2Proof/Machine/State.lean ====
section
/-!
DEFINITION. The architectural state (10_state.md R10, "and nothing else"), as plain data, with two fields of the model's
own: the host's coming moves (log 1) and the counter of the free values (log 6). INVENTORY.md lists every field.
-/

namespace Sys2Proof.Machine

/-- The values of STATE (10_state.md R12); value 7 is never taken. -/
inductive Seq where
  | idle
  | hload
  | hchk
  | run
  | alen
  | done
  | fault
  deriving DecidableEq, Repr

/-- The values of MODE (10_state.md R13); values 5 to 7 are never taken. -/
inductive Mode where
  | v0
  | v1
  | v2
  | v3rgb
  | v3a
  deriving DecidableEq, Repr

/-- The values of ERR (10_state.md R14, 60_exceptions.md R180). `ioFailure` (code 4) is the host wrapper's: no rule of the
block writes it (R183). -/
inductive Err where
  | none
  | invalidHeader
  | sizeMismatch
  | truncatedStream
  | ioFailure
  | reservedToken
  | reservedTag
  deriving DecidableEq, Repr

/-- What the host does in one step (70_reset_and_hazards.md R204; log 1). -/
inductive HostMove where
  /-- It asserts nothing. -/
  | idle
  /-- It asserts START (40_header_wrapper.md R81). -/
  | start
  /-- It asserts reset (70_reset_and_hazards.md R200). -/
  | reset
  /-- It writes a byte of IN. -/
  | writeIn (a : Word) (b : Byte)
  /-- It writes IN_LEN. -/
  | writeLen (n : Word)
  deriving DecidableEq, Repr

/-- The machine's own faults. They stop the model and are NOT the block's faults, which are traps into STATE = FAULT
(60_exceptions.md R186). -/
inductive Fault where
  /-- A read of IN at or beyond IN_LEN, which 00_scope.md R9 excludes. Raised by CTL, LIT, BREF with a supplied BACKREF,
  PIX.RAW, PIX.DELTA and ALEN, only where LIMIT exceeds IN_LEN, which no run reaches (20_memory.md R42). SAFE: the model
  stops. -/
  | inAddress
  /-- An access to OUT at or beyond OUT_LEN, an address that does not exist (20_memory.md R40, R48). Raised by LIT, by BREF
  with a supplied BACKREF, by PIX.RAW and by PIX.DELTA with a supplied DELTA, only in states no run reaches. SAFE: the
  model stops. -/
  | outAddress
  deriving DecidableEq, Repr

/-- Why a step has no meaning. -/
inductive Refusal where
  /-- An arm of `exec` without a meaning. No arm is left so. SAFE. -/
  | notModelled (mnemonic : String)
  /-- The `require` line of the instruction's rule does not hold: the sequencer would not select it (40_header_wrapper.md
  R80). Raised by every meaning but START and RESET. SAFE: the spec gives the instruction no effect there (log 13). -/
  | notSelected
  /-- The host writes IN or IN_LEN while the block is busy: "a model gives the host no such move"
  (70_reset_and_hazards.md R206, 93_implementation_defined.md U12). Raised by `step`. SAFE (log 16). -/
  | hostWriteBusy
  /-- The fetched bytes are no item. Never raised: the fetch gives every row the bytes it takes. SAFE (log 15). -/
  | undecodable
  deriving DecidableEq, Repr

/-- The state of one block instance (10_state.md R10), with its inputs. Every register is a bit pattern of the width R10
gives; STATE, MODE, ERR and CNT have types of exactly the values they take (93_implementation_defined.md U15; log 25). -/
structure State where
  /-- STATE, sequencer state (R12). -/
  seq    : Seq
  /-- MODE, decoder mode of the current phase (R13). -/
  mode   : Mode
  /-- ERR, error code (R14). -/
  err    : Err
  /-- EIP, IP at the start of the faulting step (R15). -/
  eip    : Word
  /-- EINFO, fault information byte (R15). -/
  einfo  : Byte
  /-- HTYPE to HUNPACKED, the header registers (R16). -/
  hdr    : Header
  /-- IP, the input pointer and program counter (R19). -/
  ip     : Word
  /-- LIMIT, exclusive end of the current stream segment (R20). -/
  limit  : Word
  /-- CTL, control-byte shift register (R21). -/
  ctl    : Byte
  /-- CNT, number of control bits not yet used, 0 to 8 (R21). -/
  cnt    : Fin 9
  /-- UNITS, logical units produced in the current phase (R22). -/
  units  : Word
  /-- TARGET, logical units the current phase must produce (R22). -/
  target : Word
  /-- WIN, the dictionary window (R23). -/
  win    : Mem
  /-- WP, the window cursor (R23). -/
  wp     : Cursor
  /-- NBR, the neighbour pixel (R24). -/
  nbr    : Pixel
  /-- NBRV, NBR holds a pixel (R24). -/
  nbrv   : Bool
  /-- OUT, the flat pixel byte buffer; a byte is listed exactly when it has been written (R25). -/
  out    : Mem
  /-- OUT_LEN, length of OUT in bytes (R25). -/
  outLen : Word
  /-- IN, the container image, owned by the host (R26). -/
  inp    : Mem
  /-- IN_LEN, number of valid bytes in IN, owned by the host (R26). -/
  inLen  : Word
  /-- The MODEL's field: the host's coming moves, one per step; an empty list asserts nothing (log 1). -/
  host   : List HostMove
  /-- The MODEL's field: the number of the next free value (log 6). -/
  free   : Nat
  deriving DecidableEq, Repr

/-- A header of zeros. -/
def Header.zero : Header :=
  { htype := 0, hsent := 0, hoffx := 0, hoffy := 0, hwidth := 0, hheight := 0, hpacked := 0, hunpacked := 0 }

/-- The machine right after reset (70_reset_and_hazards.md R200, R201): STATE = IDLE and ERR = 0 are the spec's. Every
other register is "unspecified" there and holds the zero that log 3 names (WIN: log 10; IN, IN_LEN: log 4). -/
def State.reset : State :=
  { seq := .idle, mode := .v0, err := .none, eip := 0, einfo := 0, hdr := Header.zero, ip := 0, limit := 0,
    ctl := 0, cnt := 0, units := 0, target := 0, win := zeroWindow, wp := 0, nbr := 0,
    nbrv := false, out := [], outLen := 0, inp := [], inLen := 0, host := [], free := 0 }

end Sys2Proof.Machine
end

