-- ==== Sys2Proof/Machine/Flags.lean ====
section
/-!
DEFINITION. The flag-like state: there are no condition codes (10_state.md R27); what stands for them is the control-bit
register CTL with its count CNT (R21), the signals derived from STATE (R27), and the conditions the `require` lines of
the step rules test.
-/

namespace Sys2Proof.Machine

/-- `busy = STATE in {HLOAD, HCHK, RUN, ALEN}` (10_state.md R27). -/
def Seq.busy : Seq → Bool
  | .hload => true
  | .hchk  => true
  | .run   => true
  | .alen  => true
  | .idle  => false
  | .done  => false
  | .fault => false

/-- `MODE in {V0, V1, V3A}`: the modes framed by control bytes (10_state.md R13). -/
def Mode.control : Mode → Bool
  | .v0    => true
  | .v1    => true
  | .v3a   => true
  | .v2    => false
  | .v3rgb => false

/-- The control bit of the next token, `CTL[0]` (10_state.md R21, 30_encoding.md R67). -/
def controlBit (s : State) : Bool := s.ctl.getLsbD 0

/-- `CTL >> 1`, bit 7 filled with 0 (10_state.md R21). -/
def shiftControl (ctl : Byte) : Byte := ctl >>> 1

/-- `CNT - 1` (10_state.md R21); used only where CNT > 0. -/
def countDown (cnt : Fin 9) : Fin 9 := ⟨cnt.val - 1, by omega⟩

/-- The `require` line of CTL (42_tokenstream.md R111). -/
def controlDue (s : State) : Bool :=
  s.seq = .run && s.mode.control && decide (s.units < s.target) && s.cnt = 0

/-- The `require` line of LIT (`bit = true`, 42_tokenstream.md R112) and of BREF (`bit = false`, R114). -/
def tokenDue (bit : Bool) (s : State) : Bool :=
  s.seq = .run && s.mode.control && decide (s.units < s.target) && s.cnt ≠ 0 && controlBit s = bit

/-- The `require` line of PIX.RAW and PIX.DELTA, but for the tag (44_v2_predictor.md R137, R138). -/
def pixelDue (s : State) : Bool :=
  s.seq = .run && !s.mode.control && decide (s.units < s.target)

/-- The `require` line of END (42_tokenstream.md R116). -/
def endDue (s : State) : Bool := s.seq = .run && s.units = s.target

end Sys2Proof.Machine
end

