-- ==== Sys2Proof/Machine/Operands.lean ====
section
/-!
DEFINITION. Operand forms: the bytes of IN an item is fetched from, the OUT addresses of a logical unit (10_state.md R13),
the neighbour of a pixel (44_v2_predictor.md R136), the bounds of a stream segment (R83, R150).
-/

namespace Sys2Proof.Machine

/-- The byte of IN at an address: what the host wrote there, or a free value where it never wrote (10_state.md R26;
log 7). -/
def inByte (s : State) (a : Nat) : Byte := (Mem.read .inp s.inp a).getD (Config.freeIn a)

/-- The byte of OUT at an address as the block reads it: what was written there in this run, or a free value where nothing
was (10_state.md R25; log 8). -/
def outByte (s : State) (a : Nat) : Byte := (Mem.read .out s.out a).getD (Config.freeBits 8 s.free (.unwritten a))

/-- The bytes `IN[IP .. LIMIT-1]`: what a supplied BACKREF or DELTA sees (92_eei_decisions.md, OPEN parameters). -/
def streamBytes (s : State) : List Byte :=
  (List.range (s.limit.toNat - s.ip.toNat)).map (fun j => inByte s (s.ip.toNat + j))

/-- `n` bytes from `base`; a byte at or beyond `bound` is not fetched and stands as 0. The meaning raises its fault before
it uses such a byte (00_scope.md R9, 40_header_wrapper.md R82; log 15). -/
def fetchBytes (s : State) (base bound n : Nat) : List Byte :=
  (List.range n).map (fun j => if base + j < bound then inByte s (base + j) else 0)

/-- The bytes of the item a row fetches: the header at IN 0 (30_encoding.md R60), every other item at IP, inside LIMIT and
IN_LEN (20_memory.md R42). -/
def itemBytes (r : Row) (s : State) : List Byte :=
  match r with
  | .hload => fetchBytes s 0 s.inLen.toNat r.length
  | _      => fetchBytes s s.ip.toNat (min s.limit.toNat s.inLen.toNat) r.length

/-- `bytes_per_pixel(t)` of 10_state.md R18: `bpp(t) div 8`. -/
def bytesPerPixel (htype : Word) : Int := if htype.toInt = 3 then 4 else 3

/-- `HWIDTH * HHEIGHT` on unbounded integers (40_header_wrapper.md R83, D9). -/
def pixelCount (h : Header) : Int := h.hwidth.toInt * h.hheight.toInt

/-- `MODE <- HTYPE` (40_header_wrapper.md R83, R84), for a type that passed check 1. -/
def Mode.ofType (htype : Word) : Mode :=
  if htype.toInt = 0 then .v0
  else if htype.toInt = 1 then .v1
  else if htype.toInt = 2 then .v2
  else .v3rgb

/-- `clamp(v, lo, hi)` of 00_scope.md R8. -/
def clamp (v lo hi : Int) : Int := max lo (min v hi)

/-- `LIMIT` of the first phase: `32 + clamp(HPACKED, 0, IN_LEN - 32)` (40_header_wrapper.md R83, 20_memory.md R42). -/
def payloadEnd (s : State) : Int :=
  (Config.headerLength : Int) + clamp s.hdr.hpacked.toInt 0 ((s.inLen.toNat : Int) - (Config.headerLength : Int))

/-- `TARGET` of the first phase (40_header_wrapper.md R83, R84). -/
def firstTarget (h : Header) : Int := if h.htype.toInt = 0 then h.hunpacked.toInt else pixelCount h

/-- `LIMIT` of the alpha phase: `min(LIMIT, IP + max(n, 0))` with the new IP (45_v3_composite.md R150). -/
def alphaEnd (limit ip : Nat) (n : Word) : Int := min (limit : Int) ((ip : Int) + max n.toInt 0)

/-- Byte stride `S` of a pixel in OUT (44_v2_predictor.md R136). -/
def pixelStride (m : Mode) : Nat := if m = .v2 then 3 else 4

/-- The OUT writes of `EmitUnit(b)` for unit `u` (42_tokenstream.md R113, 43_v1_expander.md R130), in their order. The
pixel modes emit no unit this way. -/
def unitCells (m : Mode) (u : Nat) (b : Byte) : List Host.Cell :=
  match m with
  | .v0    => [(u, b)]
  | .v1    => [(3 * u, b), (3 * u + 1, b), (3 * u + 2, b)]
  | .v3a   => [(4 * u + 3, b)]
  | .v2    => []
  | .v3rgb => []

/-- The OUT writes of pixel `u` (44_v2_predictor.md R137, R138), in their order. -/
def pixelCells (m : Mode) (u : Nat) (q0 q1 q2 : Byte) : List Host.Cell :=
  [(pixelStride m * u, q0), (pixelStride m * u + 1, q1), (pixelStride m * u + 2, q2)]

/-- The neighbour of pixel `u` in an image of width `w`: none for the first pixel, the pixel to the left in row 0, the
pixel above in every other row (44_v2_predictor.md R136). -/
def neighbourUnit (u : Nat) (w : Int) : Option Nat :=
  if u = 0 then none
  else if (u : Int) < w then some (u - 1)
  else some ((u : Int) - w).toNat

/-- `NBR` from the three OUT bytes of the neighbour in address order (30_encoding.md R67). -/
def pixelOfBytes (b0 b1 b2 : Byte) : Pixel := b2 ++ b1 ++ b0

/-- The neighbour as a supplied DELTA sees it: NBR is not readable while NBRV = 0 (93_implementation_defined.md U14). -/
def neighbourSeen (s : State) : Option Pixel := if s.nbrv then some s.nbr else none

end Sys2Proof.Machine
end

