-- ==== Sys2Proof/Machine/Ops.lean ====
section
/-!
DEFINITION. The named operations over registers and memories that the step rules share: the pseudocode primitives of
00_scope.md R9, trap entry (60_exceptions.md R186), the window operations (41_dictionary.md), EmitUnit (42_tokenstream.md
R113), the neighbour load (44_v2_predictor.md R136), phase set-up, and the host's own writes. There is no return from a
fault (60_exceptions.md R188): only START and reset leave it.
-/

namespace Sys2Proof.Machine

/-- What a step answers. -/
abbrev Result := Host.Outcome State Fault Refusal

/-- Go on from a next state; a stop stays a stop. -/
def andThen (o : Result) (f : State → Result) : Result :=
  match o with
  | .next s    => f s
  | .fault r   => .fault r
  | .refused r => .refused r

/-- The state after trap entry (60_exceptions.md R186): EIP, EINFO, ERR and STATE are written, nothing else. `s` is the
state before the faulting step, so every write of that step is abandoned (R185). -/
def trapState (f : Err) (info : Byte) (s : State) : State :=
  { s with eip := s.ip, einfo := info, err := f, seq := .fault }

/-- `raise F(info)`: trap entry, a next state (00_scope.md R9, 60_exceptions.md R186). -/
def raise (f : Err) (info : Byte) (s : State) : Result := .next (trapState f info s)

/-- The guard of a fetch of `n` bytes at IP: TruncatedStream where they pass LIMIT (00_scope.md R9, 44_v2_predictor.md R137,
45_v3_composite.md R150); the model's own fault where they pass IN_LEN, which no run reaches (log 14). -/
def guardFetch (n : Nat) (s : State) (k : State → Result) : Result :=
  if s.limit.toNat < s.ip.toNat + n then raise .truncatedStream 0 s
  else if s.inLen.toNat < s.ip.toNat + n then .fault .inAddress
  else k s

/-- `IP <- IP + n`. -/
def advance (n : Nat) (s : State) : State := { s with ip := s.ip + BitVec.ofNat 32 n }

/-- `UNITS <- UNITS + 1`. -/
def countUnit (s : State) : State := { s with units := s.units + 1 }

/-- `CTL <- CTL >> 1 ; CNT <- CNT - 1` (42_tokenstream.md R112, R114). -/
def useControlBit (s : State) : State := { s with ctl := shiftControl s.ctl, cnt := countDown s.cnt }

/-- `WinPut(b)` (41_dictionary.md R103): the addition on 12 bits is the modulo 4096. -/
def winPut (b : Byte) (s : State) : State :=
  { s with win := Mem.write .win s.win s.wp.toNat b, wp := s.wp + 1 }

/-- `WinGet(p)` (41_dictionary.md R104). -/
def winGet (p : Nat) (s : State) : Byte :=
  (Mem.read .win s.win (p % Config.windowLength)).getD (seed (p % Config.windowLength))

/-- Several bytes stored to OUT, first cell first. -/
def storeOut (cells : List Host.Cell) (s : State) : State :=
  { s with out := Mem.writeAll .out s.out cells }

/-- `MemWrite` of several bytes of OUT, in order (00_scope.md R9). An address at or beyond OUT_LEN does not exist
(20_memory.md R40): the model's own fault, which no run reaches (R48; log 14). -/
def outWrites (cells : List Host.Cell) (s : State) : Result :=
  if cells.all (fun c => decide (c.1 < s.outLen.toNat)) then .next (storeOut cells s)
  else .fault .outAddress

/-- `EmitUnit(b)` (42_tokenstream.md R113): the OUT writes of the mode, one window byte, one unit. -/
def emitUnit (b : Byte) (s : State) : Result :=
  andThen (outWrites (unitCells s.mode s.units.toNat b) s) (fun s => .next (countUnit (winPut b s)))

/-- The byte-serial copy of BREF (42_tokenstream.md R114, 70_reset_and_hazards.md R209): `n` units, each read from the
window as the units before it left it. -/
def copyUnits : (n : Nat) → (pos : Nat) → State → Result
  | 0, _, s       => .next s
  | n + 1, pos, s => andThen (emitUnit (winGet pos s) s) (copyUnits n (pos + 1))

/-- The neighbour load (44_v2_predictor.md R136). At the first pixel NBRV is 0 and NBR holds no value: a free value
(log 9). Each load takes the next number of the free values (log 6). -/
def loadNeighbour (s : State) : Result :=
  match neighbourUnit s.units.toNat s.hdr.hwidth.toInt with
  | none   => .next { s with nbrv := false, nbr := Config.freeBits 24 s.free .neighbour, free := s.free + 1 }
  | some v =>
    let a := pixelStride s.mode * v
    if a + 2 < s.outLen.toNat then
      .next { s with nbrv := true, nbr := pixelOfBytes (outByte s a) (outByte s (a + 1)) (outByte s (a + 2)),
                     free := s.free + 1 }
    else .fault .outAddress

/-- Deliver pixel `q0 q1 q2` as the next unit and consume `k` bytes (44_v2_predictor.md R137, R138): three OUT writes, three
window writes, IP and UNITS. -/
def putPixel (k : Nat) (q0 q1 q2 : Byte) (s : State) : Result :=
  andThen (outWrites (pixelCells s.mode s.units.toNat q0 q1 q2) s)
    (fun s => .next (countUnit (advance k (winPut q2 (winPut q1 (winPut q0 s))))))

/-- Phase set-up shared by HCHK and ALEN (40_header_wrapper.md R83, 45_v3_composite.md R150, 41_dictionary.md R102): mode,
target, no unit yet, the seeded window, no control bits, STATE = RUN. -/
def beginPhase (m : Mode) (target : Int) (s : State) : State :=
  { s with mode := m, target := BitVec.ofInt 32 target, units := 0, win := [], wp := Config.windowStart,
           ctl := 0, cnt := 0, seq := .run }

/-- The host's move of this step: the head of the list, nothing if there is none (log 1). -/
def hostMove (s : State) : HostMove := s.host.headD .idle

/-- The state once the host's move of this step has been taken off the list (log 1). -/
def popHost (s : State) : State := { s with host := s.host.tail }

/-- The host writes IN or IN_LEN (70_reset_and_hazards.md R204). -/
def HostMove.writes : HostMove → Bool
  | .writeIn _ _ => true
  | .writeLen _  => true
  | .idle        => false
  | .start       => false
  | .reset       => false

/-- What the host's move does to IN and IN_LEN while the block is quiescent (70_reset_and_hazards.md R204); a move that
writes neither changes nothing. DESIGN CHOICE (log 27): a byte may be written at or beyond IN_LEN, of which the spec says
nothing, and every byte written stays when IN_LEN becomes smaller or larger. -/
def hostWrite (m : HostMove) (s : State) : State :=
  match m with
  | .writeIn a b => { s with inp := Mem.write .inp s.inp a.toNat b }
  | .writeLen n  => { s with inLen := n }
  | .idle        => s
  | .start       => s
  | .reset       => s

end Sys2Proof.Machine
end

