-- ==== Sys2Proof/Machine/Compositor.lean ====
section
/-!
DEFINITION. The plane compositor's step ALEN (45_v3_composite.md R150).
-/

namespace Sys2Proof.Machine

/-- The writes of a successful ALEN (45_v3_composite.md R150): IP past the field, LIMIT clipped, the alpha phase. -/
def openAlpha (n : Word) (s : State) : State :=
  let s' := advance 4 s
  beginPhase .v3a (pixelCount s.hdr)
    { s' with limit := BitVec.ofInt 32 (alphaEnd s.limit.toNat s'.ip.toNat n) }

/-- ALEN (45_v3_composite.md R150). -/
def execAlen (n : Word) (s : State) : Result :=
  if s.seq = .alen then guardFetch 4 s (fun s => .next (openAlpha n s))
  else .refused .notSelected

end Sys2Proof.Machine
end

