-- ==== Sys2Proof/Machine/HostCommands.lean ====
section
/-!
DEFINITION. The host commands START (40_header_wrapper.md R81, 70_reset_and_hazards.md R207) and RESET (R200).
-/

namespace Sys2Proof.Machine

/-- START (40_header_wrapper.md R81). While the block is busy it is ignored (70_reset_and_hazards.md R207). -/
def execStart (s : State) : Result :=
  if s.seq.busy then .next s
  else .next { s with seq := .hload, err := .none, eip := 0, einfo := 0, ip := 0 }

/-- The free values of the header registers after RESET, each by its host register number (10_state.md R30; log 5). -/
def freeHeader (count : Nat) : Header :=
  { htype := Config.freeBits 32 count (.register 0), hsent := Config.freeBits 32 count (.register 1),
    hoffx := Config.freeBits 32 count (.register 2), hoffy := Config.freeBits 32 count (.register 3),
    hwidth := Config.freeBits 32 count (.register 4), hheight := Config.freeBits 32 count (.register 5),
    hpacked := Config.freeBits 32 count (.register 6), hunpacked := Config.freeBits 32 count (.register 7) }

/-- A mode from a choice among five: every mode is the image of one choice. -/
def modeOfChoice (n : Fin 5) : Mode :=
  if n.val = 0 then .v0
  else if n.val = 1 then .v1
  else if n.val = 2 then .v2
  else if n.val = 3 then .v3rgb
  else .v3a

/-- RESET (70_reset_and_hazards.md R200): STATE and ERR are written; every other register, WIN and OUT hold no value
afterwards, so each register and each byte of WIN takes a free value of its own, related to no other (log 5), and no byte
of OUT is written; IN and IN_LEN are untouched. -/
def execReset (s : State) : Result :=
  .next
    { seq := .idle, err := .none,
      mode := modeOfChoice (Config.freeFin 4 s.free (.register 9)),
      eip := Config.freeBits 32 s.free (.register 11), einfo := Config.freeBits 8 s.free (.register 12),
      hdr := freeHeader s.free,
      ip := Config.freeBits 32 s.free (.register 13), limit := Config.freeBits 32 s.free (.register 14),
      ctl := Config.freeBits 8 s.free (.register 15), cnt := Config.freeFin 8 s.free (.register 16),
      units := Config.freeBits 32 s.free (.register 17), target := Config.freeBits 32 s.free (.register 18),
      win := Mem.ofFn .win (fun a => Config.freeBits 8 s.free (.window a)) Config.windowLength,
      wp := Config.freeBits 12 s.free (.register 19),
      nbr := Config.freeBits 24 s.free (.register 20), nbrv := Config.freeFin 1 s.free (.register 21) = 1,
      out := [], outLen := Config.freeBits 32 s.free (.register 22),
      inp := s.inp, inLen := s.inLen, host := s.host, free := s.free + 1 }

end Sys2Proof.Machine
end

