-- ==== Sys2Proof/Machine/Predictor.lean ====
section
/-!
DEFINITION. The pixel-variant predictor's steps PIX.RAW and PIX.DELTA (44_v2_predictor.md R136 to R138).
-/

namespace Sys2Proof.Machine

/-- PIX.RAW (44_v2_predictor.md R136, R137): nothing of the pixel is written where the segment cuts it. -/
def execPixRaw (p0 p1 p2 : Byte) (s : State) : Result :=
  if pixelDue s then
    guardFetch 4 s (fun s => andThen (loadNeighbour s) (putPixel 4 p0 p1 p2))
  else .refused .notSelected

/-- PIX.DELTA with the OPEN parameter as an argument (44_v2_predictor.md R136, R138). With `none` every non-zero tag traps
with ReservedTag and the tag in EINFO; the tag is examined before the length of the rest. -/
def deltaWith (delta : Option DeltaFn) (t : Byte) (s : State) : Result :=
  if pixelDue s && t != 0 then
    guardFetch 1 s (fun s =>
      match delta with
      | none   => raise .reservedTag t s
      | some f =>
        if s.inLen.toNat < s.limit.toNat then .fault .inAddress
        else
          andThen (loadNeighbour s) (fun s' =>
            match f t (streamBytes s) s.ip s.limit (neighbourSeen s') with
            | .truncated        => raise .truncatedStream 0 s
            | .refuse           => raise .reservedTag t s
            | .pixel k q0 q1 q2 =>
              if s.limit.toNat < s.ip.toNat + k then raise .truncatedStream 0 s
              else putPixel k q0 q1 q2 s'))
  else .refused .notSelected

/-- PIX.DELTA of the machine: DELTA at its default `none` (00_scope.md R7, D6; log 11). -/
def execPixDelta (t : Byte) (s : State) : Result := deltaWith Config.params.delta t s

end Sys2Proof.Machine
end

