-- ==== Sys2Proof/Machine/TokenStream.lean ====
section
/-!
DEFINITION. The token-stream decompressor's steps CTL, LIT, BREF and END (42_tokenstream.md R111 to R116); LIT in mode V1
is the palette expander (43_v1_expander.md R130).
-/

namespace Sys2Proof.Machine

/-- CTL (42_tokenstream.md R111). -/
def execCtl (k : Byte) (s : State) : Result :=
  if controlDue s then
    guardFetch 1 s (fun s => .next { advance 1 s with ctl := k, cnt := Config.tokensPerControl })
  else .refused .notSelected

/-- LIT (42_tokenstream.md R112). -/
def execLit (d : Byte) (s : State) : Result :=
  if tokenDue true s then guardFetch 1 s (fun s => emitUnit d (useControlBit (advance 1 s)))
  else .refused .notSelected

/-- BREF with the OPEN parameter as an argument (42_tokenstream.md R114). With `none` every back-reference token traps with
ReservedToken, whether or not a byte remains before LIMIT. -/
def brefWith (backref : Option BackrefFn) (s : State) : Result :=
  if tokenDue false s then
    match backref with
    | none   => raise .reservedToken 0 s
    | some f =>
      if s.inLen.toNat < s.limit.toNat then .fault .inAddress
      else
        match f (streamBytes s) s.ip s.limit s.wp with
        | .truncated    => raise .truncatedStream 0 s
        | .refuse       => raise .reservedToken 0 s
        | .copy k pos n =>
          if s.limit.toNat < s.ip.toNat + k then raise .truncatedStream 0 s
          else if s.target.toNat < s.units.toNat + n then raise .reservedToken 0 s
          else copyUnits n pos.toNat (useControlBit (advance k s))
  else .refused .notSelected

/-- BREF of the machine: BACKREF at its default `none` (00_scope.md R7, D5; log 11). -/
def execBref (s : State) : Result := brefWith Config.params.backref s

/-- END (42_tokenstream.md R116). -/
def execEnd (s : State) : Result :=
  if endDue s then .next { s with seq := if s.mode = .v3rgb then .alen else .done }
  else .refused .notSelected

end Sys2Proof.Machine
end

