-- ==== Sys2Proof/Machine/Wrapper.lean ====
section
/-!
DEFINITION. The firmware wrapper's steps HLOAD and HCHK (40_header_wrapper.md R82, R83).
-/

namespace Sys2Proof.Machine

/-- HLOAD (40_header_wrapper.md R82): the eight header registers are loaded together; IP does not move. -/
def execHload (h : Header) (s : State) : Result :=
  if s.seq = .hload then
    if s.inLen.toNat < Config.headerLength then raise .invalidHeader 0 s
    else .next { s with hdr := h, seq := .hchk }
  else .refused .notSelected

/-- Check 1 of HCHK fails: type outside `0..3` or sentinel not `-1` (40_header_wrapper.md R83). -/
def headerInvalid (h : Header) : Bool :=
  decide (h.htype.toInt < 0) || decide (3 < h.htype.toInt) || decide (h.hsent.toInt ≠ -1)

/-- Check 2 of HCHK fails: the size, with an unbounded product (40_header_wrapper.md R83, D9). -/
def sizeMismatch (h : Header) : Bool :=
  decide (h.hunpacked.toInt ≠ pixelCount h * bytesPerPixel h.htype)

/-- Check 3 of HCHK fails: a dimension is not positive (40_header_wrapper.md R83, D8). -/
def dimensionInvalid (h : Header) : Bool :=
  decide (h.hwidth.toInt ≤ 0) || decide (h.hheight.toInt ≤ 0)

/-- The writes of a successful HCHK (40_header_wrapper.md R83). -/
def openPayload (s : State) : State :=
  beginPhase (Mode.ofType s.hdr.htype) (firstTarget s.hdr)
    { s with outLen := s.hdr.hunpacked, out := [], limit := BitVec.ofInt 32 (payloadEnd s),
             ip := BitVec.ofNat 32 Config.headerLength, nbrv := false }

/-- HCHK (40_header_wrapper.md R83): the three checks in order, first failing check wins, then the first phase. -/
def execHchk (s : State) : Result :=
  if s.seq = .hchk then
    if headerInvalid s.hdr then raise .invalidHeader 0 s
    else if sizeMismatch s.hdr then raise .sizeMismatch 0 s
    else if dimensionInvalid s.hdr then raise .invalidHeader 0 s
    else .next (openPayload s)
  else .refused .notSelected

end Sys2Proof.Machine
end

