-- ==== Sys2Proof/Machine/Dispatch.lean ====
section
/-!
DEFINITION. One arm per instruction of the opcode table.
-/

namespace Sys2Proof.Machine

def exec (i : Instr) (s : State) : Host.Outcome State Fault Refusal :=
  match i with
  | .start => Sys2Proof.Machine.execStart s
  | .hload h => Sys2Proof.Machine.execHload h s
  | .hchk => Sys2Proof.Machine.execHchk s
  | .ctl k => Sys2Proof.Machine.execCtl k s
  | .lit d => Sys2Proof.Machine.execLit d s
  | .bref => Sys2Proof.Machine.execBref s
  | .endPhase => Sys2Proof.Machine.execEnd s
  | .pixRaw p0 p1 p2 => Sys2Proof.Machine.execPixRaw p0 p1 p2 s
  | .pixDelta t => Sys2Proof.Machine.execPixDelta t s
  | .alen n => Sys2Proof.Machine.execAlen n s
  | .reset => Sys2Proof.Machine.execReset s

end Sys2Proof.Machine
end

