-- ==== Sys2Proof/Machine/Select.lean ====
section
/-!
DEFINITION. Step selection: the table of 40_header_wrapper.md R80, rows tried top to bottom.
-/

namespace Sys2Proof.Machine

/-- What the table says of a state and a host move. -/
inductive Choice where
  /-- A row that takes a step. -/
  | row (r : Row)
  /-- Row 3: no step, the block is quiescent. -/
  | quiescent
  deriving DecidableEq, Repr

/-- Rows 6 to 10: `STATE = RUN` (40_header_wrapper.md R80). -/
def runRow (s : State) : Row :=
  if s.units = s.target then .endPhase
  else if s.mode.control then
    if s.cnt = 0 then .ctl
    else if controlBit s then .lit
    else .bref
  else .pix

/-- The table of 40_header_wrapper.md R80: reset first; START only while not busy (70_reset_and_hazards.md R207). -/
def select (m : HostMove) (s : State) : Choice :=
  if m = .reset then .row .reset
  else
    match s.seq with
    | .idle  => if m = .start then .row .start else .quiescent
    | .done  => if m = .start then .row .start else .quiescent
    | .fault => if m = .start then .row .start else .quiescent
    | .hload => .row .hload
    | .hchk  => .row .hchk
    | .run   => .row (runRow s)
    | .alen  => .row .alen

end Sys2Proof.Machine
end

