-- ==== Sys2Proof/Machine/Sequencer.lean ====
section
/-!
DEFINITION. One step of the block under one host move, for any executor of instructions (`exec`, or `execWith` of other
parameters), and where a given item is placed so that the next step runs it.
-/

namespace Sys2Proof.Machine

/-- Fetch and decode the item of a row and give it to an executor (00_scope.md R9: a step is one application of one step
rule). -/
def runRowBy (ex : Instr → State → Result) (r : Row) (s : State) : Result :=
  match decode r (itemBytes r s) with
  | .ok (i, _) => ex i s
  | .error _   => .refused .undecodable

/-- One step under the host's move `m`. A host write to IN or IN_LEN while the block is busy is no move of the model
(70_reset_and_hazards.md R206, 93_implementation_defined.md U12; log 16); while it is quiescent the write happens and
the block takes no step (40_header_wrapper.md R80 row 3, 70_reset_and_hazards.md R204; log 2). -/
def stepMoveBy (ex : Instr → State → Result) (m : HostMove) (s : State) : Result :=
  if m.writes && s.seq.busy then .refused .hostWriteBusy
  else
    match select m s with
    | .row r     => runRowBy ex r s
    | .quiescent => .next (hostWrite m s)

/-- One step: the host's move is taken off the list, then the block steps under it (log 1). -/
def stepBy (ex : Instr → State → Result) (s : State) : Result := stepMoveBy ex (hostMove s) (popHost s)

/-- The row's item run by `exec`. -/
def runRowStep (r : Row) (s : State) : Result := runRowBy exec r s

/-- One step of `exec` under a host move. -/
def stepMove (m : HostMove) (s : State) : Result := stepMoveBy exec m s

/-- Bytes written into IN from an address up. -/
def placeBytes : (bytes : List Byte) → (base : Nat) → Mem → Mem
  | [], _, m        => m
  | b :: bs, base, m => placeBytes bs (base + 1) (Mem.write .inp m base b)

/-- The state with an item's bytes in IN at `base`, IN_LEN past every item, IP and LIMIT around them, and the host
asserting nothing. -/
def placeItem (bytes : List Byte) (base : Nat) (s : State) : State :=
  { s with inp := placeBytes bytes base s.inp, inLen := 64, ip := BitVec.ofNat 32 base, limit := 64, host := [] }

/-- The state in which the next step runs the item of a table row: everything the row's context takes (log 18). -/
def placeRow (r : Row) (bytes : List Byte) (s : State) : State :=
  match r with
  | .start => { s with seq := .idle, host := [.start] }
  | .hload => { placeItem bytes 0 s with seq := .hload }
  | .ctl   => { placeItem bytes 32 s with seq := .run, mode := .v0, units := 0, target := 1, outLen := 3, cnt := 0 }
  | .pix   => { placeItem bytes 32 s with seq := .run, mode := .v2, units := 0, target := 1, outLen := 3 }
  | .alen  => { placeItem bytes 32 s with seq := .alen, mode := .v3rgb }
  | _     => s

/-- A table word placed where `step` fetches its next item, in the context `tableRow` reads it in (log 17, 18). -/
def placeTableWord (nbits w : Nat) (s : State) : State :=
  match tableRow nbits w with
  | none   => s
  | some r => placeRow r (bytesOfNat (nbits / 8) w) s

end Sys2Proof.Machine
end

