-- ==== Sys2Proof/Machine/Step.lean ====
section
/-!
DEFINITION. The step of the machine: the host's move of this step is taken off the list, then the block steps under it.
-/

namespace Sys2Proof.Machine

/-- One step (40_header_wrapper.md R80; log 1), with BACKREF and DELTA at their default; `stepWith` takes any other. -/
def step (s : State) : Host.Outcome State Fault Refusal := stepBy exec s

/-- `s` with the instruction of a table word placed so that the very next step runs it (log 17, 18). -/
def State.withFetchWord (s : State) (nbits w : Nat) : State := placeTableWord nbits w s

end Sys2Proof.Machine
end

