-- ==== Sys2Proof/Machine/RefEncoder.lean ====
section
/-!
DEFINITION. The reference encoder (46_reference_encoder.md R160 to R167): the software toolchain that produces streams for
the block. It is no part of the block and no step calls it (00_scope.md R4; log 24).
-/

namespace Sys2Proof.Machine

/-- `enc_v0` with `k` tokens left under the current control byte (46_reference_encoder.md R161): a new group of eight opens
with the control byte `0xFF`, a short last group too. -/
def encV0From : (k : Nat) → List Byte → List Byte
  | _, []         => []
  | 0, b :: bs     => 0xFF#8 :: b :: encV0From 7 bs
  | k + 1, b :: bs => b :: encV0From k bs

/-- `enc_v0(B)` (46_reference_encoder.md R161). -/
def encV0 (bytes : List Byte) : List Byte := encV0From 0 bytes

/-- The samples of a 3-channel buffer: every third byte (46_reference_encoder.md R162). -/
def samples : List Byte → List Byte
  | b0 :: _ :: _ :: rest => b0 :: samples rest
  | _                    => []

/-- `enc_v1(buf)` (46_reference_encoder.md R162). -/
def encV1 (buf : List Byte) : List Byte := encV0 (samples buf)

/-- `enc_v2(buf)` (46_reference_encoder.md R163). -/
def encV2 : List Byte → List Byte
  | b0 :: b1 :: b2 :: rest => 0 :: b0 :: b1 :: b2 :: encV2 rest
  | _                      => []

/-- `enc_v3(rgb, alpha)` (46_reference_encoder.md R164). -/
def encV3 (rgb alpha : List Byte) : List Byte :=
  encV2 rgb ++ wordBytes (BitVec.ofNat 32 (encV0 alpha).length) ++ encV0 alpha

/-- The RGB plane of a 32-bit interleaved buffer (46_reference_encoder.md R164). -/
def rgbPlane : List Byte → List Byte
  | b0 :: b1 :: b2 :: _ :: rest => b0 :: b1 :: b2 :: rgbPlane rest
  | _                           => []

/-- The alpha plane of a 32-bit interleaved buffer (46_reference_encoder.md R164). -/
def alphaPlane : List Byte → List Byte
  | _ :: _ :: _ :: b3 :: rest => b3 :: alphaPlane rest
  | _                         => []

/-- The payload of a container by its type (46_reference_encoder.md R165). -/
def encPayload (htype : Nat) (buf : List Byte) : List Byte :=
  if htype = 0 then encV0 buf
  else if htype = 1 then encV1 buf
  else if htype = 2 then encV2 buf
  else encV3 (rgbPlane buf) (alphaPlane buf)

/-- The header `pt1` writes (46_reference_encoder.md R165, R167). -/
def pt1Header (htype : Nat) (offx offy : Word) (w h : Nat) (buf : List Byte) : Header :=
  { htype := BitVec.ofNat 32 htype, hsent := BitVec.ofInt 32 (-1), hoffx := offx, hoffy := offy,
    hwidth := BitVec.ofNat 32 w, hheight := BitVec.ofNat 32 h,
    hpacked := BitVec.ofNat 32 (encPayload htype buf).length,
    hunpacked := BitVec.ofNat 32 (w * h * (if htype = 3 then 4 else 3)) }

/-- `pt1(type, offx, offy, w, h, buf)`: the whole container (46_reference_encoder.md R165). -/
def pt1 (htype : Nat) (offx offy : Word) (w h : Nat) (buf : List Byte) : List Byte :=
  headerBytes (pt1Header htype offx offy w h buf) ++ encPayload htype buf

end Sys2Proof.Machine
end

