-- ==== Sys2Proof/Machine/HostPort.lean ====
section
/-!
DEFINITION. What the host reads: registers by number (10_state.md R30), IN, and OUT, which is valid only in DONE
(60_exceptions.md R190). A read has no side effect, so it is a function of the state, not a step (log 19). WIN has no
host access.
-/

namespace Sys2Proof.Machine

/-- The number of a STATE value (10_state.md R12). -/
def Seq.code : Seq → BitVec 3
  | .idle  => 0
  | .hload => 1
  | .hchk  => 2
  | .run   => 3
  | .alen  => 4
  | .done  => 5
  | .fault => 6

/-- The number of a MODE value (10_state.md R13). -/
def Mode.code : Mode → BitVec 3
  | .v0    => 0
  | .v1    => 1
  | .v2    => 2
  | .v3rgb => 3
  | .v3a   => 4

/-- The number of an ERR value (60_exceptions.md R180). -/
def Err.code : Err → BitVec 3
  | .none            => 0
  | .invalidHeader   => 1
  | .sizeMismatch    => 2
  | .truncatedStream => 3
  | .ioFailure       => 4
  | .reservedToken   => 5
  | .reservedTag     => 6

/-- A register by its host number (10_state.md R30), zero-extended to 32 bits; no other number exists. DESIGN CHOICE
(log 5): a register that holds no value shows the host its one free value at every read. -/
def hostRegister (s : State) : Nat → Option Word
  | 0  => some s.hdr.htype
  | 1  => some s.hdr.hsent
  | 2  => some s.hdr.hoffx
  | 3  => some s.hdr.hoffy
  | 4  => some s.hdr.hwidth
  | 5  => some s.hdr.hheight
  | 6  => some s.hdr.hpacked
  | 7  => some s.hdr.hunpacked
  | 8  => some (s.seq.code.setWidth 32)
  | 9  => some (s.mode.code.setWidth 32)
  | 10 => some (s.err.code.setWidth 32)
  | 11 => some s.eip
  | 12 => some (s.einfo.setWidth 32)
  | 13 => some s.ip
  | 14 => some s.limit
  | 15 => some (s.ctl.setWidth 32)
  | 16 => some (BitVec.ofNat 32 s.cnt.val)
  | 17 => some s.units
  | 18 => some s.target
  | 19 => some (s.wp.setWidth 32)
  | 20 => some (s.nbr.setWidth 32)
  | 21 => some (if s.nbrv then 1 else 0)
  | 22 => some s.outLen
  | 23 => some s.inLen
  | _  => none

/-- `done = (STATE = DONE)` (10_state.md R27). -/
def Seq.isDone (q : Seq) : Bool := q = .done

/-- `fault = (STATE = FAULT)` (10_state.md R27). -/
def Seq.isFault (q : Seq) : Bool := q = .fault

/-- A byte of OUT as the host's read number `read` gives it: the written byte in DONE; in every other state, where OUT is
not valid (60_exceptions.md R186, R190; 93_implementation_defined.md U9, U10), a free value of that read alone (log 19).
DESIGN CHOICE (log 27): a read at or beyond OUT_LEN, of which the spec says nothing, is such a free value too. -/
def hostOut (read : Nat) (s : State) (a : Nat) : Byte :=
  if s.seq.isDone then (Mem.read .out s.out a).getD (Config.freeBits 8 s.free (.hostRead read a))
  else Config.freeBits 8 s.free (.hostRead read a)

/-- A byte of IN as the host reads it (60_exceptions.md R190). DESIGN CHOICE (log 27): the spec sizes IN as IN_LEN bytes and
is silent on a host access at or beyond IN_LEN; here it reads the byte the host stored there, or the free value of that
address where it stored none. -/
def hostIn (s : State) (a : Nat) : Byte := inByte s a

end Sys2Proof.Machine
end

