-- ==== Sys2Proof/Machine/Parameters.lean ====
section
/-!
DEFINITION. The machine with the OPEN parameters BACKREF and DELTA as its arguments (00_scope.md R7, 92_eei_decisions.md, OPEN
parameters): the meaning of every instruction, the step and the whole machine under parameters `p`. At `Config.params`, the
spec's default, they are `exec`, `step` and `core`, whose types the host fixes (log 11).
-/

namespace Sys2Proof.Machine

/-- The meaning of an instruction under parameters. Only BREF (42_tokenstream.md R114) and PIX.DELTA (44_v2_predictor.md
R138) look at them. -/
def execWith (p : Params) (i : Instr) (s : State) : Result :=
  match i with
  | .start           => execStart s
  | .hload h         => execHload h s
  | .hchk            => execHchk s
  | .ctl k           => execCtl k s
  | .lit d           => execLit d s
  | .bref            => brefWith p.backref s
  | .endPhase        => execEnd s
  | .pixRaw p0 p1 p2 => execPixRaw p0 p1 p2 s
  | .pixDelta t      => deltaWith p.delta t s
  | .alen n          => execAlen n s
  | .reset           => execReset s

/-- One step under parameters (40_header_wrapper.md R80). -/
def stepWith (p : Params) (s : State) : Result := stepBy (execWith p) s

/-- The machine under parameters, fixed for all its runs (10_state.md R27). -/
def coreWith (p : Params) : Host.Core :=
  { State := State, Fault := Fault, Refusal := Refusal, step := stepWith p, reset := State.reset }

end Sys2Proof.Machine
end

