-- ==== Sys2Proof/Machine/Run.lean ====
section
/-!
DEFINITION. A run as a whole (40_header_wrapper.md R86 to R88): from START to the first state with STATE = DONE or FAULT.
-/

namespace Sys2Proof.Machine

/-- `STATE = DONE` or `STATE = FAULT`: the end of a run (40_header_wrapper.md R88). -/
def Seq.ended (q : Seq) : Bool := q.isDone || q.isFault

/-- Step under parameters until the run has ended, at most `n` steps. -/
def runToEnd (p : Params) : (n : Nat) → State → Result
  | 0, s     => .next s
  | n + 1, s => if s.seq.ended then .next s else andThen (stepWith p s) (runToEnd p n)

/-- `ceil(n/8)`: control bytes of `n` units (42_tokenstream.md R110). -/
def controlBytes (n : Nat) : Nat := (n + 7) / 8

/-- The bound on the steps of a run (40_header_wrapper.md R87), `t` being HUNPACKED. -/
def runBound (t : Int) : Nat :=
  let n := max t.toNat 1
  3 + 2 * (n + controlBytes n + 1) + 1

/-- The block after reset with a container image in IN, its length in IN_LEN, and the host about to give START once
(70_reset_and_hazards.md R203). -/
def loadImage (image : List Byte) : State :=
  { State.reset with inp := placeBytes image 0 [], inLen := BitVec.ofNat 32 image.length, host := [.start] }

/-- `Decode(IN, IN_LEN)` (40_header_wrapper.md R86) under parameters, within `n` steps. -/
def decodeImage (p : Params) (n : Nat) (image : List Byte) : Result := runToEnd p n (loadImage image)

/-- The bytes `OUT[0 .. OUT_LEN-1]` as the host reads them (70_reset_and_hazards.md R203), its reads numbered from `read`
up. -/
def hostBuffer (read : Nat) (s : State) : List Byte :=
  (List.range s.outLen.toNat).map (fun a => hostOut (read + a) s a)

end Sys2Proof.Machine
end

