-- ==== Sys2Proof/Safety.lean ====
section
/-!
DEFINITION. What counts as a safe run, in the terms the statements use: the invariant of every state a run reaches, what
has been written to OUT, the state relations inside a phase, and how many steps are left.
-/

namespace Sys2Proof.Safety

open Sys2Proof.Machine

/-- In this step the host asserts no reset and writes neither IN nor IN_LEN (70_reset_and_hazards.md R204). -/
def HostQuiet (s : State) : Prop := hostMove s ≠ .reset ∧ (hostMove s).writes = false

/-- The OUT addresses of unit `u` of a control-byte phase (10_state.md R13, 42_tokenstream.md R113). -/
def UnitLane (m : Mode) (u a : Nat) : Prop :=
  match m with
  | .v0    => a = u
  | .v1    => a = 3 * u ∨ a = 3 * u + 1 ∨ a = 3 * u + 2
  | .v3a   => a = 4 * u + 3
  | .v2    => False
  | .v3rgb => False

/-- How far back of the cursor a window position lies, 1 to 4096 (a position equal to the cursor holds the oldest byte). -/
def copyDistance (wp pos : Cursor) : Nat := (wp.toNat + 4095 - pos.toNat) % 4096 + 1

/-- The three memories are in canonical form. -/
def MemoriesCanonical (s : State) : Prop :=
  Mem.wf .inp s.inp = true ∧ Mem.wf .out s.out = true ∧ Mem.wf .win s.win = true

/-- ERR is 0 exactly outside FAULT and never IOFailure (10_state.md R14, 60_exceptions.md R183). -/
def FaultRecorded (s : State) : Prop := (s.err = .none ↔ s.seq ≠ .fault) ∧ s.err ≠ .ioFailure

/-- The header passed the three checks of HCHK (40_header_wrapper.md R83). -/
def HeaderValid (h : Header) : Prop :=
  headerInvalid h = false ∧ sizeMismatch h = false ∧ dimensionInvalid h = false

/-- MODE is the header's type, or the alpha plane of type 3 (10_state.md R13, 40_header_wrapper.md R84). -/
def ModeFits (s : State) : Prop :=
  s.mode = Mode.ofType s.hdr.htype ∨ (s.mode = .v3a ∧ s.hdr.htype.toInt = 3)

/-- TARGET is HUNPACKED bytes for type 0 and HWIDTH * HHEIGHT otherwise (40_header_wrapper.md R84). -/
def TargetFits (s : State) : Prop :=
  (s.target.toNat : Int) = if s.mode = .v0 then s.hdr.hunpacked.toInt else pixelCount s.hdr

/-- What holds of a phase once the header has passed validation (10_state.md R22, R25; 44_v2_predictor.md R137: CTL and CNT
stay 0 in the pixel modes). -/
structure PhaseFits (s : State) : Prop where
  header : HeaderValid s.hdr
  mode   : ModeFits s
  target : TargetFits s
  outLen : s.outLen = s.hdr.hunpacked
  units  : s.units.toNat ≤ s.target.toNat
  pixels : s.mode.control = false → s.ctl = 0 ∧ s.cnt = 0

/-- The fetch pointers of a phase: `32 <= IP <= LIMIT <= IN_LEN` (10_state.md R19, 20_memory.md R42). -/
def SegmentFits (s : State) : Prop :=
  32 ≤ s.ip.toNat ∧ s.ip.toNat ≤ s.limit.toNat ∧ s.limit.toNat ≤ s.inLen.toNat

/-- THE invariant: it holds at reset and every step keeps it. -/
structure Inv (s : State) : Prop where
  canonical : MemoriesCanonical s
  recorded  : FaultRecorded s
  loading   : s.seq = .hload ∨ s.seq = .hchk → s.ip = 0
  loaded    : s.seq = .hchk → 32 ≤ s.inLen.toNat
  phase     : s.seq = .run ∨ s.seq = .alen ∨ s.seq = .done → PhaseFits s
  segment   : s.seq = .run ∨ s.seq = .alen → SegmentFits s
  rgbDone   : s.seq = .alen → s.mode = .v3rgb ∧ s.units = s.target
  allDone   : s.seq = .done → s.mode ≠ .v3rgb ∧ s.units = s.target

/-- The OUT addresses the units produced so far cover (10_state.md R13, 20_memory.md R47). -/
def Covered (m : Mode) (units target a : Nat) : Prop :=
  match m with
  | .v0    => a < units
  | .v1    => a < 3 * units
  | .v2    => a < 3 * units
  | .v3rgb => a % 4 < 3 ∧ a / 4 < units
  | .v3a   => a < 4 * target ∧ (a % 4 = 3 → a / 4 < units)

/-- OUT holds a written byte exactly at the covered addresses (10_state.md R25). -/
def OutTracksUnits (s : State) : Prop :=
  s.seq = .run ∨ s.seq = .alen ∨ s.seq = .done →
    ∀ a, (Mem.read .out s.out a).isSome = true ↔ Covered s.mode s.units.toNat s.target.toNat a

/-- The OUT address that carries unit `j` of a control-byte phase (10_state.md R13; in V1 its lane 0). -/
def unitAddress (m : Mode) (j : Nat) : Nat :=
  match m with
  | .v0    => j
  | .v1    => 3 * j
  | .v3a   => 4 * j + 3
  | .v2    => 3 * j
  | .v3rgb => 4 * j

/-- The address of the first byte of a control-byte phase (42_tokenstream.md R119): the payload's start, or the byte after
the alpha length field, which follows the raw pixels (45_v3_composite.md R150, R152). -/
def phaseStart (s : State) : Nat :=
  if s.mode = .v3a then 32 + 4 * s.target.toNat + 4 else 32

/-- The state relation inside a control-byte phase (42_tokenstream.md R119). `CNT = 8` exactly just after a CTL step;
`last` is the address of the control byte in use. -/
structure TokenRelation (s : State) : Prop where
  cursor    : s.wp.toNat = (4078 + s.units.toNat) % 4096
  afterLit  : s.cnt ≠ 8 →
    s.ip.toNat = phaseStart s + s.units.toNat + controlBytes s.units.toNat ∧
      s.cnt.val = (8 - s.units.toNat % 8) % 8
  afterCtl  : s.cnt = 8 →
    s.units.toNat % 8 = 0 ∧ s.ip.toNat = phaseStart s + s.units.toNat + s.units.toNat / 8 + 1
  bits      : 0 < s.units.toNat + s.cnt.val →
    s.ctl = inByte s (s.ip.toNat - (8 - s.cnt.val) - 1) >>> (8 - s.cnt.val)
  recent    : ∀ j, s.units.toNat - 4096 ≤ j → j < s.units.toNat →
    Mem.read .out s.out (unitAddress s.mode j) = some (winGet (4078 + j) s)
  untouched : ∀ p, p < 4096 → s.units.toNat ≤ (p + 4096 - 4078) % 4096 → winGet p s = seed p

/-- R119 holds in every control-byte phase. -/
def TokenPhase (s : State) : Prop := s.seq = .run → s.mode.control = true → TokenRelation s

/-- The state relation of a pixel phase of raw pixels, which begins at address 32 (44_v2_predictor.md R139). -/
def PixelPhase (s : State) : Prop :=
  s.seq = .run ∨ s.seq = .alen → s.mode.control = false →
    s.ip.toNat = 32 + 4 * s.units.toNat ∧ s.wp.toNat = (4078 + 3 * s.units.toNat) % 4096

/-- In a type 1 run the three lanes of every sample produced so far are equal (43_v1_expander.md R132). -/
def LanesEqual (s : State) : Prop :=
  s.seq = .run ∨ s.seq = .done → s.mode = .v1 →
    ∀ u, u < s.units.toNat → ∃ b, Mem.read .out s.out (3 * u) = some b ∧
      Mem.read .out s.out (3 * u + 1) = some b ∧ Mem.read .out s.out (3 * u + 2) = some b

/-- Steps of a control-byte phase that owes `n` units with `cnt` control bits left, its END included
(40_header_wrapper.md R87). -/
def tokenSteps (n cnt : Nat) : Nat := n + controlBytes (n - cnt) + 1

/-- Steps left to the end of a run that does not fault, from a state in RUN or ALEN (40_header_wrapper.md R87). -/
def stepsLeft (s : State) : Nat :=
  if s.seq = .alen then 1 + tokenSteps s.target.toNat 0
  else if s.seq = .run then
    match s.mode with
    | .v0    => tokenSteps (s.target.toNat - s.units.toNat) s.cnt.val
    | .v1    => tokenSteps (s.target.toNat - s.units.toNat) s.cnt.val
    | .v3a   => tokenSteps (s.target.toNat - s.units.toNat) s.cnt.val
    | .v2    => s.target.toNat - s.units.toNat + 1
    | .v3rgb => s.target.toNat - s.units.toNat + 1 + 1 + tokenSteps s.target.toNat 0
  else 0

/-- The header fields in file order (30_encoding.md R61). -/
def headerFields (h : Header) : List Word :=
  [h.htype, h.hsent, h.hoffx, h.hoffy, h.hwidth, h.hheight, h.hpacked, h.hunpacked]

/-- The 32-bit field of IN at an address (30_encoding.md R67), unsigned. -/
def inField (s : State) (a : Nat) : Nat :=
  (inByte s a).toNat + 256 * (inByte s (a + 1)).toNat + 65536 * (inByte s (a + 2)).toNat
    + 16777216 * (inByte s (a + 3)).toNat

/-- Two states of a run that differ at most in what the spec gives no value: the number of the next free value, and NBR
while NBRV = 0 (10_state.md R24, 44_v2_predictor.md R136). -/
def SameRun (s t : State) : Prop :=
  t = { s with nbr := t.nbr, free := t.free } ∧ (s.nbrv = true → t.nbr = s.nbr)

end Sys2Proof.Safety
end

