-- ==== Sys2Proof/Certificates/Slice0/Obligations.lean ====
section
/-!
DEFINITION. The statements for the provers. Each docstring names the rule of spec/ it formalises.
-/

open Sys2Proof Sys2Proof.Machine Sys2Proof.Safety

/-! ### Encoding -/

/-- Every well-formed instruction is read back from its own bytes, whatever follows them (30_encoding.md sections 1, 2). -/
def Obligations.DecodeOfEncode : Prop :=
  ∀ (i : Instr) (rest : List Byte), i.WellFormed → decode i.row (encode i ++ rest) = .ok (i, rest)

/-- What the decoder reads is well-formed, belongs to the row it was read for, and its encoding with the bytes left over is
exactly the bytes read (30_encoding.md sections 1, 2). -/
def Obligations.EncodeOfDecode : Prop :=
  ∀ (r : Row) (bytes : List Byte) (i : Instr) (rest : List Byte),
    decode r bytes = .ok (i, rest) → i.WellFormed ∧ i.row = r ∧ encode i ++ rest = bytes

/-- 30_encoding.md R61: bit `b` of field `i` is bit `b mod 8` of the byte at `4i + (b div 8)`, and the field is read as
two's complement. -/
def Obligations.HeaderFieldBits : Prop :=
  ∀ bytes : List Byte, bytes.length = 32 →
    ∃ h, decode .hload bytes = .ok (.hload h, []) ∧
      ∀ i, i < 8 → ∀ b, b < 32 →
        ((headerFields h).getD i 0).getLsbD b = (bytes.getD (4 * i + b / 8) 0).getLsbD (b % 8) ∧
        ((headerFields h).getD i 0).toInt =
          (((headerFields h).getD i 0).toNat : Int) -
            (if (bytes.getD (4 * i + 3) 0).getLsbD 7 then 4294967296 else 0)

/-- 30_encoding.md R67, 20_memory.md R44: little-endian assembly of a 32-bit field, read signed, and of the 24-bit
neighbour. -/
def Obligations.OperandAssembly : Prop :=
  (∀ b0 b1 b2 b3 : Byte,
    (wordOfBytes b0 b1 b2 b3).toInt =
      (if b3.toNat < 128 then
        (b0.toNat + 256 * b1.toNat + 65536 * b2.toNat + 16777216 * b3.toNat : Int)
      else (b0.toNat + 256 * b1.toNat + 65536 * b2.toNat + 16777216 * b3.toNat : Int) - 4294967296)) ∧
  ∀ b0 b1 b2 : Byte,
    (pixelOfBytes b0 b1 b2).toNat = b0.toNat + 256 * b1.toNat + 65536 * b2.toNat

/-- A few words written out from the formats of 30_encoding.md and the programs of 95_test_vectors.md. -/
def Obligations.SampleWords : Prop :=
  decode .ctl [0xFF#8, 0x01#8] = .ok (.ctl 0xFF#8, [0x01#8]) ∧
  decode .lit [0xA0#8] = .ok (.lit 0xA0#8, []) ∧
  decode .pix [0x00#8, 0x0A#8, 0x14#8, 0x1E#8] = .ok (.pixRaw 0x0A#8 0x14#8 0x1E#8, []) ∧
  decode .pix [0x01#8, 0x0A#8] = .ok (.pixDelta 0x01#8, [0x0A#8]) ∧
  decode .alen [0x02#8, 0x00#8, 0x00#8, 0x00#8] = .ok (.alen 2#32, []) ∧
  decode .alen [0x02#8, 0x00#8, 0x00#8] = .error (.tooShort .alen)

/-! ### The window and the memories -/

/-- 41_dictionary.md R100: the six segments of the seed in the source's words. -/
def Obligations.SeedSegments : Prop :=
  (List.range 4096).map seed =
    (List.range 256).flatMap (fun v => List.replicate 13 (BitVec.ofNat 8 v)) ++
    (List.range 256).map (BitVec.ofNat 8) ++
    (List.range 256).reverse.map (BitVec.ofNat 8) ++
    List.replicate 128 0x00#8 ++ List.replicate 110 0x20#8 ++ List.replicate 18 0x00#8

/-- Two memories of one space in canonical form that read alike everywhere are the same list (20_memory.md section 1). -/
def Obligations.CanonicalMemoryIsUnique : Prop :=
  ∀ (sp : Space) (m m' : Mem), Mem.wf sp m = true → Mem.wf sp m' = true →
    (∀ a, Mem.read sp m a = Mem.read sp m' a) → m = m'

/-- 41_dictionary.md R103: WinPut writes the cursor's byte, moves the cursor by one modulo 4096, and changes nothing else. -/
def Obligations.WindowWriteAndAdvance : Prop :=
  ∀ (b : Byte) (s : State),
    (∀ p, winGet p (winPut b s) = if p % 4096 = s.wp.toNat then b else winGet p s) ∧
    (winPut b s).wp.toNat = (s.wp.toNat + 1) % 4096 ∧
    winPut b s = { s with win := (winPut b s).win, wp := (winPut b s).wp }

/-! ### Host commands -/

/-- 40_header_wrapper.md R81: START from IDLE, DONE or FAULT. -/
def Obligations.StartBeginsRun : Prop :=
  ∀ s : State, s.seq = .idle ∨ s.seq = .done ∨ s.seq = .fault →
    exec .start s = .next { s with seq := .hload, err := .none, eip := 0, einfo := 0, ip := 0 }

/-- 70_reset_and_hazards.md R207: a START while the block is busy is ignored, and no move but reset changes what a busy
block does. -/
def Obligations.StartIgnoredWhileBusy : Prop :=
  ∀ (s : State) (m : HostMove) (hs : List HostMove), s.seq.busy = true →
    exec .start s = .next s ∧
    (s.host = m :: hs → m ≠ .reset → m.writes = false →
      step s = step { s with host := .idle :: hs })

/-- 70_reset_and_hazards.md section 1: reset in any state leaves STATE = IDLE, ERR = 0, no byte of OUT written and IN, IN_LEN
untouched; the step under an asserted reset is RESET. That OUT then lists nothing is the model's form of "holds no value"
(log 5, 8). -/
def Obligations.ResetCommand : Prop :=
  ∀ s : State,
    (∃ t, exec .reset s = .next t ∧ t.seq = .idle ∧ t.err = .none ∧ (∀ a, Mem.read .out t.out a = none) ∧
      t.inp = s.inp ∧ t.inLen = s.inLen ∧ t.host = s.host) ∧
    (hostMove s = .reset → step s = exec .reset (popHost s))

/-! ### Header load and validation -/

/-- 40_header_wrapper.md R82: HLOAD loads all eight registers from IN 0..31, leaves IP, and traps InvalidHeader where fewer
than 32 bytes are present. -/
def Obligations.HloadLoadsHeader : Prop :=
  (∀ (h : Header) (s : State), s.seq = .hload →
    (32 ≤ s.inLen.toNat → exec (.hload h) s = .next { s with hdr := h, seq := .hchk }) ∧
    (s.inLen.toNat < 32 → exec (.hload h) s =
      .next { s with eip := s.ip, einfo := 0, err := .invalidHeader, seq := .fault })) ∧
  ∀ s : State, s.seq = .hload → HostQuiet s → 32 ≤ s.inLen.toNat →
    ∃ h : Header, step s = .next { s with hdr := h, seq := .hchk, host := s.host.tail } ∧
      ∀ i, i < 8 → ((headerFields h).getD i 0).toNat = inField s (4 * i)

/-- 40_header_wrapper.md R83: the checks of HCHK in their order, with an unbounded product, and the writes of success. -/
def Obligations.HchkValidatesHeader : Prop :=
  ∀ s : State, s.seq = .hchk →
    let w := s.hdr.hwidth.toInt
    let h := s.hdr.hheight.toInt
    let bytes : Int := if s.hdr.htype.toInt = 3 then 4 else 3
    let bad1 := s.hdr.htype.toInt < 0 ∨ 3 < s.hdr.htype.toInt ∨ s.hdr.hsent.toInt ≠ -1
    let bad2 := s.hdr.hunpacked.toInt ≠ w * h * bytes
    let bad3 := w ≤ 0 ∨ h ≤ 0
    (bad1 → exec .hchk s =
      .next { s with eip := s.ip, einfo := 0, err := .invalidHeader, seq := .fault }) ∧
    (¬ bad1 → bad2 → exec .hchk s =
      .next { s with eip := s.ip, einfo := 0, err := .sizeMismatch, seq := .fault }) ∧
    (¬ bad1 → ¬ bad2 → bad3 → exec .hchk s =
      .next { s with eip := s.ip, einfo := 0, err := .invalidHeader, seq := .fault }) ∧
    (¬ bad1 → ¬ bad2 → ¬ bad3 → ∃ t, exec .hchk s = .next t ∧
      t = { s with outLen := t.outLen, out := t.out, limit := t.limit, ip := t.ip, mode := t.mode,
                   target := t.target, units := 0, win := t.win, wp := t.wp, ctl := 0, cnt := 0,
                   nbrv := false, seq := .run } ∧
      (t.outLen.toNat : Int) = s.hdr.hunpacked.toInt ∧ (∀ a, Mem.read .out t.out a = none) ∧
      (t.limit.toNat : Int) = 32 + max 0 (min s.hdr.hpacked.toInt ((s.inLen.toNat : Int) - 32)) ∧
      t.ip.toNat = 32 ∧
      (s.hdr.htype.toInt = 0 → t.mode = .v0) ∧ (s.hdr.htype.toInt = 1 → t.mode = .v1) ∧
      (s.hdr.htype.toInt = 2 → t.mode = .v2) ∧ (s.hdr.htype.toInt = 3 → t.mode = .v3rgb) ∧
      (t.target.toNat : Int) = (if s.hdr.htype.toInt = 0 then s.hdr.hunpacked.toInt else w * h) ∧
      (∀ p, p < 4096 → winGet p t = seed p) ∧ t.wp.toNat = 4078)

/-- 40_header_wrapper.md section 4 (the table of R84): sizes and targets by type once the checks pass. -/
def Obligations.VariantSelectorTable : Prop :=
  ∀ s t : State, s.seq = .hchk → exec .hchk s = .next t → t.seq = .run →
    let pixels := s.hdr.hwidth.toInt * s.hdr.hheight.toInt
    0 < pixels ∧ (t.target.toNat : Int) ≤ 2147483647 ∧ 0 < t.target.toNat ∧
    ((s.hdr.htype.toInt = 0 ∧ t.mode = .v0 ∧ (t.outLen.toNat : Int) = 3 * pixels ∧
        (t.target.toNat : Int) = 3 * pixels) ∨
     (s.hdr.htype.toInt = 1 ∧ t.mode = .v1 ∧ (t.outLen.toNat : Int) = 3 * pixels ∧
        (t.target.toNat : Int) = pixels) ∨
     (s.hdr.htype.toInt = 2 ∧ t.mode = .v2 ∧ (t.outLen.toNat : Int) = 3 * pixels ∧
        (t.target.toNat : Int) = pixels) ∨
     (s.hdr.htype.toInt = 3 ∧ t.mode = .v3rgb ∧ (t.outLen.toNat : Int) = 4 * pixels ∧
        (t.target.toNat : Int) = pixels))

/-! ### Token stream -/

/-- 42_tokenstream.md R111: CTL loads the control byte at IN[IP] and CNT = 8, or traps TruncatedStream. That the byte also
lies below IN_LEN is 20_memory.md R42. -/
def Obligations.CtlLoadsControlByte : Prop :=
  ∀ (k : Byte) (s : State), s.seq = .run → s.mode.control = true → s.units.toNat < s.target.toNat →
    s.cnt = 0 →
    (s.limit.toNat ≤ s.ip.toNat → exec (.ctl k) s =
      .next { s with eip := s.ip, einfo := 0, err := .truncatedStream, seq := .fault }) ∧
    (s.ip.toNat < s.limit.toNat → s.limit.toNat ≤ s.inLen.toNat → ∃ t,
      exec (.ctl k) s = .next t ∧ t = { s with ctl := k, cnt := 8, ip := t.ip } ∧
      t.ip.toNat = s.ip.toNat + 1) ∧
    (s.ip.toNat < s.limit.toNat → s.limit.toNat ≤ s.inLen.toNat → HostQuiet s → k = inByte s s.ip.toNat →
      step s = exec (.ctl k) { s with host := s.host.tail })

/-- 42_tokenstream.md R112 and R113: LIT takes the byte at IN[IP], shifts CTL, counts CNT down, writes the unit's OUT addresses of its mode, one window
byte at the cursor, and counts one unit; everything else, every other byte of OUT and WIN included, is unchanged. -/
def Obligations.LitDeliversUnit : Prop :=
  ∀ (d : Byte) (s : State), s.seq = .run → s.mode.control = true → s.units.toNat < s.target.toNat →
    s.cnt ≠ 0 → s.ctl.getLsbD 0 = true →
    (s.limit.toNat ≤ s.ip.toNat → exec (.lit d) s =
      .next { s with eip := s.ip, einfo := 0, err := .truncatedStream, seq := .fault }) ∧
    (s.ip.toNat < s.limit.toNat → s.limit.toNat ≤ s.inLen.toNat →
      (∀ a, UnitLane s.mode s.units.toNat a → a < s.outLen.toNat) → ∃ t,
      exec (.lit d) s = .next t ∧
      t = { s with ip := t.ip, ctl := s.ctl >>> 1, cnt := t.cnt, units := t.units, wp := t.wp,
                   out := t.out, win := t.win } ∧
      t.ip.toNat = s.ip.toNat + 1 ∧ t.cnt.val + 1 = s.cnt.val ∧ t.units.toNat = s.units.toNat + 1 ∧
      t.wp.toNat = (s.wp.toNat + 1) % 4096 ∧
      (∀ a, UnitLane s.mode s.units.toNat a → Mem.read .out t.out a = some d) ∧
      (∀ a, ¬ UnitLane s.mode s.units.toNat a → Mem.read .out t.out a = Mem.read .out s.out a) ∧
      (∀ p, winGet p t = if p % 4096 = s.wp.toNat then d else winGet p s)) ∧
    (s.ip.toNat < s.limit.toNat → s.limit.toNat ≤ s.inLen.toNat → HostQuiet s → d = inByte s s.ip.toNat →
      step s = exec (.lit d) { s with host := s.host.tail })

/-- 42_tokenstream.md section 4, 60_exceptions.md R184: with BACKREF at its default `none` (the spec's OPEN parameter, D5) a
token whose control bit is 0 traps ReservedToken, whether or not a byte remains before LIMIT. -/
def Obligations.BrefTrapsReservedToken : Prop :=
  ∀ s : State, s.seq = .run → s.mode.control = true → s.units.toNat < s.target.toNat →
    s.cnt ≠ 0 → s.ctl.getLsbD 0 = false →
    exec .bref s = .next { s with eip := s.ip, einfo := 0, err := .reservedToken, seq := .fault }

/-- 42_tokenstream.md section 4: what a supplied BACKREF can make of a token that is not copied. -/
def Obligations.BrefSuppliedTraps : Prop :=
  ∀ (f : BackrefFn) (s : State), s.seq = .run → s.mode.control = true →
    s.units.toNat < s.target.toNat → s.cnt ≠ 0 → s.ctl.getLsbD 0 = false →
    s.limit.toNat ≤ s.inLen.toNat →
    let r := f (streamBytes s) s.ip s.limit s.wp
    (r = .truncated → brefWith (some f) s =
      .next { s with eip := s.ip, einfo := 0, err := .truncatedStream, seq := .fault }) ∧
    (r = .refuse → brefWith (some f) s =
      .next { s with eip := s.ip, einfo := 0, err := .reservedToken, seq := .fault }) ∧
    (∀ k pos n, r = .copy k pos n → s.limit.toNat < s.ip.toNat + k → brefWith (some f) s =
      .next { s with eip := s.ip, einfo := 0, err := .truncatedStream, seq := .fault }) ∧
    (∀ k pos n, r = .copy k pos n → s.ip.toNat + k ≤ s.limit.toNat →
      s.target.toNat < s.units.toNat + n → brefWith (some f) s =
      .next { s with eip := s.ip, einfo := 0, err := .reservedToken, seq := .fault })

/-- 42_tokenstream.md section 4 and 70_reset_and_hazards.md R209 (the overlap case is marked there as general knowledge):
the copy of a supplied BACKREF is byte-serial, so a source that reaches the cursor repeats recent output: byte `j` is the
old window byte while `j` is below the distance, and byte `j - distance` of the copy itself from there on. -/
def Obligations.BrefCopyRepeatsRecentOutput : Prop :=
  ∀ (f : BackrefFn) (s : State) (k : Nat) (pos : Cursor) (n : Nat),
    s.seq = .run → s.mode.control = true → s.units.toNat < s.target.toNat → s.cnt ≠ 0 →
    s.ctl.getLsbD 0 = false → s.limit.toNat ≤ s.inLen.toNat →
    f (streamBytes s) s.ip s.limit s.wp = .copy k pos n →
    s.ip.toNat + k ≤ s.limit.toNat → s.units.toNat + n ≤ s.target.toNat →
    (∀ j a, j < n → UnitLane s.mode (s.units.toNat + j) a → a < s.outLen.toNat) →
    ∃ (t : State) (c : Nat → Byte), brefWith (some f) s = .next t ∧
      t = { s with ip := t.ip, ctl := s.ctl >>> 1, cnt := t.cnt, units := t.units, wp := t.wp,
                   out := t.out, win := t.win } ∧
      t.ip.toNat = s.ip.toNat + k ∧ t.cnt.val + 1 = s.cnt.val ∧ t.units.toNat = s.units.toNat + n ∧
      t.wp.toNat = (s.wp.toNat + n) % 4096 ∧
      (∀ j, j < n → c j =
        if j < copyDistance s.wp pos then winGet (pos.toNat + j) s else c (j - copyDistance s.wp pos)) ∧
      (∀ j a, j < n → UnitLane s.mode (s.units.toNat + j) a → Mem.read .out t.out a = some (c j)) ∧
      (∀ a, (∀ j, j < n → ¬ UnitLane s.mode (s.units.toNat + j) a) →
        Mem.read .out t.out a = Mem.read .out s.out a) ∧
      (∀ j, j < n → n ≤ j + 4096 → winGet (s.wp.toNat + j) t = c j) ∧
      (∀ p, (∀ j, j < n → p % 4096 ≠ (s.wp.toNat + j) % 4096) → winGet p t = winGet p s)

/-- 42_tokenstream.md R116: END looks at no byte and no control bit; it has priority over every item fetch. -/
def Obligations.EndOfPhase : Prop :=
  ∀ s : State, s.seq = .run → s.units = s.target →
    exec .endPhase s = .next { s with seq := if s.mode = .v3rgb then .alen else .done } ∧
    (HostQuiet s → step s =
      .next { s with seq := if s.mode = .v3rgb then .alen else .done, host := s.host.tail })

/-! ### Pixels -/

/-- 44_v2_predictor.md R136: the neighbour load. The first pixel has no neighbour; row 0 takes the pixel to the left, every
other row the pixel above. -/
def Obligations.NeighbourLoad : Prop :=
  ∀ s : State,
    let u := s.units.toNat
    let w := s.hdr.hwidth.toInt
    let stride := if s.mode = .v2 then 3 else 4
    (u = 0 → ∃ t, loadNeighbour s = .next t ∧ t.nbrv = false ∧
      t = { s with nbrv := false, nbr := t.nbr, free := t.free }) ∧
    ∀ (v : Nat) (b0 b1 b2 : Byte), u ≠ 0 →
      (v : Int) = (if (u : Int) < w then (u : Int) - 1 else (u : Int) - w) →
      stride * v + 2 < s.outLen.toNat →
      Mem.read .out s.out (stride * v) = some b0 → Mem.read .out s.out (stride * v + 1) = some b1 →
      Mem.read .out s.out (stride * v + 2) = some b2 →
      ∃ t, loadNeighbour s = .next t ∧ t.nbrv = true ∧
        t.nbr.toNat = b0.toNat + 256 * b1.toNat + 65536 * b2.toNat ∧
        t = { s with nbrv := true, nbr := t.nbr, free := t.free }

/-- 44_v2_predictor.md section 3: PIX.RAW writes the three bytes of the pixel to OUT and to the window, loads the neighbour
first, advances IP by 4 and counts one unit; everything else is unchanged. -/
def Obligations.PixRawDeliversPixel : Prop :=
  ∀ (p0 p1 p2 : Byte) (s : State), s.seq = .run → s.mode.control = false →
    s.units.toNat < s.target.toNat → s.ip.toNat + 4 ≤ s.limit.toNat → s.limit.toNat ≤ s.inLen.toNat →
    0 < s.hdr.hwidth.toInt →
    let base := (if s.mode = .v2 then 3 else 4) * s.units.toNat
    base + 2 < s.outLen.toNat →
    ∃ s1 t, loadNeighbour s = .next s1 ∧ exec (.pixRaw p0 p1 p2) s = .next t ∧
      t = { s with ip := t.ip, units := t.units, wp := t.wp, out := t.out, win := t.win,
                   nbr := s1.nbr, nbrv := s1.nbrv, free := s1.free } ∧
      t.ip.toNat = s.ip.toNat + 4 ∧ t.units.toNat = s.units.toNat + 1 ∧
      t.wp.toNat = (s.wp.toNat + 3) % 4096 ∧
      (∀ a, Mem.read .out t.out a =
        if a = base then some p0 else if a = base + 1 then some p1 else if a = base + 2 then some p2
        else Mem.read .out s.out a) ∧
      (∀ p, winGet p t =
        if p % 4096 = s.wp.toNat then p0 else if p % 4096 = (s.wp.toNat + 1) % 4096 then p1
        else if p % 4096 = (s.wp.toNat + 2) % 4096 then p2 else winGet p s)

/-- 44_v2_predictor.md section 4, 60_exceptions.md R184: with DELTA at its default `none` (the spec's OPEN parameter, D6) a
non-zero tag traps ReservedTag with the tag in EINFO, even where it is the last byte before LIMIT. -/
def Obligations.PixDeltaTrapsReservedTag : Prop :=
  ∀ (tag : Byte) (s : State), s.seq = .run → s.mode.control = false →
    s.units.toNat < s.target.toNat → tag ≠ 0 → s.ip.toNat < s.limit.toNat →
    s.limit.toNat ≤ s.inLen.toNat →
    exec (.pixDelta tag) s = .next { s with eip := s.ip, einfo := tag, err := .reservedTag, seq := .fault }

/-- 44_v2_predictor.md section 4: what a supplied DELTA makes of a pixel. It sees the neighbour only where NBRV = 1
(93_implementation_defined.md U14). -/
def Obligations.PixDeltaSuppliedPixel : Prop :=
  ∀ (f : DeltaFn) (tag : Byte) (s s1 : State), s.seq = .run → s.mode.control = false →
    s.units.toNat < s.target.toNat → tag ≠ 0 → s.ip.toNat < s.limit.toNat →
    s.limit.toNat ≤ s.inLen.toNat → loadNeighbour s = .next s1 →
    let r := f tag (streamBytes s) s.ip s.limit (if s1.nbrv then some s1.nbr else none)
    let base := (if s.mode = .v2 then 3 else 4) * s.units.toNat
    (r = .truncated → deltaWith (some f) tag s =
      .next { s with eip := s.ip, einfo := 0, err := .truncatedStream, seq := .fault }) ∧
    (r = .refuse → deltaWith (some f) tag s =
      .next { s with eip := s.ip, einfo := tag, err := .reservedTag, seq := .fault }) ∧
    (∀ k q0 q1 q2, r = .pixel k q0 q1 q2 → s.limit.toNat < s.ip.toNat + k → deltaWith (some f) tag s =
      .next { s with eip := s.ip, einfo := 0, err := .truncatedStream, seq := .fault }) ∧
    (∀ k q0 q1 q2, r = .pixel k q0 q1 q2 → s.ip.toNat + k ≤ s.limit.toNat →
      base + 2 < s.outLen.toNat → ∃ t, deltaWith (some f) tag s = .next t ∧
      t = { s with ip := t.ip, units := t.units, wp := t.wp, out := t.out, win := t.win,
                   nbr := s1.nbr, nbrv := s1.nbrv, free := s1.free } ∧
      t.ip.toNat = s.ip.toNat + k ∧ t.units.toNat = s.units.toNat + 1 ∧
      t.wp.toNat = (s.wp.toNat + 3) % 4096 ∧
      (∀ a, Mem.read .out t.out a =
        if a = base then some q0 else if a = base + 1 then some q1 else if a = base + 2 then some q2
        else Mem.read .out s.out a) ∧
      (∀ p, winGet p t =
        if p % 4096 = s.wp.toNat then q0 else if p % 4096 = (s.wp.toNat + 1) % 4096 then q1
        else if p % 4096 = (s.wp.toNat + 2) % 4096 then q2 else winGet p s))

/-! ### Plane compositor -/

/-- 45_v3_composite.md R150: ALEN reads the alpha length, clips LIMIT and opens the alpha phase with a fresh window, or traps
TruncatedStream. The premise on HWIDTH * HHEIGHT is what HCHK established (10_state.md R22). -/
def Obligations.AlenOpensAlphaPlane : Prop :=
  ∀ (n : Word) (s : State), s.seq = .alen →
    (s.limit.toNat < s.ip.toNat + 4 → exec (.alen n) s =
      .next { s with eip := s.ip, einfo := 0, err := .truncatedStream, seq := .fault }) ∧
    (s.ip.toNat + 4 ≤ s.limit.toNat → s.limit.toNat ≤ s.inLen.toNat →
      0 ≤ s.hdr.hwidth.toInt * s.hdr.hheight.toInt →
      s.hdr.hwidth.toInt * s.hdr.hheight.toInt < 4294967296 → ∃ t,
      exec (.alen n) s = .next t ∧
      t = { s with ip := t.ip, limit := t.limit, mode := .v3a, target := t.target, units := 0,
                   win := t.win, wp := t.wp, ctl := 0, cnt := 0, seq := .run } ∧
      t.ip.toNat = s.ip.toNat + 4 ∧
      (t.limit.toNat : Int) = min (s.limit.toNat : Int) ((s.ip.toNat : Int) + 4 + max n.toInt 0) ∧
      (t.target.toNat : Int) = s.hdr.hwidth.toInt * s.hdr.hheight.toInt ∧
      (∀ p, p < 4096 → winGet p t = seed p) ∧ t.wp.toNat = 4078)

/-! ### Faults -/

/-- 60_exceptions.md section 1: a fetch that passes LIMIT traps TruncatedStream in every pixel form: no byte for the tag, or
a tag 0 with fewer than four bytes. -/
def Obligations.PixelTruncationTraps : Prop :=
  ∀ (s : State), s.seq = .run → s.mode.control = false → s.units.toNat < s.target.toNat →
    (∀ p0 p1 p2, s.limit.toNat < s.ip.toNat + 4 → exec (.pixRaw p0 p1 p2) s =
      .next { s with eip := s.ip, einfo := 0, err := .truncatedStream, seq := .fault }) ∧
    (∀ tag, tag ≠ 0 → s.limit.toNat ≤ s.ip.toNat → exec (.pixDelta tag) s =
      .next { s with eip := s.ip, einfo := 0, err := .truncatedStream, seq := .fault })

/-- 60_exceptions.md R186 (with R185): whatever the instruction, a step that enters FAULT writes EIP, EINFO, ERR and STATE and
nothing else. -/
def Obligations.TrapEntryIsPrecise : Prop :=
  ∀ (i : Instr) (s t : State), exec i s = .next t → s.seq ≠ .fault → t.seq = .fault →
    t = { s with eip := s.ip, einfo := t.einfo, err := t.err, seq := .fault } ∧
    ((t.err = .reservedTag ∧ i = .pixDelta t.einfo) ∨ (t.err ≠ .reservedTag ∧ t.einfo = 0))

/-- 60_exceptions.md section 1 (the table of R180): which instruction raises which fault. -/
def Obligations.FaultCauses : Prop :=
  ∀ (i : Instr) (s t : State), exec i s = .next t → s.seq ≠ .fault → t.seq = .fault →
    match t.err with
    | .none            => False
    | .invalidHeader   => i = .hchk ∨ ∃ h, i = .hload h
    | .sizeMismatch    => i = .hchk
    | .truncatedStream => (∃ k, i = .ctl k) ∨ (∃ d, i = .lit d) ∨ (∃ p0 p1 p2, i = .pixRaw p0 p1 p2) ∨
                            (∃ g, i = .pixDelta g) ∨ ∃ n, i = .alen n
    | .ioFailure       => False
    | .reservedToken   => i = .bref
    | .reservedTag     => ∃ g, i = .pixDelta g

/-- 60_exceptions.md R183: no rule of the block sets ERR to IOFailure. -/
def Obligations.IoFailureNeverRaised : Prop :=
  ∀ (i : Instr) (s t : State), exec i s = .next t → t.err = .ioFailure → s.err = .ioFailure

/-- 10_state.md section 2 (R14), 60_exceptions.md R188: a recorded fault is cleared by START and reset only. -/
def Obligations.FaultPersists : Prop :=
  ∀ s t : State, step s = .next t → s.seq = .fault → hostMove s ≠ .start → hostMove s ≠ .reset →
    t.seq = .fault ∧ t.err = s.err ∧ t.eip = s.eip ∧ t.einfo = s.einfo

/-! ### The step -/

/-- When the bytes of the selected row decode to an instruction, the step is `exec` of it on the state whose host move has
been taken; the step adds nothing else. -/
def Obligations.StepRunsDecoded : Prop :=
  ∀ (s : State) (r : Row) (i : Instr) (rest : List Byte),
    ((hostMove s).writes && s.seq.busy) = false →
    select (hostMove s) (popHost s) = .row r →
    decode r (itemBytes r (popHost s)) = .ok (i, rest) →
    step s = exec i { s with host := s.host.tail }

/-- 40_header_wrapper.md R80: the selection table, row by row; the operands are the bytes of IN at IP where LIMIT and IN_LEN
leave them. -/
def Obligations.StepSelectionTable : Prop :=
  ∀ s : State,
    let s' := { s with host := s.host.tail }
    (hostMove s = .reset → step s = exec .reset s') ∧
    (s.seq.busy = false → hostMove s = .start → step s = exec .start s') ∧
    (s.seq.busy = false → hostMove s = .idle → step s = .next s') ∧
    (HostQuiet s →
      (s.seq = .hload → ∃ h, step s = exec (.hload h) s') ∧
      (s.seq = .hchk → step s = exec .hchk s') ∧
      (s.seq = .run → s.units = s.target → step s = exec .endPhase s') ∧
      (s.seq = .run → s.units ≠ s.target → s.mode.control = true → s.cnt = 0 →
        ∃ k, step s = exec (.ctl k) s' ∧
          (s.ip.toNat < s.limit.toNat → s.limit.toNat ≤ s.inLen.toNat → k = inByte s s.ip.toNat)) ∧
      (s.seq = .run → s.units ≠ s.target → s.mode.control = true → s.cnt ≠ 0 → s.ctl.getLsbD 0 = true →
        ∃ d, step s = exec (.lit d) s' ∧
          (s.ip.toNat < s.limit.toNat → s.limit.toNat ≤ s.inLen.toNat → d = inByte s s.ip.toNat)) ∧
      (s.seq = .run → s.units ≠ s.target → s.mode.control = true → s.cnt ≠ 0 → s.ctl.getLsbD 0 = false →
        step s = exec .bref s') ∧
      (s.seq = .run → s.units ≠ s.target → s.mode.control = false →
        ∃ i : Instr, i.WellFormed ∧ i.row = .pix ∧ step s = exec i s') ∧
      (s.seq = .run → s.units ≠ s.target → s.mode.control = false → s.ip.toNat + 4 ≤ s.limit.toNat →
        s.limit.toNat ≤ s.inLen.toNat → inByte s s.ip.toNat = 0 →
        step s = exec (.pixRaw (inByte s (s.ip.toNat + 1)) (inByte s (s.ip.toNat + 2))
          (inByte s (s.ip.toNat + 3))) s') ∧
      (s.seq = .run → s.units ≠ s.target → s.mode.control = false → s.ip.toNat < s.limit.toNat →
        s.limit.toNat ≤ s.inLen.toNat → inByte s s.ip.toNat ≠ 0 →
        step s = exec (.pixDelta (inByte s s.ip.toNat)) s') ∧
      (s.seq = .alen → ∃ n : Word, step s = exec (.alen n) s' ∧
        (s.ip.toNat + 4 ≤ s.limit.toNat → s.limit.toNat ≤ s.inLen.toNat →
          n.toNat = inField s s.ip.toNat)))

/-- 70_reset_and_hazards.md section 2 (R204): what the host's writes do between runs. The list of host moves is the model's
(log 1), and so is what a write at or beyond IN_LEN does (log 27). -/
def Obligations.HostWritesBetweenRuns : Prop :=
  ∀ (s : State) (hs : List HostMove), s.seq.busy = false →
    (∀ a b, s.host = .writeIn a b :: hs → ∃ t, step s = .next t ∧
      t = { s with inp := t.inp, host := hs } ∧
      ∀ x, Mem.read .inp t.inp x = if x = a.toNat then some b else Mem.read .inp s.inp x) ∧
    (∀ n, s.host = .writeLen n :: hs → step s = .next { s with inLen := n, host := hs })

/-- 70_reset_and_hazards.md section 3 (R206), 93_implementation_defined.md U12: the model gives the host no write to IN or
IN_LEN while the block is busy; such a move stops the model by name (log 16). -/
def Obligations.HostWriteWhileBusyRefused : Prop :=
  ∀ s : State, s.seq.busy = true → (hostMove s).writes = true → step s = .refused .hostWriteBusy

/-! ### Whole-machine rules -/

/-- The invariant holds right after reset. -/
def Obligations.InvAtReset : Prop := Inv State.reset

/-- Every step keeps the invariant (10_state.md, 20_memory.md, 40_header_wrapper.md R83, 44_v2_predictor.md R137). -/
def Obligations.InvKeptByStep : Prop :=
  ∀ s t : State, Inv s → step s = .next t → Inv t

/-- In a state of the invariant every step completes, unless the host writes IN or IN_LEN while the block is busy: no
machine fault, no refusal (20_memory.md R42, R48; 40_header_wrapper.md section 1). -/
def Obligations.StepCompletes : Prop :=
  ∀ s : State, Inv s → ((hostMove s).writes && s.seq.busy) = false → ∃ t, step s = .next t

/-- 10_state.md R26: no instruction writes IN or IN_LEN, and no step changes them while the block is busy. -/
def Obligations.BlockNeverWritesIn : Prop :=
  (∀ (i : Instr) (s t : State), exec i s = .next t → t.inp = s.inp ∧ t.inLen = s.inLen) ∧
  ∀ s t : State, s.seq.busy = true → step s = .next t → t.inp = s.inp ∧ t.inLen = s.inLen

/-- 10_state.md section 3 (R16): only HLOAD and RESET change the header registers. -/
def Obligations.HeaderWrittenByHloadOnly : Prop :=
  ∀ (i : Instr) (s t : State), exec i s = .next t → t.hdr ≠ s.hdr →
    i = .reset ∨ (∃ h, i = .hload h ∧ s.seq = .hload ∧ t.hdr = h)

/-- 10_state.md section 4 (R19): inside a run IP grows by the bytes of the item and never passes LIMIT. -/
def Obligations.InputPointerAdvances : Prop :=
  ∀ s t : State, Inv s → HostQuiet s → s.seq = .run ∨ s.seq = .alen → step s = .next t → t.seq ≠ .fault →
    t.ip.toNat ≤ s.limit.toNat ∧
    ((s.seq = .run ∧ s.units = s.target ∧ t.ip = s.ip) ∨
     (s.seq = .run ∧ s.units ≠ s.target ∧ s.mode.control = true ∧ t.ip.toNat = s.ip.toNat + 1) ∨
     (s.seq = .run ∧ s.units ≠ s.target ∧ s.mode.control = false ∧ t.ip.toNat = s.ip.toNat + 4) ∨
     (s.seq = .alen ∧ t.ip.toNat = s.ip.toNat + 4))

/-- 10_state.md section 6 (R25), 20_memory.md R47: at every step of a run the written bytes of OUT are exactly those of the
units produced. -/
def Obligations.OutTracksUnitsKept : Prop :=
  ∀ s t : State, Inv s → OutTracksUnits s → step s = .next t → OutTracksUnits t

/-- 10_state.md section 6 (R25): no step of a phase changes a byte of OUT that is already written. -/
def Obligations.OutByteWrittenOnce : Prop :=
  ∀ (s t : State) (a : Nat) (v : Byte), Inv s → OutTracksUnits s → HostQuiet s → step s = .next t →
    s.seq = .run ∨ s.seq = .alen → Mem.read .out s.out a = some v → Mem.read .out t.out a = some v

/-- 40_header_wrapper.md section 5 (R88), 60_exceptions.md R190: in DONE every byte of OUT is written, and every host read gives the
written byte. -/
def Obligations.DoneMeansBufferComplete : Prop :=
  ∀ s : State, Inv s → OutTracksUnits s → s.seq = .done →
    ∀ read a, a < s.outLen.toNat → Mem.read .out s.out a = some (hostOut read s a)

/-- 42_tokenstream.md R119: the state relation inside a control-byte phase, kept by every step. -/
def Obligations.TokenRelationKept : Prop :=
  ∀ s t : State, Inv s → TokenPhase s → PixelPhase s → step s = .next t → TokenPhase t

/-- 44_v2_predictor.md section 5 (R139): after `u` raw pixels IP = 32 + 4u and WP = (4078 + 3u) mod 4096. -/
def Obligations.PixelRelationKept : Prop :=
  ∀ s t : State, Inv s → PixelPhase s → step s = .next t → PixelPhase t

/-- 43_v1_expander.md R132: the three lanes of every sample are equal, through every step to DONE. -/
def Obligations.LaneLaw : Prop :=
  ∀ s t : State, Inv s → LanesEqual s → step s = .next t → LanesEqual t

/-- 40_header_wrapper.md section 5 (R87): every step inside a run faults or brings the end nearer by one. -/
def Obligations.StepsLeftDecrease : Prop :=
  ∀ s t : State, Inv s → HostQuiet s → s.seq = .run ∨ s.seq = .alen → step s = .next t →
    t.seq = .fault ∨ stepsLeft t + 1 = stepsLeft s

/-- 40_header_wrapper.md R87: every run ends within the bound, HUNPACKED being the field of IN at 28. -/
def Obligations.EveryRunTerminates : Prop :=
  ∀ s : State, Inv s → s.seq.busy = false → s.host = [.start] →
    ∃ (n : Nat) (t : State), 1 ≤ n ∧
      n ≤ runBound (wordOfBytes (inByte s 28) (inByte s 29) (inByte s 30) (inByte s 31)).toInt ∧
      Host.Core.run Sys2Proof.core n s = .next t ∧ t.seq.ended = true

/-- 10_state.md section 7 (R29), 70_reset_and_hazards.md R202: the state in which decoding starts owes nothing to earlier
runs. -/
def Obligations.RunStartsFresh : Prop :=
  ∀ s s' t t' : State, s.seq.busy = false → t.seq.busy = false →
    t.inp = s.inp → t.inLen = s.inLen → t.host = s.host → hostMove s = .start →
    Host.Core.run Sys2Proof.core 3 s = .next s' → Host.Core.run Sys2Proof.core 3 t = .next t' →
    s'.seq = .run → SameRun s' t'

/-- 40_header_wrapper.md section 5 (R86): states that differ only in what the spec gives no value take the same steps. -/
def Obligations.UnspecifiedValuesDoNotMatter : Prop :=
  ∀ s s' t : State, Inv s → OutTracksUnits s → SameRun s t → HostQuiet s → step s = .next s' →
    ∃ t', step t = .next t' ∧ SameRun s' t'

/-! ### Host port -/

/-- 10_state.md R30: the register numbers of the host's status port; no number above 23 exists. -/
def Obligations.HostRegisterNumbers : Prop :=
  ∀ s : State,
    (List.range 24).map (hostRegister s) =
      [some s.hdr.htype, some s.hdr.hsent, some s.hdr.hoffx, some s.hdr.hoffy, some s.hdr.hwidth,
       some s.hdr.hheight, some s.hdr.hpacked, some s.hdr.hunpacked, some (s.seq.code.setWidth 32),
       some (s.mode.code.setWidth 32), some (s.err.code.setWidth 32), some s.eip,
       some (s.einfo.setWidth 32), some s.ip, some s.limit, some (s.ctl.setWidth 32),
       some (BitVec.ofNat 32 s.cnt.val), some s.units, some s.target, some (s.wp.setWidth 32),
       some (s.nbr.setWidth 32), some (if s.nbrv then 1 else 0), some s.outLen, some s.inLen] ∧
    ∀ n, 24 ≤ n → hostRegister s n = none

/-! ### Reference encoder -/

/-- 46_reference_encoder.md R161: `enc_v0` puts the control byte `0xFF` before every group of eight bytes, a short last
group too, and the bytes after it in order. -/
def Obligations.EncV0Layout : Prop :=
  ∀ bytes : List Byte,
    (encV0 bytes).length = bytes.length + (bytes.length + 7) / 8 ∧
    (∀ g, 8 * g < bytes.length → (encV0 bytes)[9 * g]? = some 0xFF#8) ∧
    ∀ j, j < bytes.length → (encV0 bytes)[j + j / 8 + 1]? = bytes[j]?

/-- 46_reference_encoder.md R166 (a): a type 0 container decodes to its buffer and is consumed to its end. The premise that
the payload length fits the signed field is needed for the rule's own `LIMIT = IN_LEN`. -/
def Obligations.RoundTripType0 : Prop :=
  ∀ (offx offy : Word) (w h : Nat) (buf : List Byte), 1 ≤ w → 1 ≤ h → w * h * 3 ≤ 2147483647 →
    buf.length = w * h * 3 → (encPayload 0 buf).length ≤ 2147483647 →
    ∃ (n : Nat) (t : State), Host.Core.run Sys2Proof.core n (loadImage (pt1 0 offx offy w h buf)) = .next t ∧
      t.seq = .done ∧ (∀ read, hostBuffer read t = buf) ∧ t.ip = t.inLen

/-- 46_reference_encoder.md R166 (b): a type 1 container decodes to its samples, each in three lanes. -/
def Obligations.RoundTripType1 : Prop :=
  ∀ (offx offy : Word) (w h : Nat) (buf : List Byte), 1 ≤ w → 1 ≤ h → w * h * 3 ≤ 2147483647 →
    buf.length = w * h * 3 →
    ∃ (n : Nat) (t : State), Host.Core.run Sys2Proof.core n (loadImage (pt1 1 offx offy w h buf)) = .next t ∧
      t.seq = .done ∧ (∀ read, hostBuffer read t = (samples buf).flatMap (fun b => [b, b, b])) ∧ t.ip = t.inLen

/-- 46_reference_encoder.md R166 (c): a type 2 container decodes to its buffer. -/
def Obligations.RoundTripType2 : Prop :=
  ∀ (offx offy : Word) (w h : Nat) (buf : List Byte), 1 ≤ w → 1 ≤ h → w * h * 3 ≤ 2147483647 →
    buf.length = w * h * 3 → (encPayload 2 buf).length ≤ 2147483647 →
    ∃ (n : Nat) (t : State), Host.Core.run Sys2Proof.core n (loadImage (pt1 2 offx offy w h buf)) = .next t ∧
      t.seq = .done ∧ (∀ read, hostBuffer read t = buf) ∧ t.ip = t.inLen

/-- 46_reference_encoder.md R166 (d): a type 3 container decodes to its interleaved buffer. -/
def Obligations.RoundTripType3 : Prop :=
  ∀ (offx offy : Word) (w h : Nat) (buf : List Byte), 1 ≤ w → 1 ≤ h → w * h * 4 ≤ 2147483647 →
    buf.length = w * h * 4 → (encPayload 3 buf).length ≤ 2147483647 →
    ∃ (n : Nat) (t : State), Host.Core.run Sys2Proof.core n (loadImage (pt1 3 offx offy w h buf)) = .next t ∧
      t.seq = .done ∧ (∀ read, hostBuffer read t = buf) ∧ t.ip = t.inLen

/-! ### OPEN parameters -/

/-- 00_scope.md R7, 92_eei_decisions.md (OPEN parameters): BACKREF and DELTA are arguments of the machine. Under any
parameters a step runs the decoded instruction with BREF and PIX.DELTA reading them and every other instruction as `exec`
has it, and at the default the step is `step`. That the default stands in `exec` is the model's form (log 11). -/
def Obligations.StepRunsDecodedUnderParameters : Prop :=
  ∀ p : Params,
    (∀ (s : State) (r : Row) (i : Instr) (rest : List Byte),
      ((hostMove s).writes && s.seq.busy) = false →
      select (hostMove s) (popHost s) = .row r →
      decode r (itemBytes r (popHost s)) = .ok (i, rest) →
      stepWith p s = execWith p i { s with host := s.host.tail }) ∧
    (∀ s, execWith p .bref s = brefWith p.backref s) ∧
    (∀ tag s, execWith p (.pixDelta tag) s = deltaWith p.delta tag s) ∧
    (∀ i s, i ≠ .bref → (∀ tag, i ≠ .pixDelta tag) → execWith p i s = exec i s) ∧
    ∀ s, stepWith { backref := none, delta := none } s = step s

/-- Every step keeps the invariant whatever layouts are supplied for the reserved items (00_scope.md R7; 10_state.md,
20_memory.md, 42_tokenstream.md section 4, 44_v2_predictor.md section 4). -/
def Obligations.InvKeptUnderParameters : Prop :=
  ∀ (p : Params) (s t : State), Inv s → stepWith p s = .next t → Inv t

/-- 10_state.md section 6 (R25), 20_memory.md R47, whatever layouts are supplied: the written bytes of OUT are exactly those
of the units produced, copied and predicted ones included. -/
def Obligations.OutTracksUnitsUnderParameters : Prop :=
  ∀ (p : Params) (s t : State), Inv s → OutTracksUnits s → stepWith p s = .next t → OutTracksUnits t

/-- In a state of the invariant every step completes whatever layouts are supplied, unless the host writes IN or IN_LEN
while the block is busy (00_scope.md R7; 20_memory.md R42, R48). -/
def Obligations.StepCompletesUnderParameters : Prop :=
  ∀ (p : Params) (s : State), Inv s → ((hostMove s).writes && s.seq.busy) = false →
    ∃ t, stepWith p s = .next t
end

