-- ==== Sys2Proof/Laws/Memory.lean ====
section
/-!
SUPPORT. The laws of the memories: a read after a write, and that every memory operation keeps the canonical form.
-/

namespace Sys2Proof.Machine

@[simp] theorem Space.blank_win (a : Nat) : Space.win.blank a = some (seed a) := rfl
@[simp] theorem Space.blank_out (a : Nat) : Space.out.blank a = none := rfl
@[simp] theorem Space.blank_inp (a : Nat) : Space.inp.blank a = none := rfl

@[simp] theorem Mem.read_nil (sp : Space) (a : Nat) : Mem.read sp [] a = sp.blank a := rfl

theorem Mem.read_insert (sp : Space) (m : Mem) (a b : Nat) (v : Byte) :
    Mem.read sp (Mem.insert a v m) b = if b = a then some v else Mem.read sp m b := by
  induction m with
  | nil =>
    by_cases hab : a = b
    · subst hab; simp [Mem.insert, Mem.read]
    · simp [Mem.insert, Mem.read, hab, Ne.symm hab]
  | cons c m ih =>
    obtain ⟨x, w⟩ := c
    rw [Mem.insert]
    by_cases hab : a = b
    · subst hab
      rw [if_pos rfl] at ih ⊢
      split_ifs with h1 h2 <;> simp [Mem.read, *]
    · rw [if_neg (Ne.symm hab)] at ih ⊢
      split_ifs with h1 h2
      · simp [Mem.read, hab]
      · simp [Mem.read, hab, h2]
      · simp [Mem.read, ih]

theorem Mem.read_erase (sp : Space) (m : Mem) (a b : Nat) :
    Mem.read sp (Mem.erase a m) b = if b = a then sp.blank b else Mem.read sp m b := by
  induction m with
  | nil => simp [Mem.erase]
  | cons c m ih =>
    obtain ⟨x, w⟩ := c
    by_cases h1 : x = a
    · rw [Mem.erase, if_pos h1, ih, Mem.read]
      split_ifs <;> simp_all
    · rw [Mem.erase, if_neg h1, Mem.read, Mem.read, ih]
      split_ifs <;> simp_all

/-- A read after a write: the byte written at its address, the old content elsewhere. -/
theorem Mem.read_write (sp : Space) (m : Mem) (a b : Nat) (v : Byte) :
    Mem.read sp (Mem.write sp m a v) b = if b = a then some v else Mem.read sp m b := by
  by_cases h1 : sp.blank a = some v
  · rw [Mem.write, if_pos h1, Mem.read_erase]
    split_ifs with h2
    · rw [h2, h1]
    · rfl
  · rw [Mem.write, if_neg h1, Mem.read_insert]

@[simp] theorem Mem.read_write_same (sp : Space) (m : Mem) (a : Nat) (v : Byte) :
    Mem.read sp (Mem.write sp m a v) a = some v := by simp [Mem.read_write]

theorem Mem.read_write_other (sp : Space) (m : Mem) {a b : Nat} (v : Byte) (h : b ≠ a) :
    Mem.read sp (Mem.write sp m a v) b = Mem.read sp m b := by simp [Mem.read_write, h]

/-- A byte of WIN always has a value. -/
theorem Mem.read_win_isSome (m : Mem) (a : Nat) : (Mem.read .win m a).isSome = true := by
  induction m with
  | nil => rfl
  | cons c m ih => obtain ⟨x, w⟩ := c; simp only [Mem.read]; split_ifs <;> simp_all

/-- Several writes leave every address alone that none of them names. -/
theorem Mem.read_writeAll_other (sp : Space) (cs : List Host.Cell) (m : Mem) (b : Nat)
    (h : ∀ c ∈ cs, c.1 ≠ b) : Mem.read sp (Mem.writeAll sp m cs) b = Mem.read sp m b := by
  induction cs generalizing m with
  | nil => rfl
  | cons c cs ih =>
    obtain ⟨a, v⟩ := c
    have hne : a ≠ b := h (a, v) (by simp)
    rw [Mem.writeAll, ih _ (fun c hc => h c (by simp [hc])), Mem.read_write_other _ _ _ hne.symm]

/-- The canonical form from a lower bound, as a proposition. -/
theorem Mem.wfFrom_cons (sp : Space) (lo a : Nat) (v : Byte) (m : Mem) :
    Mem.wfFrom sp lo ((a, v) :: m) = true ↔
      lo ≤ a ∧ a < sp.size ∧ sp.blank a ≠ some v ∧ Mem.wfFrom sp (a + 1) m = true := by
  simp [Mem.wfFrom, and_assoc]

theorem Mem.wfFrom_mono (sp : Space) {lo lo' : Nat} (m : Mem) (h : lo' ≤ lo)
    (hm : Mem.wfFrom sp lo m = true) : Mem.wfFrom sp lo' m = true := by
  cases m with
  | nil => rfl
  | cons c m =>
    obtain ⟨a, v⟩ := c
    rw [Mem.wfFrom_cons] at hm ⊢
    exact ⟨h.trans hm.1, hm.2⟩

theorem Mem.wfFrom_insert (sp : Space) (m : Mem) (lo a : Nat) (v : Byte) (hlo : lo ≤ a)
    (ha : a < sp.size) (hv : sp.blank a ≠ some v) (hm : Mem.wfFrom sp lo m = true) :
    Mem.wfFrom sp lo (Mem.insert a v m) = true := by
  induction m generalizing lo with
  | nil => simp [Mem.insert, Mem.wfFrom, hlo, ha, hv]
  | cons c m ih =>
    obtain ⟨x, w⟩ := c
    rw [Mem.wfFrom_cons] at hm
    obtain ⟨h1, h2, h3, h4⟩ := hm
    simp only [Mem.insert]
    split_ifs with hlt heq
    · rw [Mem.wfFrom_cons, Mem.wfFrom_cons]
      exact ⟨hlo, ha, hv, by omega, h2, h3, h4⟩
    · subst heq
      rw [Mem.wfFrom_cons]
      exact ⟨hlo, ha, hv, h4⟩
    · rw [Mem.wfFrom_cons]
      exact ⟨h1, h2, h3, ih (x + 1) (by omega) h4⟩

theorem Mem.wfFrom_erase (sp : Space) (m : Mem) (lo a : Nat) (hm : Mem.wfFrom sp lo m = true) :
    Mem.wfFrom sp lo (Mem.erase a m) = true := by
  induction m generalizing lo with
  | nil => rfl
  | cons c m ih =>
    obtain ⟨x, w⟩ := c
    rw [Mem.wfFrom_cons] at hm
    obtain ⟨h1, h2, h3, h4⟩ := hm
    simp only [Mem.erase]
    split_ifs with heq
    · exact ih lo (Mem.wfFrom_mono sp m (by omega) h4)
    · rw [Mem.wfFrom_cons]
      exact ⟨h1, h2, h3, ih (x + 1) h4⟩

/-- A write keeps the canonical form. -/
theorem Mem.wf_write (sp : Space) (m : Mem) (a : Nat) (v : Byte) (ha : a < sp.size)
    (hm : Mem.wf sp m = true) : Mem.wf sp (Mem.write sp m a v) = true := by
  unfold Mem.wf Mem.write at *
  split_ifs with h
  · exact Mem.wfFrom_erase sp m 0 a hm
  · exact Mem.wfFrom_insert sp m 0 a v (Nat.zero_le a) ha h hm

/-- Several writes keep the canonical form. -/
theorem Mem.wf_writeAll (sp : Space) (cs : List Host.Cell) (m : Mem) (hc : ∀ c ∈ cs, c.1 < sp.size)
    (hm : Mem.wf sp m = true) : Mem.wf sp (Mem.writeAll sp m cs) = true := by
  induction cs generalizing m with
  | nil => exact hm
  | cons c cs ih =>
    obtain ⟨a, v⟩ := c
    exact ih _ (fun c h => hc c (by simp [h]))
      (Mem.wf_write sp m a v (hc (a, v) (by simp)) hm)

/-- Every cursor is an address of WIN. -/
theorem Cursor.lt_size (c : Cursor) : c.toNat < Space.win.size := by
  have h := c.isLt
  simpa [Space.size] using h

/-- Every 32-bit pattern is an address of IN and of OUT. -/
theorem Word.lt_size_inp (w : Word) : w.toNat < Space.inp.size := by
  have h := w.isLt
  simpa [Space.size] using h

theorem Word.lt_size_out (w : Word) : w.toNat < Space.out.size := by
  have h := w.isLt
  simpa [Space.size] using h

/-- A window write at a cursor keeps the canonical form. -/
theorem Mem.wf_write_win (m : Mem) (c : Cursor) (v : Byte) (hm : Mem.wf .win m = true) :
    Mem.wf .win (Mem.write .win m c.toNat v) = true :=
  Mem.wf_write .win m _ v (Cursor.lt_size c) hm

/-- OUT writes below OUT_LEN keep the canonical form. -/
theorem Mem.wf_writeAll_out (cs : List Host.Cell) (m : Mem) (n : Word) (hc : ∀ c ∈ cs, c.1 < n.toNat)
    (hm : Mem.wf .out m = true) : Mem.wf .out (Mem.writeAll .out m cs) = true :=
  Mem.wf_writeAll .out cs m (fun c h => (hc c h).trans (Word.lt_size_out n)) hm

theorem Mem.wfFrom_ofFn_range' (sp : Space) (f : Nat → Byte) (n lo : Nat) (h : lo + n ≤ sp.size) :
    Mem.wfFrom sp lo ((List.range' lo n).filterMap
      (fun a => if sp.blank a = some (f a) then none else some (a, f a))) = true := by
  induction n generalizing lo with
  | zero => rfl
  | succ n ih =>
    have hi := ih (lo + 1) (by omega)
    rw [List.range'_succ, List.filterMap_cons]
    split_ifs with hb
    · exact Mem.wfFrom_mono sp _ (Nat.le_succ lo) hi
    · rw [Mem.wfFrom_cons]
      exact ⟨le_refl _, by omega, hb, hi⟩

/-- A memory made of a function is in canonical form. -/
theorem Mem.wf_ofFn (sp : Space) (f : Nat → Byte) (n : Nat) (h : n ≤ sp.size) :
    Mem.wf sp (Mem.ofFn sp f n) = true := by
  unfold Mem.wf Mem.ofFn
  rw [List.range_eq_range']
  exact Mem.wfFrom_ofFn_range' sp f n 0 (by omega)

/-- The window of State.reset is in canonical form. -/
theorem Mem.wf_zeroWindow : Mem.wf .win zeroWindow = true := by
  unfold zeroWindow
  exact Mem.wf_ofFn .win _ 4096 (by simp [Space.size])

theorem Mem.read_ofFn_range' (sp : Space) (f : Nat → Byte) (n lo a : Nat) :
    Mem.read sp ((List.range' lo n).filterMap
      (fun a => if sp.blank a = some (f a) then none else some (a, f a))) a
      = if lo ≤ a ∧ a < lo + n then some (f a) else sp.blank a := by
  induction n generalizing lo with
  | zero =>
    have : ¬ (lo ≤ a ∧ a < lo + 0) := by omega
    rw [if_neg this]; rfl
  | succ n ih =>
    have hi := ih (lo + 1)
    rw [List.range'_succ, List.filterMap_cons]
    by_cases hla : lo = a
    · subst hla
      have hin : lo ≤ lo ∧ lo < lo + (n + 1) := by omega
      have hout : ¬ (lo + 1 ≤ lo ∧ lo < lo + 1 + n) := by omega
      rw [if_neg hout] at hi
      rw [if_pos hin]
      split_ifs with hb
      · exact hi.trans hb
      · simp [Mem.read]
    · have hiff : (lo ≤ a ∧ a < lo + (n + 1)) ↔ (lo + 1 ≤ a ∧ a < lo + 1 + n) := by omega
      split_ifs at hi ⊢ with hb <;> first
        | exact hi
        | (simp only [Mem.read, if_neg hla]; exact hi)
        | (exfalso; omega)

/-- A memory made of a function reads as that function below its length. -/
theorem Mem.read_ofFn (sp : Space) (f : Nat → Byte) (n a : Nat) :
    Mem.read sp (Mem.ofFn sp f n) a = if a < n then some (f a) else sp.blank a := by
  unfold Mem.ofFn
  rw [List.range_eq_range', Mem.read_ofFn_range']
  simp

end Sys2Proof.Machine
end

