-- ==== Sys2Proof/Laws/State.lean ====
section
/-!
SUPPORT. One lemma per field per named update of State, true by definition, so that no proof unfolds a record update.
-/

namespace Sys2Proof.Machine

@[simp] theorem trapState_seq (f : Err) (info : Byte) (s : State) :
    (trapState f info s).seq = .fault := rfl
@[simp] theorem trapState_mode (f : Err) (info : Byte) (s : State) :
    (trapState f info s).mode = s.mode := rfl
@[simp] theorem trapState_err (f : Err) (info : Byte) (s : State) :
    (trapState f info s).err = f := rfl
@[simp] theorem trapState_eip (f : Err) (info : Byte) (s : State) :
    (trapState f info s).eip = s.ip := rfl
@[simp] theorem trapState_einfo (f : Err) (info : Byte) (s : State) :
    (trapState f info s).einfo = info := rfl
@[simp] theorem trapState_hdr (f : Err) (info : Byte) (s : State) :
    (trapState f info s).hdr = s.hdr := rfl
@[simp] theorem trapState_ip (f : Err) (info : Byte) (s : State) :
    (trapState f info s).ip = s.ip := rfl
@[simp] theorem trapState_limit (f : Err) (info : Byte) (s : State) :
    (trapState f info s).limit = s.limit := rfl
@[simp] theorem trapState_ctl (f : Err) (info : Byte) (s : State) :
    (trapState f info s).ctl = s.ctl := rfl
@[simp] theorem trapState_cnt (f : Err) (info : Byte) (s : State) :
    (trapState f info s).cnt = s.cnt := rfl
@[simp] theorem trapState_units (f : Err) (info : Byte) (s : State) :
    (trapState f info s).units = s.units := rfl
@[simp] theorem trapState_target (f : Err) (info : Byte) (s : State) :
    (trapState f info s).target = s.target := rfl
@[simp] theorem trapState_win (f : Err) (info : Byte) (s : State) :
    (trapState f info s).win = s.win := rfl
@[simp] theorem trapState_wp (f : Err) (info : Byte) (s : State) :
    (trapState f info s).wp = s.wp := rfl
@[simp] theorem trapState_nbr (f : Err) (info : Byte) (s : State) :
    (trapState f info s).nbr = s.nbr := rfl
@[simp] theorem trapState_nbrv (f : Err) (info : Byte) (s : State) :
    (trapState f info s).nbrv = s.nbrv := rfl
@[simp] theorem trapState_out (f : Err) (info : Byte) (s : State) :
    (trapState f info s).out = s.out := rfl
@[simp] theorem trapState_outLen (f : Err) (info : Byte) (s : State) :
    (trapState f info s).outLen = s.outLen := rfl
@[simp] theorem trapState_inp (f : Err) (info : Byte) (s : State) :
    (trapState f info s).inp = s.inp := rfl
@[simp] theorem trapState_inLen (f : Err) (info : Byte) (s : State) :
    (trapState f info s).inLen = s.inLen := rfl
@[simp] theorem trapState_host (f : Err) (info : Byte) (s : State) :
    (trapState f info s).host = s.host := rfl
@[simp] theorem trapState_free (f : Err) (info : Byte) (s : State) :
    (trapState f info s).free = s.free := rfl

@[simp] theorem advance_seq (n : Nat) (s : State) :
    (advance n s).seq = s.seq := rfl
@[simp] theorem advance_mode (n : Nat) (s : State) :
    (advance n s).mode = s.mode := rfl
@[simp] theorem advance_err (n : Nat) (s : State) :
    (advance n s).err = s.err := rfl
@[simp] theorem advance_eip (n : Nat) (s : State) :
    (advance n s).eip = s.eip := rfl
@[simp] theorem advance_einfo (n : Nat) (s : State) :
    (advance n s).einfo = s.einfo := rfl
@[simp] theorem advance_hdr (n : Nat) (s : State) :
    (advance n s).hdr = s.hdr := rfl
@[simp] theorem advance_ip (n : Nat) (s : State) :
    (advance n s).ip = s.ip + BitVec.ofNat 32 n := rfl
@[simp] theorem advance_limit (n : Nat) (s : State) :
    (advance n s).limit = s.limit := rfl
@[simp] theorem advance_ctl (n : Nat) (s : State) :
    (advance n s).ctl = s.ctl := rfl
@[simp] theorem advance_cnt (n : Nat) (s : State) :
    (advance n s).cnt = s.cnt := rfl
@[simp] theorem advance_units (n : Nat) (s : State) :
    (advance n s).units = s.units := rfl
@[simp] theorem advance_target (n : Nat) (s : State) :
    (advance n s).target = s.target := rfl
@[simp] theorem advance_win (n : Nat) (s : State) :
    (advance n s).win = s.win := rfl
@[simp] theorem advance_wp (n : Nat) (s : State) :
    (advance n s).wp = s.wp := rfl
@[simp] theorem advance_nbr (n : Nat) (s : State) :
    (advance n s).nbr = s.nbr := rfl
@[simp] theorem advance_nbrv (n : Nat) (s : State) :
    (advance n s).nbrv = s.nbrv := rfl
@[simp] theorem advance_out (n : Nat) (s : State) :
    (advance n s).out = s.out := rfl
@[simp] theorem advance_outLen (n : Nat) (s : State) :
    (advance n s).outLen = s.outLen := rfl
@[simp] theorem advance_inp (n : Nat) (s : State) :
    (advance n s).inp = s.inp := rfl
@[simp] theorem advance_inLen (n : Nat) (s : State) :
    (advance n s).inLen = s.inLen := rfl
@[simp] theorem advance_host (n : Nat) (s : State) :
    (advance n s).host = s.host := rfl
@[simp] theorem advance_free (n : Nat) (s : State) :
    (advance n s).free = s.free := rfl

@[simp] theorem countUnit_seq (s : State) :
    (countUnit s).seq = s.seq := rfl
@[simp] theorem countUnit_mode (s : State) :
    (countUnit s).mode = s.mode := rfl
@[simp] theorem countUnit_err (s : State) :
    (countUnit s).err = s.err := rfl
@[simp] theorem countUnit_eip (s : State) :
    (countUnit s).eip = s.eip := rfl
@[simp] theorem countUnit_einfo (s : State) :
    (countUnit s).einfo = s.einfo := rfl
@[simp] theorem countUnit_hdr (s : State) :
    (countUnit s).hdr = s.hdr := rfl
@[simp] theorem countUnit_ip (s : State) :
    (countUnit s).ip = s.ip := rfl
@[simp] theorem countUnit_limit (s : State) :
    (countUnit s).limit = s.limit := rfl
@[simp] theorem countUnit_ctl (s : State) :
    (countUnit s).ctl = s.ctl := rfl
@[simp] theorem countUnit_cnt (s : State) :
    (countUnit s).cnt = s.cnt := rfl
@[simp] theorem countUnit_units (s : State) :
    (countUnit s).units = s.units + 1 := rfl
@[simp] theorem countUnit_target (s : State) :
    (countUnit s).target = s.target := rfl
@[simp] theorem countUnit_win (s : State) :
    (countUnit s).win = s.win := rfl
@[simp] theorem countUnit_wp (s : State) :
    (countUnit s).wp = s.wp := rfl
@[simp] theorem countUnit_nbr (s : State) :
    (countUnit s).nbr = s.nbr := rfl
@[simp] theorem countUnit_nbrv (s : State) :
    (countUnit s).nbrv = s.nbrv := rfl
@[simp] theorem countUnit_out (s : State) :
    (countUnit s).out = s.out := rfl
@[simp] theorem countUnit_outLen (s : State) :
    (countUnit s).outLen = s.outLen := rfl
@[simp] theorem countUnit_inp (s : State) :
    (countUnit s).inp = s.inp := rfl
@[simp] theorem countUnit_inLen (s : State) :
    (countUnit s).inLen = s.inLen := rfl
@[simp] theorem countUnit_host (s : State) :
    (countUnit s).host = s.host := rfl
@[simp] theorem countUnit_free (s : State) :
    (countUnit s).free = s.free := rfl

@[simp] theorem useControlBit_seq (s : State) :
    (useControlBit s).seq = s.seq := rfl
@[simp] theorem useControlBit_mode (s : State) :
    (useControlBit s).mode = s.mode := rfl
@[simp] theorem useControlBit_err (s : State) :
    (useControlBit s).err = s.err := rfl
@[simp] theorem useControlBit_eip (s : State) :
    (useControlBit s).eip = s.eip := rfl
@[simp] theorem useControlBit_einfo (s : State) :
    (useControlBit s).einfo = s.einfo := rfl
@[simp] theorem useControlBit_hdr (s : State) :
    (useControlBit s).hdr = s.hdr := rfl
@[simp] theorem useControlBit_ip (s : State) :
    (useControlBit s).ip = s.ip := rfl
@[simp] theorem useControlBit_limit (s : State) :
    (useControlBit s).limit = s.limit := rfl
@[simp] theorem useControlBit_ctl (s : State) :
    (useControlBit s).ctl = shiftControl s.ctl := rfl
@[simp] theorem useControlBit_cnt (s : State) :
    (useControlBit s).cnt = countDown s.cnt := rfl
@[simp] theorem useControlBit_units (s : State) :
    (useControlBit s).units = s.units := rfl
@[simp] theorem useControlBit_target (s : State) :
    (useControlBit s).target = s.target := rfl
@[simp] theorem useControlBit_win (s : State) :
    (useControlBit s).win = s.win := rfl
@[simp] theorem useControlBit_wp (s : State) :
    (useControlBit s).wp = s.wp := rfl
@[simp] theorem useControlBit_nbr (s : State) :
    (useControlBit s).nbr = s.nbr := rfl
@[simp] theorem useControlBit_nbrv (s : State) :
    (useControlBit s).nbrv = s.nbrv := rfl
@[simp] theorem useControlBit_out (s : State) :
    (useControlBit s).out = s.out := rfl
@[simp] theorem useControlBit_outLen (s : State) :
    (useControlBit s).outLen = s.outLen := rfl
@[simp] theorem useControlBit_inp (s : State) :
    (useControlBit s).inp = s.inp := rfl
@[simp] theorem useControlBit_inLen (s : State) :
    (useControlBit s).inLen = s.inLen := rfl
@[simp] theorem useControlBit_host (s : State) :
    (useControlBit s).host = s.host := rfl
@[simp] theorem useControlBit_free (s : State) :
    (useControlBit s).free = s.free := rfl

@[simp] theorem winPut_seq (b : Byte) (s : State) :
    (winPut b s).seq = s.seq := rfl
@[simp] theorem winPut_mode (b : Byte) (s : State) :
    (winPut b s).mode = s.mode := rfl
@[simp] theorem winPut_err (b : Byte) (s : State) :
    (winPut b s).err = s.err := rfl
@[simp] theorem winPut_eip (b : Byte) (s : State) :
    (winPut b s).eip = s.eip := rfl
@[simp] theorem winPut_einfo (b : Byte) (s : State) :
    (winPut b s).einfo = s.einfo := rfl
@[simp] theorem winPut_hdr (b : Byte) (s : State) :
    (winPut b s).hdr = s.hdr := rfl
@[simp] theorem winPut_ip (b : Byte) (s : State) :
    (winPut b s).ip = s.ip := rfl
@[simp] theorem winPut_limit (b : Byte) (s : State) :
    (winPut b s).limit = s.limit := rfl
@[simp] theorem winPut_ctl (b : Byte) (s : State) :
    (winPut b s).ctl = s.ctl := rfl
@[simp] theorem winPut_cnt (b : Byte) (s : State) :
    (winPut b s).cnt = s.cnt := rfl
@[simp] theorem winPut_units (b : Byte) (s : State) :
    (winPut b s).units = s.units := rfl
@[simp] theorem winPut_target (b : Byte) (s : State) :
    (winPut b s).target = s.target := rfl
@[simp] theorem winPut_win (b : Byte) (s : State) :
    (winPut b s).win = Mem.write .win s.win s.wp.toNat b := rfl
@[simp] theorem winPut_wp (b : Byte) (s : State) :
    (winPut b s).wp = s.wp + 1 := rfl
@[simp] theorem winPut_nbr (b : Byte) (s : State) :
    (winPut b s).nbr = s.nbr := rfl
@[simp] theorem winPut_nbrv (b : Byte) (s : State) :
    (winPut b s).nbrv = s.nbrv := rfl
@[simp] theorem winPut_out (b : Byte) (s : State) :
    (winPut b s).out = s.out := rfl
@[simp] theorem winPut_outLen (b : Byte) (s : State) :
    (winPut b s).outLen = s.outLen := rfl
@[simp] theorem winPut_inp (b : Byte) (s : State) :
    (winPut b s).inp = s.inp := rfl
@[simp] theorem winPut_inLen (b : Byte) (s : State) :
    (winPut b s).inLen = s.inLen := rfl
@[simp] theorem winPut_host (b : Byte) (s : State) :
    (winPut b s).host = s.host := rfl
@[simp] theorem winPut_free (b : Byte) (s : State) :
    (winPut b s).free = s.free := rfl

@[simp] theorem beginPhase_seq (m : Mode) (t : Int) (s : State) :
    (beginPhase m t s).seq = .run := rfl
@[simp] theorem beginPhase_mode (m : Mode) (t : Int) (s : State) :
    (beginPhase m t s).mode = m := rfl
@[simp] theorem beginPhase_err (m : Mode) (t : Int) (s : State) :
    (beginPhase m t s).err = s.err := rfl
@[simp] theorem beginPhase_eip (m : Mode) (t : Int) (s : State) :
    (beginPhase m t s).eip = s.eip := rfl
@[simp] theorem beginPhase_einfo (m : Mode) (t : Int) (s : State) :
    (beginPhase m t s).einfo = s.einfo := rfl
@[simp] theorem beginPhase_hdr (m : Mode) (t : Int) (s : State) :
    (beginPhase m t s).hdr = s.hdr := rfl
@[simp] theorem beginPhase_ip (m : Mode) (t : Int) (s : State) :
    (beginPhase m t s).ip = s.ip := rfl
@[simp] theorem beginPhase_limit (m : Mode) (t : Int) (s : State) :
    (beginPhase m t s).limit = s.limit := rfl
@[simp] theorem beginPhase_ctl (m : Mode) (t : Int) (s : State) :
    (beginPhase m t s).ctl = 0 := rfl
@[simp] theorem beginPhase_cnt (m : Mode) (t : Int) (s : State) :
    (beginPhase m t s).cnt = 0 := rfl
@[simp] theorem beginPhase_units (m : Mode) (t : Int) (s : State) :
    (beginPhase m t s).units = 0 := rfl
@[simp] theorem beginPhase_target (m : Mode) (t : Int) (s : State) :
    (beginPhase m t s).target = BitVec.ofInt 32 t := rfl
@[simp] theorem beginPhase_win (m : Mode) (t : Int) (s : State) :
    (beginPhase m t s).win = [] := rfl
@[simp] theorem beginPhase_wp (m : Mode) (t : Int) (s : State) :
    (beginPhase m t s).wp = Config.windowStart := rfl
@[simp] theorem beginPhase_nbr (m : Mode) (t : Int) (s : State) :
    (beginPhase m t s).nbr = s.nbr := rfl
@[simp] theorem beginPhase_nbrv (m : Mode) (t : Int) (s : State) :
    (beginPhase m t s).nbrv = s.nbrv := rfl
@[simp] theorem beginPhase_out (m : Mode) (t : Int) (s : State) :
    (beginPhase m t s).out = s.out := rfl
@[simp] theorem beginPhase_outLen (m : Mode) (t : Int) (s : State) :
    (beginPhase m t s).outLen = s.outLen := rfl
@[simp] theorem beginPhase_inp (m : Mode) (t : Int) (s : State) :
    (beginPhase m t s).inp = s.inp := rfl
@[simp] theorem beginPhase_inLen (m : Mode) (t : Int) (s : State) :
    (beginPhase m t s).inLen = s.inLen := rfl
@[simp] theorem beginPhase_host (m : Mode) (t : Int) (s : State) :
    (beginPhase m t s).host = s.host := rfl
@[simp] theorem beginPhase_free (m : Mode) (t : Int) (s : State) :
    (beginPhase m t s).free = s.free := rfl

@[simp] theorem popHost_seq (s : State) :
    (popHost s).seq = s.seq := rfl
@[simp] theorem popHost_mode (s : State) :
    (popHost s).mode = s.mode := rfl
@[simp] theorem popHost_err (s : State) :
    (popHost s).err = s.err := rfl
@[simp] theorem popHost_eip (s : State) :
    (popHost s).eip = s.eip := rfl
@[simp] theorem popHost_einfo (s : State) :
    (popHost s).einfo = s.einfo := rfl
@[simp] theorem popHost_hdr (s : State) :
    (popHost s).hdr = s.hdr := rfl
@[simp] theorem popHost_ip (s : State) :
    (popHost s).ip = s.ip := rfl
@[simp] theorem popHost_limit (s : State) :
    (popHost s).limit = s.limit := rfl
@[simp] theorem popHost_ctl (s : State) :
    (popHost s).ctl = s.ctl := rfl
@[simp] theorem popHost_cnt (s : State) :
    (popHost s).cnt = s.cnt := rfl
@[simp] theorem popHost_units (s : State) :
    (popHost s).units = s.units := rfl
@[simp] theorem popHost_target (s : State) :
    (popHost s).target = s.target := rfl
@[simp] theorem popHost_win (s : State) :
    (popHost s).win = s.win := rfl
@[simp] theorem popHost_wp (s : State) :
    (popHost s).wp = s.wp := rfl
@[simp] theorem popHost_nbr (s : State) :
    (popHost s).nbr = s.nbr := rfl
@[simp] theorem popHost_nbrv (s : State) :
    (popHost s).nbrv = s.nbrv := rfl
@[simp] theorem popHost_out (s : State) :
    (popHost s).out = s.out := rfl
@[simp] theorem popHost_outLen (s : State) :
    (popHost s).outLen = s.outLen := rfl
@[simp] theorem popHost_inp (s : State) :
    (popHost s).inp = s.inp := rfl
@[simp] theorem popHost_inLen (s : State) :
    (popHost s).inLen = s.inLen := rfl
@[simp] theorem popHost_host (s : State) :
    (popHost s).host = s.host.tail := rfl
@[simp] theorem popHost_free (s : State) :
    (popHost s).free = s.free := rfl

@[simp] theorem storeOut_seq (cells : List Host.Cell) (s : State) :
    (storeOut cells s).seq = s.seq := rfl
@[simp] theorem storeOut_mode (cells : List Host.Cell) (s : State) :
    (storeOut cells s).mode = s.mode := rfl
@[simp] theorem storeOut_err (cells : List Host.Cell) (s : State) :
    (storeOut cells s).err = s.err := rfl
@[simp] theorem storeOut_eip (cells : List Host.Cell) (s : State) :
    (storeOut cells s).eip = s.eip := rfl
@[simp] theorem storeOut_einfo (cells : List Host.Cell) (s : State) :
    (storeOut cells s).einfo = s.einfo := rfl
@[simp] theorem storeOut_hdr (cells : List Host.Cell) (s : State) :
    (storeOut cells s).hdr = s.hdr := rfl
@[simp] theorem storeOut_ip (cells : List Host.Cell) (s : State) :
    (storeOut cells s).ip = s.ip := rfl
@[simp] theorem storeOut_limit (cells : List Host.Cell) (s : State) :
    (storeOut cells s).limit = s.limit := rfl
@[simp] theorem storeOut_ctl (cells : List Host.Cell) (s : State) :
    (storeOut cells s).ctl = s.ctl := rfl
@[simp] theorem storeOut_cnt (cells : List Host.Cell) (s : State) :
    (storeOut cells s).cnt = s.cnt := rfl
@[simp] theorem storeOut_units (cells : List Host.Cell) (s : State) :
    (storeOut cells s).units = s.units := rfl
@[simp] theorem storeOut_target (cells : List Host.Cell) (s : State) :
    (storeOut cells s).target = s.target := rfl
@[simp] theorem storeOut_win (cells : List Host.Cell) (s : State) :
    (storeOut cells s).win = s.win := rfl
@[simp] theorem storeOut_wp (cells : List Host.Cell) (s : State) :
    (storeOut cells s).wp = s.wp := rfl
@[simp] theorem storeOut_nbr (cells : List Host.Cell) (s : State) :
    (storeOut cells s).nbr = s.nbr := rfl
@[simp] theorem storeOut_nbrv (cells : List Host.Cell) (s : State) :
    (storeOut cells s).nbrv = s.nbrv := rfl
@[simp] theorem storeOut_out (cells : List Host.Cell) (s : State) :
    (storeOut cells s).out = Mem.writeAll .out s.out cells := rfl
@[simp] theorem storeOut_outLen (cells : List Host.Cell) (s : State) :
    (storeOut cells s).outLen = s.outLen := rfl
@[simp] theorem storeOut_inp (cells : List Host.Cell) (s : State) :
    (storeOut cells s).inp = s.inp := rfl
@[simp] theorem storeOut_inLen (cells : List Host.Cell) (s : State) :
    (storeOut cells s).inLen = s.inLen := rfl
@[simp] theorem storeOut_host (cells : List Host.Cell) (s : State) :
    (storeOut cells s).host = s.host := rfl
@[simp] theorem storeOut_free (cells : List Host.Cell) (s : State) :
    (storeOut cells s).free = s.free := rfl

@[simp] theorem State.reset_seq : State.reset.seq = .idle := rfl
@[simp] theorem State.reset_mode : State.reset.mode = .v0 := rfl
@[simp] theorem State.reset_err : State.reset.err = .none := rfl
@[simp] theorem State.reset_eip : State.reset.eip = 0 := rfl
@[simp] theorem State.reset_einfo : State.reset.einfo = 0 := rfl
@[simp] theorem State.reset_hdr : State.reset.hdr = Header.zero := rfl
@[simp] theorem State.reset_ip : State.reset.ip = 0 := rfl
@[simp] theorem State.reset_limit : State.reset.limit = 0 := rfl
@[simp] theorem State.reset_ctl : State.reset.ctl = 0 := rfl
@[simp] theorem State.reset_cnt : State.reset.cnt = 0 := rfl
@[simp] theorem State.reset_units : State.reset.units = 0 := rfl
@[simp] theorem State.reset_target : State.reset.target = 0 := rfl
@[simp] theorem State.reset_win : State.reset.win = zeroWindow := rfl
@[simp] theorem State.reset_wp : State.reset.wp = 0 := rfl
@[simp] theorem State.reset_nbr : State.reset.nbr = 0 := rfl
@[simp] theorem State.reset_nbrv : State.reset.nbrv = false := rfl
@[simp] theorem State.reset_out : State.reset.out = [] := rfl
@[simp] theorem State.reset_outLen : State.reset.outLen = 0 := rfl
@[simp] theorem State.reset_inp : State.reset.inp = [] := rfl
@[simp] theorem State.reset_inLen : State.reset.inLen = 0 := rfl
@[simp] theorem State.reset_host : State.reset.host = [] := rfl
@[simp] theorem State.reset_free : State.reset.free = 0 := rfl

end Sys2Proof.Machine
end

