-- ==== Sys2Proof/Laws/Ops.lean ====
section
/-!
SUPPORT. One lemma per shared operation that says everything it can do: what it answers, and what holds where it answers a
next state.
-/

namespace Sys2Proof.Machine

@[simp] theorem raise_eq (f : Err) (info : Byte) (s : State) :
    raise f info s = .next (trapState f info s) := rfl

@[simp] theorem andThen_next (s : State) (f : State → Result) : andThen (.next s) f = f s := rfl
@[simp] theorem andThen_fault (r : Fault) (f : State → Result) : andThen (.fault r) f = .fault r := rfl
@[simp] theorem andThen_refused (r : Refusal) (f : State → Result) :
    andThen (.refused r) f = .refused r := rfl

/-- A composed operation answers next exactly when both parts do. -/
theorem andThen_eq_next {o : Result} {f : State → Result} {t : State} :
    andThen o f = .next t ↔ ∃ s, o = .next s ∧ f s = .next t := by
  cases o <;> simp [andThen]

/-- A guarded fetch answers next by the TruncatedStream trap or by going on with its bytes inside LIMIT and IN_LEN. -/
theorem guardFetch_eq_next {n : Nat} {s t : State} {k : State → Result} :
    guardFetch n s k = .next t ↔
      (s.limit.toNat < s.ip.toNat + n ∧ t = trapState .truncatedStream 0 s) ∨
      (s.ip.toNat + n ≤ s.limit.toNat ∧ s.ip.toNat + n ≤ s.inLen.toNat ∧ k s = .next t) := by
  unfold guardFetch
  split_ifs with h1 h2
  · simp [h1, show ¬ s.ip.toNat + n ≤ s.limit.toNat by omega, eq_comm]
  · simp [h1, show ¬ s.ip.toNat + n ≤ s.inLen.toNat by omega]
  · simp [h1, show s.ip.toNat + n ≤ s.limit.toNat by omega, show s.ip.toNat + n ≤ s.inLen.toNat by omega]

theorem guardFetch_inside {n : Nat} {s : State} (k : State → Result)
    (h1 : s.ip.toNat + n ≤ s.limit.toNat) (h2 : s.ip.toNat + n ≤ s.inLen.toNat) :
    guardFetch n s k = k s := by
  rw [guardFetch, if_neg (by omega), if_neg (by omega)]

theorem guardFetch_truncated {n : Nat} {s : State} (k : State → Result)
    (h : s.limit.toNat < s.ip.toNat + n) :
    guardFetch n s k = .next (trapState .truncatedStream 0 s) := by
  rw [guardFetch, if_pos h, raise_eq]

/-- OUT writes answer next exactly when every address is below OUT_LEN, and then write those bytes only. -/
theorem outWrites_eq_next {cells : List Host.Cell} {s t : State} :
    outWrites cells s = .next t ↔
      (∀ c ∈ cells, c.1 < s.outLen.toNat) ∧ t = storeOut cells s := by
  unfold outWrites
  split_ifs with h
  · simp only [List.all_eq_true, decide_eq_true_eq] at h
    simp only [Host.Outcome.next.injEq]
    exact ⟨fun e => ⟨h, e.symm⟩, fun e => e.2.symm⟩
  · simp only [List.all_eq_true, decide_eq_true_eq] at h
    exact ⟨fun e => (nomatch e), fun e => absurd e.1 h⟩

/-- EmitUnit answers next exactly when its OUT addresses exist. -/
theorem emitUnit_eq_next {b : Byte} {s t : State} :
    emitUnit b s = .next t ↔
      (∀ c ∈ unitCells s.mode s.units.toNat b, c.1 < s.outLen.toNat) ∧
      t = countUnit (winPut b (storeOut (unitCells s.mode s.units.toNat b) s)) := by
  unfold emitUnit
  rw [andThen_eq_next]
  constructor
  · rintro ⟨s', h, e⟩
    obtain ⟨h1, rfl⟩ := outWrites_eq_next.mp h
    exact ⟨h1, by simpa using e.symm⟩
  · rintro ⟨h1, rfl⟩
    exact ⟨_, outWrites_eq_next.mpr ⟨h1, rfl⟩, rfl⟩

/-- The neighbour load writes NBR, NBRV and the number of the next free value, nothing else. -/
theorem loadNeighbour_next {s t : State} (h : loadNeighbour s = .next t) :
    t = { s with nbr := t.nbr, nbrv := t.nbrv, free := s.free + 1 } ∧
      t.nbrv = decide (s.units.toNat ≠ 0) := by
  unfold loadNeighbour neighbourUnit at h
  by_cases hu : s.units.toNat = 0
  · rw [if_pos hu] at h
    cases h
    simp [hu]
  · rw [if_neg hu] at h
    split_ifs at h <;> (simp only at h; split_ifs at h; cases h; simp [hu])

/-- A pixel is delivered exactly when its OUT addresses exist. -/
theorem putPixel_eq_next {k : Nat} {q0 q1 q2 : Byte} {s t : State} :
    putPixel k q0 q1 q2 s = .next t ↔
      pixelStride s.mode * s.units.toNat + 2 < s.outLen.toNat ∧
      t = countUnit (advance k (winPut q2 (winPut q1 (winPut q0
        (storeOut (pixelCells s.mode s.units.toNat q0 q1 q2) s))))) := by
  unfold putPixel
  rw [andThen_eq_next]
  have hc : (∀ c ∈ pixelCells s.mode s.units.toNat q0 q1 q2, c.1 < s.outLen.toNat) ↔
      pixelStride s.mode * s.units.toNat + 2 < s.outLen.toNat := by
    simp only [pixelCells, List.mem_cons, List.not_mem_nil, or_false, forall_eq_or_imp, forall_eq]
    omega
  constructor
  · rintro ⟨s', h, e⟩
    obtain ⟨h1, rfl⟩ := outWrites_eq_next.mp h
    exact ⟨hc.mp h1, by simpa using e.symm⟩
  · rintro ⟨h1, rfl⟩
    exact ⟨_, outWrites_eq_next.mpr ⟨hc.mpr h1, rfl⟩, rfl⟩

/-- A byte-serial copy of `n` units writes OUT, the window and its cursor, and counts `n` units. -/
theorem copyUnits_next {n pos : Nat} {s t : State} (h : copyUnits n pos s = .next t) :
    t = { s with out := t.out, win := t.win, wp := s.wp + BitVec.ofNat 12 n,
                 units := s.units + BitVec.ofNat 32 n } := by
  induction n generalizing pos s with
  | zero =>
    simp only [copyUnits, Host.Outcome.next.injEq] at h
    subst h
    simp
  | succ n ih =>
    rw [copyUnits, andThen_eq_next] at h
    obtain ⟨s1, h1, h2⟩ := h
    obtain ⟨-, rfl⟩ := emitUnit_eq_next.mp h1
    have h3 := ih h2
    rw [h3]
    simp only [countUnit, winPut, storeOut, BitVec.ofNat_add, State.mk.injEq, true_and, and_true]
    constructor <;> ac_rfl

/-- A window read after WinPut: the byte put at the cursor, the old content elsewhere (41_dictionary.md R103, R104). -/
theorem winGet_winPut (p : Nat) (b : Byte) (s : State) :
    winGet p (winPut b s) = if p % 4096 = s.wp.toNat then b else winGet p s := by
  unfold winGet
  simp only [winPut_win, Mem.read_write, Config.windowLength]
  split_ifs <;> rfl

/-- A window read of a state whose window and nothing else changed the other fields. -/
theorem winGet_congr {s t : State} (p : Nat) (h : t.win = s.win) : winGet p t = winGet p s := by
  rw [winGet, winGet, h]

/-- A freshly seeded window reads as the seed (41_dictionary.md R102). -/
theorem winGet_beginPhase (p : Nat) (m : Mode) (t : Int) (s : State) :
    winGet p (beginPhase m t s) = seed (p % 4096) := by
  simp [winGet, Config.windowLength]

end Sys2Proof.Machine
end

