-- ==== Sys2Proof/Laws/Exec.lean ====
section
/-!
SUPPORT. What each meaning can answer: one inversion lemma per instruction, which later proofs cite instead of unfolding
the meaning.
-/

namespace Sys2Proof.Machine

/-- A meaning that is not selected answers no next state; a selected one goes on. -/
theorem ite_refused_eq_next {c : Bool} {o : Result} {r : Refusal} {t : State} :
    (if c = true then o else .refused r) = .next t ↔ c = true ∧ o = .next t := by
  split_ifs with h <;> simp [h]

theorem controlDue_iff (s : State) :
    controlDue s = true ↔
      s.seq = .run ∧ s.mode.control = true ∧ s.units.toNat < s.target.toNat ∧ s.cnt = 0 := by
  simp [controlDue, BitVec.lt_def, and_assoc]

theorem tokenDue_iff (bit : Bool) (s : State) :
    tokenDue bit s = true ↔
      s.seq = .run ∧ s.mode.control = true ∧ s.units.toNat < s.target.toNat ∧ s.cnt ≠ 0 ∧
        controlBit s = bit := by
  simp [tokenDue, BitVec.lt_def, and_assoc]

theorem pixelDue_iff (s : State) :
    pixelDue s = true ↔
      s.seq = .run ∧ s.mode.control = false ∧ s.units.toNat < s.target.toNat := by
  simp [pixelDue, BitVec.lt_def, and_assoc]

theorem endDue_iff (s : State) : endDue s = true ↔ s.seq = .run ∧ s.units = s.target := by
  simp [endDue]

theorem execStart_next {s t : State} (h : execStart s = .next t) :
    (s.seq.busy = true ∧ t = s) ∨
    (s.seq.busy = false ∧ t = { s with seq := .hload, err := .none, eip := 0, einfo := 0, ip := 0 }) := by
  unfold execStart at h
  split_ifs at h with hb
  · exact .inl ⟨hb, (Host.Outcome.next.inj h).symm⟩
  · exact .inr ⟨by simpa using hb, (Host.Outcome.next.inj h).symm⟩

theorem execHload_next {hd : Header} {s t : State} (h : execHload hd s = .next t) :
    s.seq = .hload ∧
    ((s.inLen.toNat < 32 ∧ t = trapState .invalidHeader 0 s) ∨
     (32 ≤ s.inLen.toNat ∧ t = { s with hdr := hd, seq := .hchk })) := by
  unfold execHload Config.headerLength at h
  split_ifs at h with h1 h2
  · exact ⟨h1, .inl ⟨h2, (Host.Outcome.next.inj h).symm⟩⟩
  · exact ⟨h1, .inr ⟨by omega, (Host.Outcome.next.inj h).symm⟩⟩

theorem execHchk_next {s t : State} (h : execHchk s = .next t) :
    s.seq = .hchk ∧
    ((headerInvalid s.hdr = true ∧ t = trapState .invalidHeader 0 s) ∨
     (headerInvalid s.hdr = false ∧ sizeMismatch s.hdr = true ∧ t = trapState .sizeMismatch 0 s) ∨
     (headerInvalid s.hdr = false ∧ sizeMismatch s.hdr = false ∧ dimensionInvalid s.hdr = true ∧
        t = trapState .invalidHeader 0 s) ∨
     (headerInvalid s.hdr = false ∧ sizeMismatch s.hdr = false ∧ dimensionInvalid s.hdr = false ∧
        t = openPayload s)) := by
  unfold execHchk at h
  split_ifs at h with h1 h2 h3 h4 <;> refine ⟨h1, ?_⟩ <;> have e := (Host.Outcome.next.inj h).symm <;>
    simp_all

theorem execCtl_next {k : Byte} {s t : State} (h : execCtl k s = .next t) :
    controlDue s = true ∧
    ((s.limit.toNat < s.ip.toNat + 1 ∧ t = trapState .truncatedStream 0 s) ∨
     (s.ip.toNat + 1 ≤ s.limit.toNat ∧ s.ip.toNat + 1 ≤ s.inLen.toNat ∧
        t = { advance 1 s with ctl := k, cnt := 8 })) := by
  unfold execCtl at h
  rw [ite_refused_eq_next, guardFetch_eq_next] at h
  obtain ⟨h0, h1 | ⟨h1, h2, h3⟩⟩ := h
  · exact ⟨h0, .inl h1⟩
  · exact ⟨h0, .inr ⟨h1, h2, (Host.Outcome.next.inj h3).symm⟩⟩

theorem execLit_next {d : Byte} {s t : State} (h : execLit d s = .next t) :
    tokenDue true s = true ∧
    ((s.limit.toNat < s.ip.toNat + 1 ∧ t = trapState .truncatedStream 0 s) ∨
     (s.ip.toNat + 1 ≤ s.limit.toNat ∧ s.ip.toNat + 1 ≤ s.inLen.toNat ∧
        (∀ c ∈ unitCells s.mode s.units.toNat d, c.1 < s.outLen.toNat) ∧
        t = countUnit (winPut d (storeOut (unitCells s.mode s.units.toNat d)
              (useControlBit (advance 1 s)))))) := by
  unfold execLit at h
  rw [ite_refused_eq_next, guardFetch_eq_next] at h
  obtain ⟨h0, h1 | ⟨h1, h2, h3⟩⟩ := h
  · exact ⟨h0, .inl h1⟩
  · exact ⟨h0, .inr ⟨h1, h2, by simpa using emitUnit_eq_next.mp h3⟩⟩

theorem execBref_next {s t : State} (h : execBref s = .next t) :
    tokenDue false s = true ∧ t = trapState .reservedToken 0 s := by
  unfold execBref brefWith Config.params at h
  rw [ite_refused_eq_next] at h
  exact ⟨h.1, (Host.Outcome.next.inj h.2).symm⟩

theorem execEnd_next {s t : State} (h : execEnd s = .next t) :
    endDue s = true ∧ t = { s with seq := if s.mode = .v3rgb then .alen else .done } := by
  unfold execEnd at h
  rw [ite_refused_eq_next] at h
  exact ⟨h.1, (Host.Outcome.next.inj h.2).symm⟩

theorem execPixRaw_next {p0 p1 p2 : Byte} {s t : State} (h : execPixRaw p0 p1 p2 s = .next t) :
    pixelDue s = true ∧
    ((s.limit.toNat < s.ip.toNat + 4 ∧ t = trapState .truncatedStream 0 s) ∨
     (s.ip.toNat + 4 ≤ s.limit.toNat ∧ s.ip.toNat + 4 ≤ s.inLen.toNat ∧
        pixelStride s.mode * s.units.toNat + 2 < s.outLen.toNat ∧
        ∃ s1, loadNeighbour s = .next s1 ∧
          t = countUnit (advance 4 (winPut p2 (winPut p1 (winPut p0
            (storeOut (pixelCells s.mode s.units.toNat p0 p1 p2) s1))))))) := by
  unfold execPixRaw at h
  rw [ite_refused_eq_next, guardFetch_eq_next] at h
  obtain ⟨h0, h1 | ⟨h1, h2, h3⟩⟩ := h
  · exact ⟨h0, .inl h1⟩
  · rw [andThen_eq_next] at h3
    obtain ⟨s1, h4, h5⟩ := h3
    have h6 := (loadNeighbour_next h4).1
    obtain ⟨h7, h8⟩ := putPixel_eq_next.mp h5
    have hm : s1.mode = s.mode := by rw [h6]
    have hu : s1.units = s.units := by rw [h6]
    have ho : s1.outLen = s.outLen := by rw [h6]
    rw [hm, hu] at h7 h8
    rw [ho] at h7
    exact ⟨h0, .inr ⟨h1, h2, h7, s1, h4, h8⟩⟩

theorem execPixDelta_next {tag : Byte} {s t : State} (h : execPixDelta tag s = .next t) :
    pixelDue s = true ∧ tag ≠ 0 ∧
    ((s.limit.toNat < s.ip.toNat + 1 ∧ t = trapState .truncatedStream 0 s) ∨
     (s.ip.toNat + 1 ≤ s.limit.toNat ∧ t = trapState .reservedTag tag s)) := by
  unfold execPixDelta deltaWith Config.params at h
  rw [ite_refused_eq_next, guardFetch_eq_next] at h
  simp only [Bool.and_eq_true, bne_iff_ne, ne_eq] at h
  obtain ⟨⟨h0, h0'⟩, h1 | ⟨h1, h2, h3⟩⟩ := h
  · exact ⟨h0, h0', .inl h1⟩
  · exact ⟨h0, h0', .inr ⟨h1, (Host.Outcome.next.inj h3).symm⟩⟩

theorem execAlen_next {n : Word} {s t : State} (h : execAlen n s = .next t) :
    s.seq = .alen ∧
    ((s.limit.toNat < s.ip.toNat + 4 ∧ t = trapState .truncatedStream 0 s) ∨
     (s.ip.toNat + 4 ≤ s.limit.toNat ∧ s.ip.toNat + 4 ≤ s.inLen.toNat ∧ t = openAlpha n s)) := by
  unfold execAlen at h
  split_ifs at h with h0
  rw [guardFetch_eq_next] at h
  obtain h1 | ⟨h1, h2, h3⟩ := h
  · exact ⟨h0, .inl h1⟩
  · exact ⟨h0, .inr ⟨h1, h2, (Host.Outcome.next.inj h3).symm⟩⟩

/-- RESET always answers a next state; what the spec gives a value, and what belongs to the host, is known. -/
theorem execReset_next (s : State) :
    ∃ t, execReset s = .next t ∧ t.seq = .idle ∧ t.err = .none ∧ t.out = [] ∧ Mem.wf .win t.win = true ∧
      t.inp = s.inp ∧ t.inLen = s.inLen ∧ t.host = s.host ∧ t.free = s.free + 1 := by
  have hw : Mem.wf .win
      (Mem.ofFn .win (fun a => Config.freeBits 8 s.free (.window a)) Config.windowLength) = true :=
    Mem.wf_ofFn .win _ _ (Nat.le_refl 4096)
  unfold execReset
  generalize Mem.ofFn .win (fun a => Config.freeBits 8 s.free (.window a)) Config.windowLength = w at hw
  exact ⟨_, rfl, rfl, rfl, rfl, hw, rfl, rfl, rfl, rfl⟩

/-! The other direction: where each meaning completes with its own effect. -/

theorem execCtl_completes {k : Byte} {s : State} (h : controlDue s = true)
    (h1 : s.ip.toNat + 1 ≤ s.limit.toNat) (h2 : s.ip.toNat + 1 ≤ s.inLen.toNat) :
    execCtl k s = .next { advance 1 s with ctl := k, cnt := 8 } := by
  rw [execCtl, if_pos h, guardFetch_inside _ h1 h2]
  rfl

theorem execLit_completes {d : Byte} {s : State} (h : tokenDue true s = true)
    (h1 : s.ip.toNat + 1 ≤ s.limit.toNat) (h2 : s.ip.toNat + 1 ≤ s.inLen.toNat)
    (h3 : ∀ c ∈ unitCells s.mode s.units.toNat d, c.1 < s.outLen.toNat) :
    execLit d s = .next (countUnit (winPut d (storeOut (unitCells s.mode s.units.toNat d)
      (useControlBit (advance 1 s))))) := by
  rw [execLit, if_pos h, guardFetch_inside _ h1 h2]
  exact emitUnit_eq_next.mpr ⟨by simpa using h3, by simp⟩

theorem execEnd_completes {s : State} (h : endDue s = true) :
    execEnd s = .next { s with seq := if s.mode = .v3rgb then .alen else .done } := by
  rw [execEnd, if_pos h]

theorem execPixRaw_completes {p0 p1 p2 : Byte} {s s1 : State} (h : pixelDue s = true)
    (h1 : s.ip.toNat + 4 ≤ s.limit.toNat) (h2 : s.ip.toNat + 4 ≤ s.inLen.toNat)
    (h3 : pixelStride s.mode * s.units.toNat + 2 < s.outLen.toNat) (h4 : loadNeighbour s = .next s1) :
    execPixRaw p0 p1 p2 s = .next (countUnit (advance 4 (winPut p2 (winPut p1 (winPut p0
      (storeOut (pixelCells s.mode s.units.toNat p0 p1 p2) s1)))))) := by
  rw [execPixRaw, if_pos h, guardFetch_inside _ h1 h2, h4, andThen_next]
  have h6 := (loadNeighbour_next h4).1
  have hm : s1.mode = s.mode := by rw [h6]
  have hu : s1.units = s.units := by rw [h6]
  have ho : s1.outLen = s.outLen := by rw [h6]
  exact putPixel_eq_next.mpr ⟨by rw [hm, hu, ho]; exact h3, by rw [hm, hu]⟩

theorem execAlen_completes {n : Word} {s : State} (h : s.seq = .alen)
    (h1 : s.ip.toNat + 4 ≤ s.limit.toNat) (h2 : s.ip.toNat + 4 ≤ s.inLen.toNat) :
    execAlen n s = .next (openAlpha n s) := by
  rw [execAlen, if_pos h, guardFetch_inside _ h1 h2]

theorem execHchk_completes {s : State} (h : s.seq = .hchk) (h1 : headerInvalid s.hdr = false)
    (h2 : sizeMismatch s.hdr = false) (h3 : dimensionInvalid s.hdr = false) :
    execHchk s = .next (openPayload s) := by
  simp [execHchk, h, h1, h2, h3]

end Sys2Proof.Machine
end

