-- ==== Sys2Proof/Laws/Step.lean ====
section
/-!
SUPPORT. What a step does: the instruction each row fetches, and the inversion of `step`.
-/

namespace Sys2Proof.Machine

/-- Byte `j` of the item at IP, 0 where LIMIT or IN_LEN cuts it off. -/
def operandByte (s : State) (j : Nat) : Byte :=
  if s.ip.toNat + j < min s.limit.toNat s.inLen.toNat then inByte s (s.ip.toNat + j) else 0

theorem operandByte_inside {s : State} {j : Nat} (h1 : s.ip.toNat + j < s.limit.toNat)
    (h2 : s.ip.toNat + j < s.inLen.toNat) : operandByte s j = inByte s (s.ip.toNat + j) := by
  rw [operandByte, if_pos (by omega)]

theorem itemBytes_ctl (s : State) : itemBytes .ctl s = [operandByte s 0] := rfl
theorem itemBytes_lit (s : State) : itemBytes .lit s = [operandByte s 0] := rfl
theorem itemBytes_four (r : Row) (hr : r = .pix ∨ r = .alen) (s : State) :
    itemBytes r s = [operandByte s 0, operandByte s 1, operandByte s 2, operandByte s 3] := by
  rcases hr with rfl | rfl <;> rfl

/-- A byte of the header as HLOAD fetches it, 0 where IN_LEN cuts it off. -/
def headerByte (s : State) (j : Nat) : Byte := if 0 + j < s.inLen.toNat then inByte s (0 + j) else 0

/-- The header HLOAD fetches (30_encoding.md R61). -/
def fetchedHeader (s : State) : Header :=
  let w (a : Nat) := wordOfBytes (headerByte s a) (headerByte s (a + 1)) (headerByte s (a + 2)) (headerByte s (a + 3))
  { htype := w 0, hsent := w 4, hoffx := w 8, hoffy := w 12, hwidth := w 16, hheight := w 20,
    hpacked := w 24, hunpacked := w 28 }

/-- The instruction the fetch of a row gives. -/
def fetched (r : Row) (s : State) : Instr :=
  match r with
  | .reset    => .reset
  | .start    => .start
  | .hload    => .hload (fetchedHeader s)
  | .hchk     => .hchk
  | .endPhase => .endPhase
  | .ctl      => .ctl (operandByte s 0)
  | .lit      => .lit (operandByte s 0)
  | .bref     => .bref
  | .pix      =>
    if operandByte s 0 = 0 then .pixRaw (operandByte s 1) (operandByte s 2) (operandByte s 3)
    else .pixDelta (operandByte s 0)
  | .alen     => .alen (wordOfBytes (operandByte s 0) (operandByte s 1) (operandByte s 2) (operandByte s 3))

theorem fetched_wellFormed (r : Row) (s : State) : (fetched r s).WellFormed := by
  cases r with
  | pix =>
    unfold fetched
    by_cases h : operandByte s 0 = 0
    · rw [if_pos h]; rfl
    · rw [if_neg h]; simpa [Instr.WellFormed, Instr.wellFormed] using h
  | _ => rfl

theorem fetched_row (r : Row) (s : State) : (fetched r s).row = r := by
  cases r with
  | pix => unfold fetched; split_ifs <;> rfl
  | _ => rfl

/-- Every row gives its executor the instruction fetched: the fetch is never undecodable. -/
theorem runRowBy_eq (ex : Instr → State → Result) (r : Row) (s : State) :
    runRowBy ex r s = ex (fetched r s) s := by
  cases r with
  | pix =>
    unfold runRowBy fetched
    rw [itemBytes_four .pix (.inl rfl)]
    by_cases h : operandByte s 0 = 0
    · rw [if_pos h, decode, if_pos h]
    · rw [if_neg h, decode, if_neg h]
  | _ => rfl

/-- A step under any executor that answers next: the quiescent row with the host's write, or one well-formed instruction
of the selected row, both on the state whose host move has been taken. -/
theorem stepBy_next {ex : Instr → State → Result} {s t : State} (h : stepBy ex s = .next t) :
    ((hostMove s).writes && s.seq.busy) = false ∧
    ((select (hostMove s) (popHost s) = .quiescent ∧ t = hostWrite (hostMove s) (popHost s)) ∨
     ∃ i : Instr, i.WellFormed ∧ select (hostMove s) (popHost s) = .row i.row ∧
       ex i (popHost s) = .next t) := by
  unfold stepBy stepMoveBy at h
  split_ifs at h with hw
  refine ⟨by simpa using hw, ?_⟩
  cases hs : select (hostMove s) (popHost s) with
  | quiescent =>
    rw [hs] at h
    exact .inl ⟨rfl, (Host.Outcome.next.inj h).symm⟩
  | row r =>
    rw [hs] at h
    simp only [runRowBy_eq] at h
    exact .inr ⟨_, fetched_wellFormed r _, by rw [fetched_row], h⟩

/-- Inside a run, under a host that asserts no reset and writes nothing, the step is the row STATE selects. -/
theorem stepBy_row (ex : Instr → State → Result) {s : State} {r : Row} (hw : (hostMove s).writes = false)
    (hr : select (hostMove s) (popHost s) = .row r) : stepBy ex s = ex (fetched r (popHost s)) (popHost s) := by
  simp [stepBy, stepMoveBy, hw, hr, runRowBy_eq]

theorem runRowStep_hload (s : State) : runRowStep .hload s = execHload (fetchedHeader s) s := rfl
theorem runRowStep_start (s : State) : runRowStep .start s = execStart s := rfl
theorem runRowStep_reset (s : State) : runRowStep .reset s = execReset s := rfl
theorem runRowStep_hchk (s : State) : runRowStep .hchk s = execHchk s := rfl
theorem runRowStep_end (s : State) : runRowStep .endPhase s = execEnd s := rfl
theorem runRowStep_bref (s : State) : runRowStep .bref s = execBref s := rfl
theorem runRowStep_ctl (s : State) : runRowStep .ctl s = execCtl (operandByte s 0) s := rfl
theorem runRowStep_lit (s : State) : runRowStep .lit s = execLit (operandByte s 0) s := rfl

theorem runRowStep_alen (s : State) :
    runRowStep .alen s = execAlen (wordOfBytes (operandByte s 0) (operandByte s 1) (operandByte s 2)
      (operandByte s 3)) s := rfl

theorem runRowStep_pix (s : State) :
    runRowStep .pix s = if operandByte s 0 = 0
      then execPixRaw (operandByte s 1) (operandByte s 2) (operandByte s 3) s
      else execPixDelta (operandByte s 0) s := by
  rw [runRowStep, runRowBy_eq, fetched]
  split_ifs <;> rfl

/-- Every row runs one well-formed instruction of its own. -/
theorem runRowStep_exec (r : Row) (s : State) :
    ∃ i : Instr, i.WellFormed ∧ i.row = r ∧ runRowStep r s = exec i s :=
  ⟨fetched r s, fetched_wellFormed r s, fetched_row r s, runRowBy_eq exec r s⟩

/-- The inversion of `step`. -/
theorem step_next {s t : State} (h : step s = .next t) :
    ((hostMove s).writes && s.seq.busy) = false ∧
    ((select (hostMove s) (popHost s) = .quiescent ∧ t = hostWrite (hostMove s) (popHost s)) ∨
     ∃ i : Instr, i.WellFormed ∧ select (hostMove s) (popHost s) = .row i.row ∧
       exec i (popHost s) = .next t) :=
  stepBy_next h

/-- The quiescent row is selected only outside a run (40_header_wrapper.md R80 row 3). -/
theorem select_quiescent {m : HostMove} {s : State} (h : select m s = .quiescent) :
    s.seq.busy = false ∧ m ≠ .reset ∧ m ≠ .start := by
  unfold select at h
  by_cases hm : m = .reset
  · rw [if_pos hm] at h; cases h
  · rw [if_neg hm] at h
    by_cases hs : m = .start
    · cases hq : s.seq <;> rw [hq] at h <;> simp [hs] at h
    · refine ⟨?_, hm, hs⟩
      cases hq : s.seq <;> rw [hq] at h <;> first | rfl | cases h

/-- Inside a run, under a host that asserts no reset and writes nothing, the step is the row STATE selects. -/
theorem step_busy {s : State} {r : Row} (hw : (hostMove s).writes = false)
    (hr : select (hostMove s) (popHost s) = .row r) : step s = runRowStep r (popHost s) := by
  simp [step, stepBy, stepMoveBy, runRowStep, hw, hr]

theorem select_run {m : HostMove} {s : State} (hm : m ≠ .reset) (hs : s.seq = .run) :
    select m s = .row (runRow s) := by
  rw [select, if_neg hm, hs]

theorem select_alen {m : HostMove} {s : State} (hm : m ≠ .reset) (hs : s.seq = .alen) :
    select m s = .row .alen := by
  rw [select, if_neg hm, hs]

theorem select_hload {m : HostMove} {s : State} (hm : m ≠ .reset) (hs : s.seq = .hload) :
    select m s = .row .hload := by
  rw [select, if_neg hm, hs]

theorem select_hchk {m : HostMove} {s : State} (hm : m ≠ .reset) (hs : s.seq = .hchk) :
    select m s = .row .hchk := by
  rw [select, if_neg hm, hs]

end Sys2Proof.Machine
end

