-- ==== Sys2Proof/Laws/Invariant.lean ====
section
/-!
SUPPORT. Small facts about the predicates of Safety: what a valid header gives, which fields a phase depends on, and the
arithmetic of 32-bit counters that does not wrap.
-/

namespace Sys2Proof.Safety

open Sys2Proof.Machine

/-- A valid header: type 0 to 3, the size equation, positive dimensions (40_header_wrapper.md R83). -/
theorem HeaderValid.facts {h : Header} (hv : HeaderValid h) :
    0 ≤ h.htype.toInt ∧ h.htype.toInt ≤ 3 ∧
      h.hunpacked.toInt = pixelCount h * bytesPerPixel h.htype ∧ 0 < h.hwidth.toInt ∧
      0 < h.hheight.toInt := by
  obtain ⟨a, b, c⟩ := hv
  simp only [headerInvalid, sizeMismatch, dimensionInvalid, Bool.or_eq_false_iff, decide_eq_false_iff_not,
    not_lt, not_le, ne_eq, not_not] at a b c
  omega

theorem HeaderValid.pixelCount_pos {h : Header} (hv : HeaderValid h) : 0 < pixelCount h :=
  mul_pos hv.facts.2.2.2.1 hv.facts.2.2.2.2

/-- `bytes_per_pixel` is 4 exactly for type 3 (10_state.md R18). -/
theorem bytesPerPixel_cases (w : Word) :
    bytesPerPixel w = 3 ∧ w.toInt ≠ 3 ∨ bytesPerPixel w = 4 ∧ w.toInt = 3 := by
  unfold bytesPerPixel
  split_ifs with h
  · exact .inr ⟨rfl, h⟩
  · exact .inl ⟨rfl, h⟩

theorem word_toInt_le (w : Word) : w.toInt ≤ 2147483647 := by
  have h := w.isLt
  rw [BitVec.toInt_eq_toNat_cond]
  split_ifs <;> omega

theorem word_toNat_of_nonneg {w : Word} (h : 0 ≤ w.toInt) : (w.toNat : Int) = w.toInt := by
  have := w.isLt
  rw [BitVec.toInt_eq_toNat_cond] at *
  split_ifs at * <;> omega

theorem word_ofInt_toNat {i : Int} (h : 0 ≤ i) (h' : i < 4294967296) :
    ((BitVec.ofInt 32 i).toNat : Int) = i := by
  rw [BitVec.toNat_ofInt]
  omega

/-- A 32-bit counter that does not wrap. -/
theorem word_add_toNat {w : Word} {n : Nat} (h : w.toNat + n < 4294967296) :
    (w + BitVec.ofNat 32 n).toNat = w.toNat + n := by
  rw [BitVec.toNat_add, BitVec.toNat_ofNat]
  omega

/-- WinPut keeps the memories canonical. -/
theorem MemoriesCanonical.winPut {s : State} (h : MemoriesCanonical s) (b : Byte) :
    MemoriesCanonical (winPut b s) :=
  ⟨h.1, h.2.1, Mem.wf_write_win _ _ _ h.2.2⟩

/-- OUT writes below OUT_LEN keep the memories canonical. -/
theorem MemoriesCanonical.storeOut {s : State} (h : MemoriesCanonical s) {cells : List Host.Cell}
    (hc : ∀ c ∈ cells, c.1 < s.outLen.toNat) : MemoriesCanonical (storeOut cells s) :=
  ⟨h.1, Mem.wf_writeAll_out _ _ _ hc h.2.1, h.2.2⟩

/-- Canonical memories depend on the three memories only. -/
theorem MemoriesCanonical.congr {s t : State} (h : MemoriesCanonical s) (hi : t.inp = s.inp)
    (ho : t.out = s.out) (hw : t.win = s.win) : MemoriesCanonical t := by
  unfold MemoriesCanonical
  rw [hi, ho, hw]
  exact h

/-- A phase depends on these fields only. -/
theorem PhaseFits.congr {s t : State} (h : PhaseFits s) (hh : t.hdr = s.hdr) (hm : t.mode = s.mode)
    (ht : t.target = s.target) (ho : t.outLen = s.outLen) (hu : t.units.toNat ≤ t.target.toNat)
    (hp : t.mode.control = false → t.ctl = 0 ∧ t.cnt = 0) : PhaseFits t where
  header := by rw [hh]; exact h.header
  mode := by unfold ModeFits; rw [hm, hh]; exact h.mode
  target := by unfold TargetFits; rw [ht, hm, hh]; exact h.target
  outLen := by rw [ho, hh]; exact h.outLen
  units := hu
  pixels := hp

/-- The fetch pointers depend on these fields only. -/
theorem SegmentFits.congr {s t : State} (h : SegmentFits s) (hl : t.limit = s.limit) (hn : t.inLen = s.inLen)
    (h1 : s.ip.toNat ≤ t.ip.toNat) (h2 : t.ip.toNat ≤ s.limit.toNat) : SegmentFits t := by
  obtain ⟨a, b, c⟩ := h
  unfold SegmentFits
  rw [hl, hn]
  exact ⟨a.trans h1, h2, c⟩

end Sys2Proof.Safety
end

