-- ==== Sys2Proof/Laws/Parameters.lean ====
section
/-!
SUPPORT. The machine under the OPEN parameters: that it is `exec` and `step` at the default, what the arms for a supplied
parameter can answer, and the inversion of `stepWith`.
-/

namespace Sys2Proof.Machine

/-- An instruction that looks at no parameter means what `exec` says. -/
theorem execWith_eq_exec {p : Params} {i : Instr} (hb : i ≠ .bref) (hd : ∀ t, i ≠ .pixDelta t) (s : State) :
    execWith p i s = exec i s := by
  cases i with
  | bref => exact absurd rfl hb
  | pixDelta t => exact absurd rfl (hd t)
  | _ => rfl

/-- At the spec's default the parameterised meaning is `exec`. -/
theorem execWith_default : execWith Config.params = exec := by
  funext i s
  cases i <;> rfl

/-- A property that every delivered unit keeps holds after a copy. -/
theorem copyUnits_keeps {P : State → Prop} (hP : ∀ b s t, P s → emitUnit b s = .next t → P t) {n pos : Nat}
    {s t : State} (hs : P s) (h : copyUnits n pos s = .next t) : P t := by
  induction n generalizing pos s with
  | zero => exact Host.Outcome.next.inj h ▸ hs
  | succ n ih =>
    rw [copyUnits, andThen_eq_next] at h
    obtain ⟨s1, h1, h2⟩ := h
    exact ih (hP _ _ _ hs h1) h2

/-- What BREF can answer under a parameter (42_tokenstream.md R114): a trap, or the copy. -/
theorem brefWith_next {b : Option BackrefFn} {s t : State} (h : brefWith b s = .next t) :
    tokenDue false s = true ∧
    (t = trapState .reservedToken 0 s ∨ t = trapState .truncatedStream 0 s ∨
     ∃ f k pos n, b = some f ∧ s.limit.toNat ≤ s.inLen.toNat ∧
       f (streamBytes s) s.ip s.limit s.wp = .copy k pos n ∧ s.ip.toNat + k ≤ s.limit.toNat ∧
       s.units.toNat + n ≤ s.target.toNat ∧
       copyUnits n pos.toNat (useControlBit (advance k s)) = .next t) := by
  unfold brefWith at h
  rw [ite_refused_eq_next] at h
  refine ⟨h.1, ?_⟩
  cases b with
  | none => exact .inl (Host.Outcome.next.inj h.2).symm
  | some f =>
    obtain ⟨-, h⟩ := h
    simp only at h
    split_ifs at h with hl
    cases hf : f (streamBytes s) s.ip s.limit s.wp with
    | truncated => rw [hf] at h; exact .inr (.inl (Host.Outcome.next.inj h).symm)
    | refuse => rw [hf] at h; exact .inl (Host.Outcome.next.inj h).symm
    | copy k pos n =>
      rw [hf] at h
      simp only at h
      split_ifs at h with h1 h2
      · exact .inr (.inl (Host.Outcome.next.inj h).symm)
      · exact .inl (Host.Outcome.next.inj h).symm
      · exact .inr (.inr ⟨f, k, pos, n, rfl, by omega, hf, by omega, by omega, h⟩)

/-- What PIX.DELTA can answer under a parameter (44_v2_predictor.md R138): a trap, or the delivered pixel. -/
theorem deltaWith_next {d : Option DeltaFn} {tag : Byte} {s t : State} (h : deltaWith d tag s = .next t) :
    pixelDue s = true ∧ tag ≠ 0 ∧
    (t = trapState .truncatedStream 0 s ∨ t = trapState .reservedTag tag s ∨
     ∃ f k q0 q1 q2 s1, d = some f ∧ s.limit.toNat ≤ s.inLen.toNat ∧ loadNeighbour s = .next s1 ∧
       f tag (streamBytes s) s.ip s.limit (neighbourSeen s1) = .pixel k q0 q1 q2 ∧
       s.ip.toNat + k ≤ s.limit.toNat ∧ pixelStride s.mode * s.units.toNat + 2 < s.outLen.toNat ∧
       t = countUnit (advance k (winPut q2 (winPut q1 (winPut q0
         (storeOut (pixelCells s.mode s.units.toNat q0 q1 q2) s1)))))) := by
  unfold deltaWith at h
  rw [ite_refused_eq_next, guardFetch_eq_next] at h
  simp only [Bool.and_eq_true, bne_iff_ne, ne_eq] at h
  obtain ⟨⟨h0, h0'⟩, ⟨-, h1⟩ | ⟨-, -, h⟩⟩ := h
  · exact ⟨h0, h0', .inl h1⟩
  · refine ⟨h0, h0', ?_⟩
    cases d with
    | none => exact .inr (.inl (Host.Outcome.next.inj h).symm)
    | some f =>
      simp only at h
      split_ifs at h with hl
      rw [andThen_eq_next] at h
      obtain ⟨s1, h4, h5⟩ := h
      cases hf : f tag (streamBytes s) s.ip s.limit (neighbourSeen s1) with
      | truncated => rw [hf] at h5; exact .inl (Host.Outcome.next.inj h5).symm
      | refuse => rw [hf] at h5; exact .inr (.inl (Host.Outcome.next.inj h5).symm)
      | pixel k q0 q1 q2 =>
        rw [hf] at h5
        simp only at h5
        split_ifs at h5 with h6
        · exact .inl (Host.Outcome.next.inj h5).symm
        · have h7 := (loadNeighbour_next h4).1
          have hm : s1.mode = s.mode := by rw [h7]
          have hu : s1.units = s.units := by rw [h7]
          have ho : s1.outLen = s.outLen := by rw [h7]
          obtain ⟨h8, h9⟩ := putPixel_eq_next.mp h5
          rw [hm, hu] at h8 h9
          rw [ho] at h8
          exact .inr (.inr ⟨f, k, q0, q1, q2, s1, rfl, by omega, h4, hf, by omega, h8, h9⟩)

/-- The inversion of `stepWith`. -/
theorem stepWith_next {p : Params} {s t : State} (h : stepWith p s = .next t) :
    ((hostMove s).writes && s.seq.busy) = false ∧
    ((select (hostMove s) (popHost s) = .quiescent ∧ t = hostWrite (hostMove s) (popHost s)) ∨
     ∃ i : Instr, i.WellFormed ∧ select (hostMove s) (popHost s) = .row i.row ∧
       execWith p i (popHost s) = .next t) :=
  stepBy_next h

end Sys2Proof.Machine
end

