-- ==== Sys2Proof/Laws/PerInstr.lean ====
section
/-!
SUPPORT. The statements made of every instruction, one lemma per constructor: an item's bytes are no more than the fetch of
its row looks at (30_encoding.md R60, R69).
-/

namespace Sys2Proof.Laws

/-- The encoding of `i` is as long as its row's fetch, or, for PIX.DELTA, the one byte of it that has a layout. -/
def ItemLength.Statement (i : Instr) : Prop :=
  (encode i).length = i.row.length ∨ ((∃ t, i = .pixDelta t) ∧ (encode i).length = 1)

theorem ItemLength.start : ItemLength.Statement .start := .inl rfl
theorem ItemLength.hload (h : Header) : ItemLength.Statement (.hload h) := .inl rfl
theorem ItemLength.hchk : ItemLength.Statement .hchk := .inl rfl
theorem ItemLength.ctl (k : Byte) : ItemLength.Statement (.ctl k) := .inl rfl
theorem ItemLength.lit (d : Byte) : ItemLength.Statement (.lit d) := .inl rfl
theorem ItemLength.bref : ItemLength.Statement .bref := .inl rfl
theorem ItemLength.endPhase : ItemLength.Statement .endPhase := .inl rfl
theorem ItemLength.pixRaw (p0 p1 p2 : Byte) : ItemLength.Statement (.pixRaw p0 p1 p2) := .inl rfl
theorem ItemLength.pixDelta (t : Byte) : ItemLength.Statement (.pixDelta t) := .inr ⟨⟨t, rfl⟩, rfl⟩
theorem ItemLength.alen (n : Word) : ItemLength.Statement (.alen n) := .inl rfl
theorem ItemLength.reset : ItemLength.Statement .reset := .inl rfl

end Sys2Proof.Laws
end

