-- ==== Sys2Proof/Tests/Slice0.lean ====
section
/-!
SUPPORT. The model's own tests: expected results are those of spec/95_test_vectors.md (the vector is named) or worked by hand
from the rule named; and, for every statement with hypotheses, a concrete state and operands that meet them.
-/

namespace Sys2Proof.Tests

open Sys2Proof Sys2Proof.Machine Sys2Proof.Safety

/-! ### Helpers -/

/-- A header with sentinel -1 and no offsets. -/
def header (t w h packed unpacked : Int) : Header :=
  { htype := BitVec.ofInt 32 t, hsent := BitVec.ofInt 32 (-1), hoffx := 0, hoffy := 0,
    hwidth := BitVec.ofInt 32 w, hheight := BitVec.ofInt 32 h,
    hpacked := BitVec.ofInt 32 packed, hunpacked := BitVec.ofInt 32 unpacked }

/-- A state with a seeded window, IP at the payload and an image of 64 bytes. -/
def phase (q : Seq) (m : Mode) (h : Header) (units target outLen : Nat) : State :=
  { State.reset with
    seq := q, mode := m, hdr := h, ip := 32, limit := 64, inLen := 64, win := [], wp := 4078,
    units := BitVec.ofNat 32 units, target := BitVec.ofNat 32 target, outLen := BitVec.ofNat 32 outLen }

/-- A field of the next state; `none` where the step stops. -/
def after {α : Type} (f : State → α) : Result → Option α
  | .next s    => some (f s)
  | .fault _   => none
  | .refused _ => none

/-- ERR, EIP and EINFO of a state in FAULT. -/
def trapOf (s : State) : Option (Err × Word × Byte) :=
  if s.seq = .fault then some (s.err, s.eip, s.einfo) else none

/-- The 32 header bytes `H0` of 95_test_vectors.md. -/
def h0 : List Byte :=
  [0, 0, 0, 0, 0xFF, 0xFF, 0xFF, 0xFF, 0, 0, 0, 0, 0, 0, 0, 0,
   2, 0, 0, 0, 1, 0, 0, 0, 7, 0, 0, 0, 6, 0, 0, 0]

/-- A control-byte phase of type 0, one 1 by 1 image: nothing decoded yet. -/
def v0Start : State :=
  { phase .run .v0 (header 0 1 1 4 3) 0 3 3 with inp := [(32, 0xFF), (33, 0x01), (34, 0x02), (35, 0x03)] }

/-- The same after its control byte `0xFF`. -/
def v0Token : State := { v0Start with ctl := 0xFF, cnt := 8, ip := 33 }

/-- A token of type 1 with the control bit 1, the second of its phase. -/
def v1Token : State := { phase .run .v1 (header 1 2 1 3 6) 1 2 6 with ctl := 0x7F, cnt := 7, ip := 34 }

/-- The alpha token of a 1 by 1 image of type 3. -/
def v3aToken : State := { phase .run .v3a (header 3 1 1 10 4) 0 1 4 with ctl := 0xFF, cnt := 8, ip := 41 }

/-- The first pixel of a 1 by 1 image of type 2. -/
def v2Start : State :=
  { phase .run .v2 (header 2 1 1 4 3) 0 1 3 with inp := [(32, 0x00), (33, 0x0A), (34, 0x14), (35, 0x1E)] }

/-- The first pixel of a 1 by 1 image of type 3. -/
def v3Start : State :=
  { phase .run .v3rgb (header 3 1 1 10 4) 0 1 4 with inp := [(32, 0x00), (33, 0x0A), (34, 0x14), (35, 0x1E)] }

/-- A 1 by 1 image of type 3 between its planes. -/
def v3Alen : State :=
  { phase .alen .v3rgb (header 3 1 1 10 4) 1 1 4 with
    ip := 36, limit := 42, inLen := 42, out := [(0, 0x0A), (1, 0x14), (2, 0x1E)],
    win := [(4078, 0x0A), (4079, 0x14), (4080, 0x1E)], wp := 4081,
    inp := [(36, 0x02), (37, 0x00), (38, 0x00), (39, 0x00), (40, 0xFF), (41, 0xFF)] }

/-- A finished run of type 0. -/
def v0Done : State :=
  { phase .done .v0 (header 0 1 1 4 3) 3 3 3 with out := [(0, 1), (1, 2), (2, 3)] }

/-- Reset with a seeded window: the block waiting for START. -/
def waiting : State := { State.reset with win := [], inLen := 64, host := [.start] }

/-! ### Well-formedness, decoding, the seed -/

/-- The one check: tag 0 is PIX.RAW, so PIX.DELTA with tag 0 is refused (30_encoding.md R65). -/
theorem test_wellFormed_refuses_tag_zero : (Instr.pixDelta 0).wellFormed = false := by decide

theorem test_wellFormed_accepts_tag : (Instr.pixDelta 0x01).wellFormed = true := by decide

/-- Vector H18: offsets 5 and -3 are the bytes `05 00 00 00 FD FF FF FF`; the type -1 is `FF FF FF FF` (H5). -/
theorem test_decode_hload :
    takeHeader ([0xFF, 0xFF, 0xFF, 0xFF, 0xFF, 0xFF, 0xFF, 0xFF, 5, 0, 0, 0, 0xFD, 0xFF, 0xFF, 0xFF,
      0x02, 0x01, 0, 0, 0, 0, 1, 0, 0, 0, 0, 0x80, 16, 0, 0, 0] : List Byte) =
    some ({ htype := BitVec.ofInt 32 (-1), hsent := BitVec.ofInt 32 (-1), hoffx := 5,
            hoffy := BitVec.ofInt 32 (-3), hwidth := 258, hheight := 65536,
            hpacked := BitVec.ofInt 32 (-2147483648), hunpacked := 16 }, []) := by decide

/-- 30_encoding.md R60: the host commands and the sequencer steps take no byte. -/
theorem test_decode_zero_length :
    decode .start [0xAA] = .ok (.start, [0xAA]) ∧ decode .reset [] = .ok (.reset, []) ∧
    decode .hchk [] = .ok (.hchk, []) ∧ decode .endPhase [0xAA] = .ok (.endPhase, [0xAA]) ∧
    decode .bref [0xAA] = .ok (.bref, [0xAA]) := by decide

/-- 30_encoding.md R62, R63: the control byte and the literal byte are the item. -/
theorem test_decode_token_bytes :
    decode .ctl [0x1F, 0x01] = .ok (.ctl 0x1F, [0x01]) ∧ decode .lit [0xB4] = .ok (.lit 0xB4, []) ∧
    decode .ctl [] = .error (.tooShort .ctl) := by decide

/-- 30_encoding.md R65, vectors X1, X2: tag 0 and three bytes, or another tag. -/
theorem test_decode_pixels :
    decode .pix [0x00, 0x04, 0x05, 0x06, 0x00] = .ok (.pixRaw 0x04 0x05 0x06, [0x00]) ∧
    decode .pix [0xFF] = .ok (.pixDelta 0xFF, []) ∧
    decode .pix [0x00, 0x0A, 0x14] = .error (.tooShort .pix) := by decide

/-- 30_encoding.md R66, vector Y6: the alpha length `FF FF FF 7F` is 2147483647. -/
theorem test_decode_alen :
    decode .alen [0xFF, 0xFF, 0xFF, 0x7F] = .ok (.alen 2147483647, []) := by decide

/-- Vector K1. -/
theorem test_seed :
    [0, 12, 13, 25, 26, 3314, 3315, 3327, 3328, 3329, 3583, 3584, 3585, 3839, 3840, 3967, 3968, 4077,
      4078, 4095].map seed =
    [0x00, 0x00, 0x01, 0x01, 0x02, 0xFE, 0xFF, 0xFF, 0x00, 0x01, 0xFF, 0xFF, 0xFE, 0x00, 0x00, 0x00,
      0x20, 0x20, 0x00, 0x00] := by decide

/-- Vectors K4, K5, K6: the cursor wraps, and a window address is taken modulo 4096. -/
theorem test_window :
    (winPut 0xCD { v0Start with wp := 4095 }).wp = 0 ∧
    winGet 4095 (winPut 0xCD { v0Start with wp := 4095 }) = 0xCD ∧
    winGet (4096 + 5) v0Start = 0x00 ∧ winGet 3968 v0Start = 0x20 := by decide

/-- Vectors N5, N7, N9 of the reference encoder. -/
theorem test_encoder :
    encV0 [1, 2, 3, 4, 5, 6, 7, 8, 9] = [0xFF, 1, 2, 3, 4, 5, 6, 7, 8, 0xFF, 9] ∧
    encV1 [0x10, 0x11, 0x12, 0x20, 0x21, 0x22] = [0xFF, 0x10, 0x20] ∧
    encV3 [0x0A, 0x14, 0x1E] [0xFF] = [0x00, 0x0A, 0x14, 0x1E, 2, 0, 0, 0, 0xFF, 0xFF] := by decide

/-! ### One step of each instruction -/

/-- Vector H21. -/
theorem test_start_leaves_fault :
    after (fun t => (t.seq, t.err, t.eip, t.ip))
      (step { v0Start with seq := .fault, err := .reservedToken, eip := 38, host := [.start] }) =
    some (.hload, .none, 0, 0) := by decide

/-- Vector H22: the step under START while busy is the CTL step. -/
theorem test_start_ignored :
    after (fun t => (t.seq, t.cnt))
      (step { v0Start with host := [.start] }) = some (.run, 8) := by decide

/-- Program P1, step 2. -/
theorem test_hload :
    after (fun t => (t.seq, t.hdr, t.ip))
      (step { v0Start with seq := .hload, ip := 0, inp := placeBytes h0 0 [] }) =
    some (.hchk, header 0 2 1 7 6, 0) := by decide

/-- Vector H12: 31 bytes. -/
theorem test_hload_short :
    after trapOf (step { v0Start with seq := .hload, ip := 0, inLen := 31 }) =
      some (some (.invalidHeader, 0, 0)) := by decide

/-- Vector H11: the product is not wrapped. -/
theorem test_hchk_size :
    after trapOf (step { v0Start with seq := .hchk, ip := 0, hdr := header 0 65536 65536 0 0 }) =
      some (some (.sizeMismatch, 0, 0)) := by decide

/-- Vector H19, type 3, with HPACKED = 25 in an image of 57 bytes. -/
theorem test_hchk_type3 :
    after (fun t => (t.mode, t.target, t.outLen, t.limit, t.ip, t.wp))
      (step { v0Start with seq := .hchk, ip := 0, inLen := 57, hdr := header 3 2 2 25 16 }) =
    some (.v3rgb, 4, 16, 57, 32, 4078) := by decide

/-- 95_test_vectors.md section 2.3, step-level vector of CTL. -/
theorem test_ctl :
    after (fun t => (t.ctl, t.cnt, t.ip)) (step v0Start) =
      some (0xFF, 8, 33) := by decide

/-- Vector T9: the second control byte is missing. -/
theorem test_ctl_truncated :
    after trapOf (step { v0Start with units := 8, target := 9, ip := 41, limit := 41, inLen := 41 }) =
      some (some (.truncatedStream, 41, 0)) := by decide

/-- 95_test_vectors.md section 2.3, step-level vector of LIT. -/
theorem test_lit :
    after (fun t => ((t.out, winGet 4078 t, t.wp), t.units, t.ctl, t.cnt, t.ip))
      (step v0Token) =
    some (([(0, 0x01)], 0x01, 4079), 1, 0x7F, 7, 34) := by decide

/-- Vector E3: three lanes, one window byte. -/
theorem test_lit_v1 :
    after (fun t => (t.out, t.wp, t.units)) (exec (.lit 0x20) v1Token) =
      some ([(3, 0x20), (4, 0x20), (5, 0x20)], 4079, 2) := by decide

/-- Vector Z1. -/
theorem test_bref :
    step { v0Start with target := 6, units := 5, ip := 38, ctl := 0, cnt := 3, wp := 4083 } =
      .next { v0Start with target := 6, units := 5, ip := 38, ctl := 0, cnt := 3, wp := 4083,
                           seq := .fault, err := .reservedToken, eip := 38, einfo := 0 } := rfl

/-- Vector Z3: the control bit is examined before the length. -/
theorem test_bref_at_limit :
    after trapOf (step { v0Token with ctl := 0, limit := 33 }) = some (some (.reservedToken, 33, 0)) := by
  decide

/-- 95_test_vectors.md section 2.3: END from MODE = V0 with CNT = 2, CTL = 03. -/
theorem test_end :
    after (fun t => (t.seq, t.ctl, t.cnt)) (step { v0Start with units := 3, cnt := 2, ctl := 3 }) =
      some (.done, 3, 2) := by decide

/-- 95_test_vectors.md section 2.3: END from MODE = V3RGB. -/
theorem test_end_v3 : after (·.seq) (step { v3Start with units := 1 }) = some .alen := by decide

/-- Vector X9. -/
theorem test_pixRaw :
    after (fun t => ((t.out, winGet 4079 t, t.wp), t.ip, t.units, t.nbrv))
      (step v3Start) =
    some (([(0, 0x0A), (1, 0x14), (2, 0x1E)], 0x14, 4081), 36, 1, false) := by decide

/-- Program P4, step 7: the neighbour of pixel 3 of a 2 by 2 image is pixel 1. -/
theorem test_pixRaw_neighbour :
    after (fun t => (t.nbr, t.nbrv))
      (exec (.pixRaw 0x0A 0x0B 0x0C) { phase .run .v2 (header 2 2 2 16 12) 3 4 12 with
        out := [(0, 1), (1, 2), (2, 3), (3, 4), (4, 5), (5, 6), (6, 7), (7, 8), (8, 9)] }) =
    some (0x060504, true) := by decide

/-- Vector X3: the tag is the last byte. -/
theorem test_pixDelta_at_limit :
    after trapOf (step { v2Start with limit := 33, inp := [(32, 0xFF)] }) =
      some (some (.reservedTag, 32, 0xFF)) := by decide

/-- 44_v2_predictor.md section 4 with a supplied DELTA that adds the tag to the neighbour's low byte. -/
theorem test_pixDelta_supplied :
    after (fun t => (t.out, t.ip))
      (deltaWith (some (fun tag _ _ _ n => .pixel 1 (tag + (n.getD 0).extractLsb' 0 8) 0 0)) 5
        { phase .run .v2 (header 2 2 1 5 6) 1 2 6 with ip := 36, out := [(0, 7), (1, 8), (2, 9)] }) =
    some ([(0, 7), (1, 8), (2, 9), (3, 12), (4, 0), (5, 0)], 37) := by decide

/-- Vector Y8. -/
theorem test_alen :
    after (fun t => ((t.ip, t.limit, t.mode), (t.target, t.units), winGet 4078 t, t.wp)) (step v3Alen) =
      some ((40, 42, .v3a), (1, 0), 0x00, 4078) := by decide

/-- Vector Y3: the alpha length -1 leaves an empty segment. -/
theorem test_alen_negative :
    after (fun t => (t.ip, t.limit)) (exec (.alen (BitVec.ofInt 32 (-1))) v3Alen) = some (40, 40) := by
  decide

/-- Vector Z5; reset comes before every other row. -/
theorem test_reset :
    after (fun t => (t.seq, t.err, t.out, t.inLen)) (step { v0Done with host := [.reset] }) =
      some (.idle, .none, [], 64) := by decide

/-! ### Witnesses: states and operands that meet the hypotheses of the statements -/

theorem witness_DecodeOfEncode :
    (Instr.pixDelta 0xFF).WellFormed ∧ (Instr.pixDelta 0x01).WellFormed ∧
    (Instr.hload (header (-1) 1 1 4 3)).WellFormed ∧ (Instr.alen 0x80000000).WellFormed := by decide

theorem witness_EncodeOfDecode :
    decode .pix [0x01, 0x0A] = .ok (.pixDelta 0x01, [0x0A]) ∧
    decode .bref [0x0A] = .ok (.bref, [0x0A]) := by decide

theorem witness_HeaderFieldBits : (List.replicate 32 (0xA5 : Byte)).length = 32 ∧ 7 < 8 ∧ 31 < 32 := by
  decide

theorem witness_CanonicalMemoryIsUnique :
    Mem.wf .win [(0, 0xFF), (4095, 0x01)] = true ∧ Mem.wf .out [(0, 0xFF), (4095, 0x01)] = true ∧
    Mem.wf .win [(4096, 0x01)] = false ∧ Mem.wf .win [(0, 0x00)] = false := by decide

theorem witness_StartBeginsRun :
    waiting.seq = .idle ∧ v0Done.seq = .done ∧ ({ v0Done with seq := .fault } : State).seq = .fault := by
  decide

theorem witness_StartIgnoredWhileBusy :
    v0Start.seq.busy = true ∧ ({ v0Start with host := [.start] } : State).host = .start :: [] ∧
    HostMove.start ≠ .reset ∧ HostMove.start.writes = false := by decide

theorem witness_ResetCommand : hostMove { v0Token with host := [.reset] } = .reset := by decide

/-- IN_LEN at 32 and at 31. -/
theorem witness_HloadLoadsHeader :
    let s : State := { v0Start with seq := .hload, inLen := 32 }
    s.seq = .hload ∧ 32 ≤ s.inLen.toNat ∧ HostQuiet s ∧
    ({ s with inLen := 31 } : State).inLen.toNat < 32 := by
  refine ⟨by decide, by decide, ⟨by decide, by decide⟩, by decide⟩

/-- Types -1 and 4 and sentinel 0 (check 1), a size one too large (check 2), a width 0 and two negative dimensions
(check 3), and every type with the checks passed. -/
theorem witness_HchkValidatesHeader :
    headerInvalid (header (-1) 1 1 4 3) = true ∧ headerInvalid (header 4 1 1 4 3) = true ∧
    headerInvalid { header 0 1 1 4 3 with hsent := 0 } = true ∧
    (headerInvalid (header 3 1 1 4 5) = false ∧ sizeMismatch (header 3 1 1 4 5) = true) ∧
    (headerInvalid (header 0 0 1 4 0) = false ∧ sizeMismatch (header 0 0 1 4 0) = false ∧
      dimensionInvalid (header 0 0 1 4 0) = true) ∧
    (sizeMismatch (header 0 (-2) (-1) 7 6) = false ∧ dimensionInvalid (header 0 (-2) (-1) 7 6) = true) ∧
    (∀ t ∈ [0, 1, 2, 3], headerInvalid (header t 1 1 4 (if t = 3 then 4 else 3)) = false ∧
      sizeMismatch (header t 1 1 4 (if t = 3 then 4 else 3)) = false ∧
      dimensionInvalid (header t 1 1 4 (if t = 3 then 4 else 3)) = false) := by decide

theorem witness_VariantSelectorTable :
    ∀ t ∈ [0, 1, 2, 3], after (·.seq)
      (exec .hchk { v0Start with seq := .hchk, hdr := header t 1 1 4 (if t = 3 then 4 else 3) }) =
        some .run := by decide

/-- The segment ends before the control byte, and just after it. -/
theorem witness_CtlLoadsControlByte :
    v0Start.seq = .run ∧ v0Start.mode.control = true ∧ v0Start.units.toNat < v0Start.target.toNat ∧
    v0Start.cnt = 0 ∧ ({ v0Start with limit := 32 } : State).limit.toNat ≤ v0Start.ip.toNat ∧
    v0Start.ip.toNat < ({ v0Start with limit := 33, inLen := 33 } : State).limit.toNat ∧
    HostQuiet v0Start ∧ 0xFF = inByte v0Start v0Start.ip.toNat := by
  refine ⟨by decide, by decide, by decide, by decide, by decide, by decide, ⟨by decide, by decide⟩, by decide⟩

/-- In each control-byte mode the last unit of the phase, whose last OUT address is the last one there is. -/
theorem witness_LitDeliversUnit :
    (∀ s ∈ [{ v0Token with units := 2 }, v1Token, v3aToken],
      s.seq = .run ∧ s.mode.control = true ∧ s.units.toNat + 1 = s.target.toNat ∧ s.cnt ≠ 0 ∧
        s.ctl.getLsbD 0 = true ∧ s.ip.toNat < s.limit.toNat ∧ s.limit.toNat ≤ s.inLen.toNat) ∧
    (∀ a, UnitLane .v0 2 a → a < 3) ∧ (∀ a, UnitLane .v1 1 a → a < 6) ∧
    (∀ a, UnitLane .v3a 0 a → a < 4) ∧
    ({ v0Token with limit := 33 } : State).limit.toNat ≤ v0Token.ip.toNat ∧
    HostQuiet v0Token ∧ 0x01 = inByte v0Token v0Token.ip.toNat := by
  refine ⟨by decide, ?_, ?_, ?_, by decide, ⟨by decide, by decide⟩, by decide⟩ <;> intro a h <;>
    simp only [UnitLane] at h <;> omega

theorem witness_BrefTrapsReservedToken :
    let s : State := { v0Token with ctl := 0xFE, limit := 33 }
    s.seq = .run ∧ s.mode.control = true ∧ s.units.toNat < s.target.toNat ∧ s.cnt ≠ 0 ∧
      s.ctl.getLsbD 0 = false := by decide

/-- One supplied BACKREF for each clause; the third consumes one byte past LIMIT, the fourth copies one unit too many. -/
theorem witness_BrefSuppliedTraps :
    let s : State := { v0Token with ctl := 0xFE, limit := 34 }
    (s.seq = .run ∧ s.mode.control = true ∧ s.units.toNat < s.target.toNat ∧ s.cnt ≠ 0 ∧
      s.ctl.getLsbD 0 = false ∧ s.limit.toNat ≤ s.inLen.toNat) ∧
    after trapOf (brefWith (some fun _ _ _ _ => .truncated) s) = some (some (.truncatedStream, 33, 0)) ∧
    after trapOf (brefWith (some fun _ _ _ _ => .refuse) s) = some (some (.reservedToken, 33, 0)) ∧
    (s.limit.toNat < s.ip.toNat + 2 ∧
      after trapOf (brefWith (some fun _ _ _ _ => .copy 2 0 1) s) =
        some (some (.truncatedStream, 33, 0))) ∧
    (s.ip.toNat + 1 ≤ s.limit.toNat ∧ s.target.toNat < s.units.toNat + 4 ∧
      after trapOf (brefWith (some fun _ _ _ _ => .copy 1 0 4) s) =
        some (some (.reservedToken, 33, 0))) := by
  refine ⟨by decide, by decide, by decide, by decide, by decide⟩

/-- A copy of three units that starts one byte before the cursor: the byte there, three times (70_reset_and_hazards.md
R209). -/
theorem witness_BrefCopyRepeatsRecentOutput :
    let s : State := { v0Token with ctl := 0xFE, limit := 34, win := [(4077, 0x55)] }
    (s.seq = .run ∧ s.mode.control = true ∧ s.units.toNat < s.target.toNat ∧ s.cnt ≠ 0 ∧
      s.ctl.getLsbD 0 = false ∧ s.limit.toNat ≤ s.inLen.toNat ∧ s.ip.toNat + 1 ≤ s.limit.toNat ∧
      s.units.toNat + 3 ≤ s.target.toNat ∧ copyDistance s.wp 4077 = 1) ∧
    (∀ j a, j < 3 → UnitLane s.mode (s.units.toNat + j) a → a < s.outLen.toNat) ∧
    after (·.out) (brefWith (some fun _ _ _ _ => .copy 1 4077 3) s) =
      some [(0, 0x55), (1, 0x55), (2, 0x55)] := by
  refine ⟨by decide, ?_, by decide⟩
  intro j a hj h
  change a = 0 + j at h
  change a < 3
  omega

theorem witness_EndOfPhase :
    (∀ s ∈ [{ v0Start with units := 3 }, { v3Start with units := 1 }],
      s.seq = .run ∧ s.units = s.target) ∧
    HostQuiet { v3Start with units := 1 } := ⟨by decide, by decide, by decide⟩

/-- The first pixel; the last pixel of row 0 of a 2 by 2 image; the first of row 1. -/
theorem witness_NeighbourLoad :
    v2Start.units.toNat = 0 ∧
    (let s : State := { phase .run .v2 (header 2 2 2 16 12) 1 4 12 with
        out := [(0, 1), (1, 2), (2, 3), (3, 4), (4, 5), (5, 6)] }
     s.units.toNat ≠ 0 ∧ (s.units.toNat : Int) < s.hdr.hwidth.toInt ∧ 3 * 0 + 2 < s.outLen.toNat ∧
     Mem.read .out s.out 0 = some 1 ∧ Mem.read .out s.out 1 = some 2 ∧ Mem.read .out s.out 2 = some 3) ∧
    (let s : State := { phase .run .v3rgb (header 3 2 2 25 16) 2 4 16 with
        out := [(0, 1), (1, 2), (2, 3), (4, 4), (5, 5), (6, 6)] }
     s.units.toNat ≠ 0 ∧ s.hdr.hwidth.toInt ≤ (s.units.toNat : Int) ∧ 4 * 0 + 2 < s.outLen.toNat ∧
     Mem.read .out s.out 0 = some 1 ∧ Mem.read .out s.out 1 = some 2 ∧
     Mem.read .out s.out 2 = some 3) := by decide

/-- The last pixel of each pixel mode, its four bytes the last of the segment. -/
theorem witness_PixRawDeliversPixel :
    ∀ s ∈ [{ v2Start with limit := 36, inLen := 36 }, { v3Start with limit := 36, inLen := 36 }],
      s.seq = .run ∧ s.mode.control = false ∧ s.units.toNat < s.target.toNat ∧
      s.ip.toNat + 4 ≤ s.limit.toNat ∧ s.limit.toNat ≤ s.inLen.toNat ∧ 0 < s.hdr.hwidth.toInt ∧
      (if s.mode = .v2 then 3 else 4) * s.units.toNat + 2 < s.outLen.toNat := by decide

theorem witness_PixDeltaTrapsReservedTag :
    let s : State := { v2Start with limit := 33, inLen := 33 }
    s.seq = .run ∧ s.mode.control = false ∧ s.units.toNat < s.target.toNat ∧ (0xFF : Byte) ≠ 0 ∧
      s.ip.toNat < s.limit.toNat ∧ s.limit.toNat ≤ s.inLen.toNat := by decide

/-- One supplied DELTA for each clause, at the first pixel and with LIMIT one byte past the tag. -/
theorem witness_PixDeltaSuppliedPixel :
    let s : State := { v2Start with limit := 34, inLen := 34 }
    (s.seq = .run ∧ s.mode.control = false ∧ s.units.toNat < s.target.toNat ∧ (1 : Byte) ≠ 0 ∧
      s.ip.toNat < s.limit.toNat ∧ s.limit.toNat ≤ s.inLen.toNat) ∧
    (∃ s1, loadNeighbour s = .next s1 ∧ s1.nbrv = false) ∧
    after trapOf (deltaWith (some fun _ _ _ _ _ => .truncated) 1 s) =
      some (some (.truncatedStream, 32, 0)) ∧
    after trapOf (deltaWith (some fun _ _ _ _ _ => .refuse) 1 s) = some (some (.reservedTag, 32, 1)) ∧
    (s.limit.toNat < s.ip.toNat + 3 ∧
      after trapOf (deltaWith (some fun _ _ _ _ _ => .pixel 3 7 8 9) 1 s) =
        some (some (.truncatedStream, 32, 0))) ∧
    (s.ip.toNat + 2 ≤ s.limit.toNat ∧ 3 * 0 + 2 < s.outLen.toNat ∧
      after (·.out) (deltaWith (some fun _ _ _ _ _ => .pixel 2 7 8 9) 1 s) =
        some [(0, 7), (1, 8), (2, 9)]) :=
  ⟨by decide, ⟨_, rfl, rfl⟩, by decide, by decide, by decide, by decide⟩

/-- LIMIT one byte short, and exactly after the field. -/
theorem witness_AlenOpensAlphaPlane :
    v3Alen.seq = .alen ∧ ({ v3Alen with limit := 39 } : State).limit.toNat < v3Alen.ip.toNat + 4 ∧
    (let s : State := { v3Alen with limit := 40, inLen := 40 }
     s.ip.toNat + 4 ≤ s.limit.toNat ∧ s.limit.toNat ≤ s.inLen.toNat ∧
     0 ≤ s.hdr.hwidth.toInt * s.hdr.hheight.toInt ∧
     s.hdr.hwidth.toInt * s.hdr.hheight.toInt < 4294967296) := by decide

/-- Three bytes for a tag 0, and no byte for a tag. -/
theorem witness_PixelTruncationTraps :
    v2Start.seq = .run ∧ v2Start.mode.control = false ∧ v2Start.units.toNat < v2Start.target.toNat ∧
    ({ v2Start with limit := 35 } : State).limit.toNat < v2Start.ip.toNat + 4 ∧
    ({ v2Start with limit := 32 } : State).limit.toNat ≤ v2Start.ip.toNat := by decide

/-- A step into FAULT for each of the five causes (the hypotheses of `TrapEntryIsPrecise` and `FaultCauses`). -/
theorem witness_TrapEntryIsPrecise_FaultCauses :
    after trapOf (exec (.hload Header.zero) { v0Start with seq := .hload, inLen := 31 }) =
      some (some (.invalidHeader, 32, 0)) ∧
    after trapOf (exec .hchk { v0Start with seq := .hchk, hdr := header 0 1 1 4 4 }) =
      some (some (.sizeMismatch, 32, 0)) ∧
    after trapOf (exec (.ctl 0xFF) { v0Start with limit := 32 }) =
      some (some (.truncatedStream, 32, 0)) ∧
    after trapOf (exec .bref { v0Token with ctl := 0xFE }) = some (some (.reservedToken, 33, 0)) ∧
    after trapOf (exec (.pixDelta 0xFF) v2Start) = some (some (.reservedTag, 32, 0xFF)) ∧
    v0Start.seq ≠ .fault ∧ v2Start.seq ≠ .fault := by
  refine ⟨by decide, by decide, by decide, by decide, by decide, by decide⟩

theorem witness_IoFailureNeverRaised :
    after (·.err) (exec .endPhase { v0Start with units := 3, err := .ioFailure }) = some .ioFailure := by
  decide

theorem witness_FaultPersists :
    let s : State := { v0Start with seq := .fault, err := .reservedTag, einfo := 1, host := [.writeLen 5] }
    after trapOf (step s) = some (some (.reservedTag, 0, 1)) ∧ s.seq = .fault ∧
      hostMove s ≠ .start ∧ hostMove s ≠ .reset := by decide

theorem witness_StepRunsDecoded :
    ((hostMove v0Start).writes && v0Start.seq.busy) = false ∧
    select (hostMove v0Start) (popHost v0Start) = .row .ctl ∧
    decode .ctl (itemBytes .ctl (popHost v0Start)) = .ok (.ctl 0xFF, []) := by decide

/-- A state for each row of the table. -/
theorem witness_StepSelectionTable :
    hostMove { v0Token with host := [.reset] } = .reset ∧
    (waiting.seq.busy = false ∧ hostMove waiting = .start) ∧
    (v0Done.seq.busy = false ∧ hostMove v0Done = .idle) ∧
    (∀ q ∈ [Seq.hload, .hchk, .alen], ({ v0Start with seq := q } : State).seq = q) ∧
    (let s : State := { v0Start with units := 3 }
     s.seq = .run ∧ s.units = s.target) ∧
    (∀ s ∈ [v0Start, v0Token, { v0Token with ctl := 0xFE }],
      s.seq = .run ∧ s.units ≠ s.target ∧ s.mode.control = true ∧ s.ip.toNat < s.limit.toNat ∧
        s.limit.toNat ≤ s.inLen.toNat) ∧
    (v0Start.cnt = 0 ∧ v0Token.cnt ≠ 0 ∧ v0Token.ctl.getLsbD 0 = true ∧
      (0xFE : Byte).getLsbD 0 = false) ∧
    (let s : State := { v2Start with limit := 36, inLen := 36 }
     s.seq = .run ∧ s.units ≠ s.target ∧ s.mode.control = false ∧ s.ip.toNat + 4 ≤ s.limit.toNat ∧
       s.limit.toNat ≤ s.inLen.toNat ∧ inByte s s.ip.toNat = 0) ∧
    (let s : State := { v2Start with inp := [(32, 0x01)], limit := 33, inLen := 33 }
     s.ip.toNat < s.limit.toNat ∧ s.limit.toNat ≤ s.inLen.toNat ∧ inByte s s.ip.toNat ≠ 0) ∧
    (v3Alen.seq = .alen ∧ v3Alen.ip.toNat + 4 ≤ v3Alen.limit.toNat ∧
      v3Alen.limit.toNat ≤ v3Alen.inLen.toNat) := by decide

/-- Every state of the table asserts nothing. -/
theorem witness_HostQuiet : HostQuiet v0Start ∧ HostQuiet v3Alen ∧ HostQuiet waiting :=
  ⟨⟨by decide, by decide⟩, ⟨by decide, by decide⟩, ⟨by decide, by decide⟩⟩

theorem witness_HostWritesBetweenRuns :
    ({ v0Done with host := [.writeIn 0xFFFFFFFF 1] } : State).host = .writeIn 0xFFFFFFFF 1 :: [] ∧
    ({ v0Done with host := [.writeLen 0] } : State).host = .writeLen 0 :: [] ∧
    v0Done.seq.busy = false := by decide

theorem witness_HostWriteWhileBusyRefused :
    v0Start.seq.busy = true ∧ (hostMove { v0Start with host := [.writeLen 0] }).writes = true ∧
    (hostMove { v0Start with host := [.writeIn 0 0] }).writes = true := by decide

theorem witness_BlockNeverWritesIn :
    v0Token.seq.busy = true ∧ ∃ t, step v0Token = .next t := ⟨by decide, _, rfl⟩

theorem witness_HeaderWrittenByHloadOnly :
    let s : State := { v0Start with seq := .hload }
    after (·.hdr) (exec (.hload Header.zero) s) = some Header.zero ∧ Header.zero ≠ s.hdr := by decide

/-! ### Witnesses: states of the invariant -/

theorem inv_v0Start : Inv v0Start where
  canonical := ⟨by decide, by decide, by decide⟩
  recorded := ⟨by decide, by decide⟩
  loading := by decide
  loaded := by decide
  phase := fun _ =>
    { header := ⟨by decide, by decide, by decide⟩, mode := .inl (by decide),
      target := by unfold TargetFits; decide, outLen := by decide, units := by decide, pixels := by decide }
  segment := fun _ => ⟨by decide, by decide, by decide⟩
  rgbDone := by decide
  allDone := by decide

theorem inv_v2Start : Inv v2Start where
  canonical := ⟨by decide, by decide, by decide⟩
  recorded := ⟨by decide, by decide⟩
  loading := by decide
  loaded := by decide
  phase := fun _ =>
    { header := ⟨by decide, by decide, by decide⟩, mode := .inl (by decide),
      target := by unfold TargetFits; decide, outLen := by decide, units := by decide, pixels := by decide }
  segment := fun _ => ⟨by decide, by decide, by decide⟩
  rgbDone := by decide
  allDone := by decide

theorem inv_v3Alen : Inv v3Alen where
  canonical := ⟨by decide, by decide, by decide⟩
  recorded := ⟨by decide, by decide⟩
  loading := by decide
  loaded := by decide
  phase := fun _ =>
    { header := ⟨by decide, by decide, by decide⟩, mode := .inl (by decide),
      target := by unfold TargetFits; decide, outLen := by decide, units := by decide, pixels := by decide }
  segment := fun _ => ⟨by decide, by decide, by decide⟩
  rgbDone := by decide
  allDone := by decide

theorem inv_v0Done : Inv v0Done where
  canonical := ⟨by decide, by decide, by decide⟩
  recorded := ⟨by decide, by decide⟩
  loading := by decide
  loaded := by decide
  phase := fun _ =>
    { header := ⟨by decide, by decide, by decide⟩, mode := .inl (by decide),
      target := by unfold TargetFits; decide, outLen := by decide, units := by decide, pixels := by decide }
  segment := fun h => absurd h (by decide)
  rgbDone := by decide
  allDone := by decide

/-- The type 1 phase with its first sample delivered. -/
def v1Second : State := { v1Token with out := [(0, 5), (1, 5), (2, 5)], win := [(4078, 5)], wp := 4079 }

theorem inv_v1Second : Inv v1Second where
  canonical := ⟨by decide, by decide, by decide⟩
  recorded := ⟨by decide, by decide⟩
  loading := by decide
  loaded := by decide
  phase := fun _ =>
    { header := ⟨by decide, by decide, by decide⟩, mode := .inl (by decide),
      target := by unfold TargetFits; decide, outLen := by decide, units := by decide, pixels := by decide }
  segment := fun _ => ⟨by decide, by decide, by decide⟩
  rgbDone := by decide
  allDone := by decide

theorem inv_waiting : Inv waiting where
  canonical := ⟨by decide, by decide, by decide⟩
  recorded := ⟨by decide, by decide⟩
  loading := by decide
  loaded := by decide
  phase := fun h => absurd h (by decide)
  segment := fun h => absurd h (by decide)
  rgbDone := by decide
  allDone := by decide

/-- No unit produced, no byte of OUT written. -/
theorem outTracks_v2Start : OutTracksUnits v2Start := by
  intro _ a
  change (none : Option Byte).isSome = true ↔ a < 3 * 0
  simp

/-- Every byte of OUT written. -/
theorem outTracks_v0Done : OutTracksUnits v0Done := by
  intro _ a
  change (Mem.read .out [(0, 1), (1, 2), (2, 3)] a).isSome = true ↔ a < 3
  simp only [Mem.read, Space.blank]
  split_ifs <;> simp <;> omega

/-- One pixel of three bytes written (V3RGB). -/
theorem outTracks_v3Alen : OutTracksUnits v3Alen := by
  intro _ a
  change (Mem.read .out [(0, 0x0A), (1, 0x14), (2, 0x1E)] a).isSome = true ↔ a % 4 < 3 ∧ a / 4 < 1
  simp only [Mem.read, Space.blank]
  split_ifs <;> simp <;> omega

theorem witness_InvKeptByStep : Inv v3Alen ∧ ∃ t, step v3Alen = .next t := ⟨inv_v3Alen, _, rfl⟩

theorem witness_StepCompletes : Inv v0Start ∧ ((hostMove v0Start).writes && v0Start.seq.busy) = false :=
  ⟨inv_v0Start, by decide⟩

theorem witness_InputPointerAdvances :
    Inv v3Alen ∧ HostQuiet v3Alen ∧ v3Alen.seq = .alen ∧
      ∃ t, step v3Alen = .next t ∧ t.seq ≠ .fault :=
  ⟨inv_v3Alen, ⟨by decide, by decide⟩, by decide, _, rfl, by decide⟩

theorem witness_OutTracksUnitsKept :
    Inv v3Alen ∧ OutTracksUnits v3Alen ∧ ∃ t, step v3Alen = .next t :=
  ⟨inv_v3Alen, outTracks_v3Alen, _, rfl⟩

theorem witness_OutByteWrittenOnce :
    Inv v3Alen ∧ OutTracksUnits v3Alen ∧ HostQuiet v3Alen ∧ (∃ t, step v3Alen = .next t) ∧
      v3Alen.seq = .alen ∧ Mem.read .out v3Alen.out 2 = some 0x1E :=
  ⟨inv_v3Alen, outTracks_v3Alen, ⟨by decide, by decide⟩, ⟨_, rfl⟩, by decide, by decide⟩

theorem witness_DoneMeansBufferComplete :
    Inv v0Done ∧ OutTracksUnits v0Done ∧ v0Done.seq = .done ∧ 2 < v0Done.outLen.toNat :=
  ⟨inv_v0Done, outTracks_v0Done, by decide, by decide⟩

/-- The start of a phase: the relation of R119 with nothing produced. -/
theorem tokenPhase_v0Start : TokenPhase v0Start := fun _ _ =>
  { cursor := by decide, afterLit := fun _ => ⟨by decide, by decide⟩, afterCtl := by decide,
    bits := by decide, recent := fun j _ h => absurd h (Nat.not_lt_zero j),
    untouched := fun p hp _ => by
      change seed (p % 4096) = seed p
      rw [Nat.mod_eq_of_lt hp] }

/-- ALEN, with the raw pixel behind it, opens a control-byte phase; at `v0Start` one is open. -/
theorem witness_TokenRelationKept :
    (Inv v0Start ∧ TokenPhase v0Start ∧ PixelPhase v0Start ∧ ∃ t, step v0Start = .next t) ∧
    (Inv v3Alen ∧ TokenPhase v3Alen ∧ PixelPhase v3Alen ∧ ∃ t, step v3Alen = .next t) :=
  ⟨⟨inv_v0Start, tokenPhase_v0Start, fun _ h => absurd h (by decide), _, rfl⟩, inv_v3Alen,
    fun h => absurd h (by decide), fun _ _ => ⟨by decide, by decide⟩, _, rfl⟩

theorem witness_PixelRelationKept :
    Inv v2Start ∧ PixelPhase v2Start ∧ ∃ t, step v2Start = .next t :=
  ⟨inv_v2Start, fun _ _ => ⟨by decide, by decide⟩, _, rfl⟩

theorem witness_LaneLaw : Inv v1Second ∧ LanesEqual v1Second ∧ ∃ t, step v1Second = .next t := by
  refine ⟨inv_v1Second, ?_, _, rfl⟩
  intro _ _ u hu
  change u < 1 at hu
  obtain rfl : u = 0 := by omega
  exact ⟨5, by decide, by decide, by decide⟩

theorem witness_StepsLeftDecrease :
    Inv v0Start ∧ HostQuiet v0Start ∧ v0Start.seq = .run ∧ ∃ t, step v0Start = .next t :=
  ⟨inv_v0Start, ⟨by decide, by decide⟩, by decide, _, rfl⟩

theorem witness_EveryRunTerminates :
    Inv waiting ∧ waiting.seq.busy = false ∧ waiting.host = [.start] :=
  ⟨inv_waiting, by decide, by decide⟩

/-- An image of one 1 by 1 picture of type 0 in IN, once after reset and once after a finished run. -/
def loaded (s : State) : State :=
  { s with inp := placeBytes (headerBytes (header 0 1 1 4 3)) 0 [], inLen := 64, host := [.start] }

theorem witness_RunStartsFresh :
    (loaded waiting).seq.busy = false ∧ (loaded v0Done).seq.busy = false ∧
    (loaded v0Done).inp = (loaded waiting).inp ∧ (loaded v0Done).inLen = (loaded waiting).inLen ∧
    (loaded v0Done).host = (loaded waiting).host ∧ hostMove (loaded waiting) = .start ∧
    after (·.seq) (Host.Core.run Sys2Proof.core 3 (loaded waiting)) = some .run ∧
    after (·.seq) (Host.Core.run Sys2Proof.core 3 (loaded v0Done)) = some .run := by
  refine ⟨by decide, by decide, by decide, by decide, by decide, by decide, by decide, by decide⟩

theorem witness_UnspecifiedValuesDoNotMatter :
    Inv v2Start ∧ OutTracksUnits v2Start ∧ SameRun v2Start { v2Start with nbr := 7, free := 9 } ∧
      HostQuiet v2Start ∧ ∃ t, step v2Start = .next t :=
  ⟨inv_v2Start, outTracks_v2Start, ⟨by decide, by decide⟩, ⟨by decide, by decide⟩, _, rfl⟩

theorem witness_HostRegisterNumbers : hostRegister v0Start 24 = none ∧ 24 ≤ 24 := by decide

/-- A full group of eight and a short one. -/
theorem witness_EncV0Layout : 8 * 1 < (List.replicate 9 (0xAA : Byte)).length ∧
    8 < (List.replicate 9 (0xAA : Byte)).length := by decide

/-- The smallest image of each type. -/
theorem witness_RoundTrip :
    (1 ≤ 1 ∧ 1 * 1 * 3 ≤ 2147483647 ∧ ([10, 20, 30] : List Byte).length = 1 * 1 * 3 ∧
      (∀ t ∈ [0, 1, 2], (encPayload t [10, 20, 30]).length ≤ 2147483647)) ∧
    (1 * 1 * 4 ≤ 2147483647 ∧ ([10, 20, 30, 255] : List Byte).length = 1 * 1 * 4 ∧
      (encPayload 3 [10, 20, 30, 255]).length ≤ 2147483647) := by decide

/-! ### Witnesses: the machine under supplied layouts -/

/-- A BACKREF that copies three units from the byte before the cursor and consumes one byte, and a DELTA that consumes the
tag alone. -/
def supplied : Params :=
  { backref := some fun _ _ _ _ => .copy 1 4077 3, delta := some fun tag _ _ _ _ => .pixel 1 tag 0 0 }

/-- A token of type 0 whose control bit is 0, with the byte 0x55 before the cursor. -/
def v0Bref : State := { v0Token with ctl := 0xFE, win := [(4077, 0x55)] }

/-- 42_tokenstream.md R114 worked by hand: one step copies the byte three times and uses one control bit. -/
theorem test_bref_supplied :
    after (fun t => (t.out, t.units, t.ip, t.cnt)) (stepWith supplied v0Bref) =
      some ([(0, 0x55), (1, 0x55), (2, 0x55)], 3, 34, 7) := by decide

theorem supplied_lawful : supplied.Lawful := by
  constructor
  · rintro f hf bytes ip limit wp k pos n h
    obtain rfl := Option.some.inj hf
    cases h
    exact ⟨by decide, by decide⟩
  · rintro f hf tag bytes ip limit nbr k q0 q1 q2 h
    obtain rfl := Option.some.inj hf
    cases h
    exact Nat.le_refl 1

theorem inv_v0Bref : Inv v0Bref where
  canonical := ⟨by decide, by decide, by decide⟩
  recorded := ⟨by decide, by decide⟩
  loading := by decide
  loaded := by decide
  phase := fun _ =>
    { header := ⟨by decide, by decide, by decide⟩, mode := .inl (by decide),
      target := by unfold TargetFits; decide, outLen := by decide, units := by decide, pixels := by decide }
  segment := fun _ => ⟨by decide, by decide, by decide⟩
  rgbDone := by decide
  allDone := by decide

theorem outTracks_v0Bref : OutTracksUnits v0Bref := by
  intro _ a
  change (none : Option Byte).isSome = true ↔ a < 0
  simp

theorem witness_StepRunsDecodedUnderParameters :
    ((hostMove v0Bref).writes && v0Bref.seq.busy) = false ∧
    select (hostMove v0Bref) (popHost v0Bref) = .row .bref ∧
    decode .bref (itemBytes .bref (popHost v0Bref)) = .ok (.bref, []) ∧
    Instr.endPhase ≠ .bref ∧ (∀ tag, Instr.endPhase ≠ .pixDelta tag) :=
  ⟨by decide, by decide, by decide, by decide, nofun⟩

theorem witness_InvKeptUnderParameters : Inv v0Bref ∧ ∃ t, stepWith supplied v0Bref = .next t :=
  ⟨inv_v0Bref, _, rfl⟩

theorem witness_OutTracksUnitsUnderParameters :
    Inv v0Bref ∧ OutTracksUnits v0Bref ∧ ∃ t, stepWith supplied v0Bref = .next t :=
  ⟨inv_v0Bref, outTracks_v0Bref, _, rfl⟩

theorem witness_StepCompletesUnderParameters :
    Inv v0Bref ∧ ((hostMove v0Bref).writes && v0Bref.seq.busy) = false := ⟨inv_v0Bref, by decide⟩

end Sys2Proof.Tests
end

section
/-!
PROOFS, the encoding of the header (30_encoding.md R61, R67). A 32-bit field is the word at an address of a byte list; a
header is eight such words at offsets 0, 4, .., 28, and what holds of one word holds of each field.
-/

namespace Sys2Proof.Encoding

open Sys2Proof.Safety

/-- The little-endian word at an address of a byte list, bytes past its end read as 0 (30_encoding.md R67). -/
def wordAt (bytes : List Byte) (a : Nat) : Word :=
  wordOfBytes (bytes.getD a 0) (bytes.getD (a + 1) 0) (bytes.getD (a + 2) 0) (bytes.getD (a + 3) 0)

/-- The header at the front of a byte list (30_encoding.md R61). -/
def headerAt (bytes : List Byte) : Header where
  htype     := wordAt bytes 0
  hsent     := wordAt bytes 4
  hoffx     := wordAt bytes 8
  hoffy     := wordAt bytes 12
  hwidth    := wordAt bytes 16
  hheight   := wordAt bytes 20
  hpacked   := wordAt bytes 24
  hunpacked := wordAt bytes 28

/-! ### What the decoder reads -/

theorem takeWord_drop {bytes : List Byte} {a : Nat} (ha : a + 4 ≤ bytes.length) :
    takeWord (bytes.drop a) = some (wordAt bytes a, bytes.drop (a + 4)) := by
  have split : bytes.drop a = bytes[a] :: bytes[a + 1] :: bytes[a + 2] :: bytes[a + 3] :: bytes.drop (a + 4) := by
    rw [List.drop_eq_getElem_cons, List.drop_eq_getElem_cons, List.drop_eq_getElem_cons, List.drop_eq_getElem_cons]
  have word : wordAt bytes a = wordOfBytes bytes[a] bytes[a + 1] bytes[a + 2] bytes[a + 3] := by
    simp only [wordAt, List.getD_eq_getElem _ _ (show a < bytes.length by omega),
      List.getD_eq_getElem _ _ (show a + 1 < bytes.length by omega),
      List.getD_eq_getElem _ _ (show a + 2 < bytes.length by omega),
      List.getD_eq_getElem _ _ (show a + 3 < bytes.length by omega)]
  rw [split, word, takeWord]

theorem takeHeader_of_length_le {bytes : List Byte} (hlen : 32 ≤ bytes.length) :
    takeHeader bytes = some (headerAt bytes, bytes.drop 32) := by
  have first : takeWord bytes = some (wordAt bytes 0, bytes.drop 4) :=
    takeWord_drop (bytes := bytes) (a := 0) (by omega)
  have next (a : Nat) (ha : a + 4 ≤ 32) : takeWord (bytes.drop a) = some (wordAt bytes a, bytes.drop (a + 4)) :=
    takeWord_drop (by omega)
  simp [takeHeader, headerAt, first, next]

theorem decode_hload_of_length_le {bytes : List Byte} (hlen : 32 ≤ bytes.length) :
    decode .hload bytes = .ok (.hload (headerAt bytes), bytes.drop 32) := by
  simp only [decode, takeHeader_of_length_le hlen]

theorem headerFields_headerAt_getD (bytes : List Byte) {i : Nat} (hi : i < 8) :
    (headerFields (headerAt bytes)).getD i 0 = wordAt bytes (4 * i) := by
  have fields : headerFields (headerAt bytes) = (List.range 8).map (fun j => wordAt bytes (4 * j)) := rfl
  simp [fields, hi]

/-! ### The bits of a word and its sign -/

theorem append_byte_getLsbD_low {n : Nat} (x : BitVec n) (y : Byte) {r : Nat} (hr : r < 8) :
    (x ++ y).getLsbD r = y.getLsbD r := by
  rw [BitVec.getLsbD_append, if_pos hr]

theorem append_byte_getLsbD_high {n : Nat} (x : BitVec n) (y : Byte) (j : Nat) :
    (x ++ y).getLsbD (8 + j) = x.getLsbD j := by
  rw [BitVec.getLsbD_append, if_neg (by omega), Nat.add_sub_cancel_left]

theorem wordOfBytes_getLsbD (b0 b1 b2 b3 : Byte) {q r : Nat} (hq : q < 4) (hr : r < 8) :
    (wordOfBytes b0 b1 b2 b3).getLsbD (8 * q + r) = ([b0, b1, b2, b3].getD q 0).getLsbD r := by
  rw [wordOfBytes]
  match q with
  | 0 =>
    rw [Nat.mul_zero, Nat.zero_add, append_byte_getLsbD_low _ _ hr]
    rfl
  | 1 =>
    rw [append_byte_getLsbD_high, append_byte_getLsbD_low _ _ hr]
    rfl
  | 2 =>
    rw [show 8 * 2 + r = 8 + (8 + r) by omega, append_byte_getLsbD_high, append_byte_getLsbD_high,
      append_byte_getLsbD_low _ _ hr]
    rfl
  | 3 =>
    rw [show 8 * 3 + r = 8 + (8 + (8 + r)) by omega, append_byte_getLsbD_high, append_byte_getLsbD_high,
      append_byte_getLsbD_high]
    rfl

theorem wordAt_getLsbD (bytes : List Byte) (a : Nat) {b : Nat} (hb : b < 32) :
    (wordAt bytes a).getLsbD b = (bytes.getD (a + b / 8) 0).getLsbD (b % 8) := by
  have hq : b / 8 < 4 := by omega
  have hr : b % 8 < 8 := by omega
  have byte : [bytes.getD a 0, bytes.getD (a + 1) 0, bytes.getD (a + 2) 0, bytes.getD (a + 3) 0].getD (b / 8) 0 =
      bytes.getD (a + b / 8) 0 := by
    match b / 8, hq with
    | 0, _ => rfl
    | 1, _ => rfl
    | 2, _ => rfl
    | 3, _ => rfl
  calc (wordAt bytes a).getLsbD b
      = (wordAt bytes a).getLsbD (8 * (b / 8) + b % 8) := by rw [Nat.div_add_mod]
    _ = (bytes.getD (a + b / 8) 0).getLsbD (b % 8) := by rw [wordAt, wordOfBytes_getLsbD _ _ _ _ hq hr, byte]

/-- The sign bit of a word in memory is bit 7 of its highest byte. -/
theorem wordAt_toInt (bytes : List Byte) (a : Nat) :
    (wordAt bytes a).toInt =
      ((wordAt bytes a).toNat : Int) - (if (bytes.getD (a + 3) 0).getLsbD 7 then 4294967296 else 0) := by
  have sign : (wordAt bytes a).msb = (bytes.getD (a + 3) 0).getLsbD 7 :=
    (BitVec.msb_eq_getLsbD_last _).trans (wordAt_getLsbD bytes a (b := 31) (by decide))
  rw [BitVec.toInt_eq_msb_cond, sign]
  split <;> simp

/-! ### The statement -/

/-- Settles O3: the header read is the eight words at 0, 4, .., 28, so each field has the bits and the sign of its word. -/
theorem headerFieldBits : Obligations.HeaderFieldBits := by
  unfold Obligations.HeaderFieldBits
  intro bytes hlen
  have decoded : decode .hload bytes = .ok (.hload (headerAt bytes), []) := by
    rw [decode_hload_of_length_le hlen.ge, List.drop_eq_nil_of_le hlen.le]
  refine ⟨headerAt bytes, decoded, fun i hi b hb => ?_⟩
  rw [headerFields_headerAt_getD bytes hi]
  exact ⟨wordAt_getLsbD bytes (4 * i) hb, wordAt_toInt bytes (4 * i)⟩

end Sys2Proof.Encoding
end

section
/-!
PROOFS, the dictionary (41_dictionary.md). The seed of the window is read segment by segment: what one byte of a segment is,
then the list of the segment's bytes (R100); WinPut writes at the cursor and advances it (R103).
-/

namespace Sys2Proof.Dictionary

open Sys2Proof.Machine

/-! ### The seed, byte by byte (R100): what stands `i` places after the start of each segment -/

theorem seed_repeated {i : Nat} (hi : i < 3328) : seed i = BitVec.ofNat 8 (i / 13) := by
  rw [seed, if_pos (by omega)]

theorem seed_ascending {i : Nat} (hi : i < 256) : seed (3328 + i) = BitVec.ofNat 8 i := by
  rw [seed, if_neg (by omega), if_pos (by omega), Nat.add_sub_cancel_left]

theorem seed_descending {i : Nat} (hi : i < 256) : seed (3584 + i) = BitVec.ofNat 8 (255 - i) := by
  rw [seed, if_neg (by omega), if_neg (by omega), if_pos (by omega), Nat.add_sub_cancel_left]

theorem seed_zeros {i : Nat} (hi : i < 128) : seed (3840 + i) = 0x00#8 := by
  rw [seed, if_neg (by omega), if_neg (by omega), if_neg (by omega), if_pos (by omega)]

theorem seed_spaces {i : Nat} (hi : i < 110) : seed (3968 + i) = 0x20#8 := by
  rw [seed, if_neg (by omega), if_neg (by omega), if_neg (by omega), if_neg (by omega), if_pos (by omega)]

theorem seed_trailing_zeros (i : Nat) : seed (4078 + i) = 0x00#8 := by
  rw [seed, if_neg (by omega), if_neg (by omega), if_neg (by omega), if_neg (by omega), if_neg (by omega)]

/-! ### The seed, segment by segment -/

/-- The `n` bytes of the seed from position `a` on. -/
def seedFrom (a n : Nat) : List Byte := (List.range n).map fun i => seed (a + i)

/-- Two neighbouring segments make one. -/
theorem seedFrom_add (a m n : Nat) : seedFrom a (m + n) = seedFrom a m ++ seedFrom (a + m) n := by
  simp [seedFrom, List.range_add, Nat.add_assoc, Function.comp_def]

theorem seedFrom_eq_map {a n : Nat} {f : Nat → Byte} (h : ∀ i, i < n → seed (a + i) = f i) :
    seedFrom a n = (List.range n).map f :=
  List.map_congr_left fun i hi => h i (List.mem_range.mp hi)

theorem seedFrom_eq_replicate {a n : Nat} {b : Byte} (h : ∀ i, i < n → seed (a + i) = b) :
    seedFrom a n = List.replicate n b := by
  rw [seedFrom_eq_map h, List.map_const', List.length_range]

/-- The value of each position divided by `k`, in a row: each value `k` times. -/
theorem map_div_range_mul {α : Type} (f : Nat → α) {k : Nat} (hk : 0 < k) (n : Nat) :
    (List.range (k * n)).map (fun i => f (i / k)) = (List.range n).flatMap fun v => List.replicate k (f v) := by
  induction n with
  | zero => rfl
  | succ n ih =>
    have block : (List.range k).map (fun i => f ((k * n + i) / k)) = List.replicate k (f n) := by
      rw [List.map_congr_left (g := fun _ => f n), List.map_const', List.length_range]
      intro i hi
      rw [Nat.mul_add_div hk, Nat.div_eq_of_lt (List.mem_range.mp hi), Nat.add_zero]
    rw [Nat.mul_succ, List.range_add, List.map_append, ih, List.map_map, List.range_succ, List.flatMap_append,
      List.flatMap_singleton, ← block]
    rfl

theorem map_sub_range_eq_reverse (n : Nat) :
    (List.range n).map (fun i => n - 1 - i) = (List.range n).reverse := by
  rw [List.range_eq_range', List.reverse_range', Nat.zero_add, List.range_eq_range']

theorem seedFrom_repeated :
    seedFrom 0 3328 = (List.range 256).flatMap fun v => List.replicate 13 (BitVec.ofNat 8 v) := by
  rw [← map_div_range_mul (BitVec.ofNat 8) (by decide) 256]
  exact seedFrom_eq_map fun i hi => by rw [Nat.zero_add, seed_repeated hi]

theorem seedFrom_descending : seedFrom 3584 256 = (List.range 256).reverse.map (BitVec.ofNat 8) := by
  rw [← map_sub_range_eq_reverse, List.map_map]
  exact seedFrom_eq_map fun _ => seed_descending

/-! ### WinPut (R103) -/

/-- The cursor has 12 bits, so adding one to it is adding one modulo 4096. -/
theorem winPut_wp_toNat (b : Byte) (s : State) : (winPut b s).wp.toNat = (s.wp.toNat + 1) % 4096 := by
  rw [winPut_wp, BitVec.toNat_add]
  rfl

/-- WinPut changes the window and the cursor only. -/
theorem winPut_frame (b : Byte) (s : State) :
    winPut b s = { s with win := (winPut b s).win, wp := (winPut b s).wp } := rfl

/-! ### The statements -/

/-- Settles O6: the 4096 bytes are six neighbouring segments, and each one is the list the rule names. -/
theorem seedSegments : Obligations.SeedSegments := by
  unfold Obligations.SeedSegments
  calc (List.range 4096).map seed
      = seedFrom 0 4096 := (seedFrom_eq_map fun i _ => by rw [Nat.zero_add]).symm
    _ = seedFrom 0 3328 ++ seedFrom 3328 256 ++ seedFrom 3584 256 ++ seedFrom 3840 128 ++ seedFrom 3968 110 ++
        seedFrom 4078 18 := by
      rw [← seedFrom_add 0 3328 256, ← seedFrom_add 0 3584 256, ← seedFrom_add 0 3840 128, ← seedFrom_add 0 3968 110,
        ← seedFrom_add 0 4078 18]
    _ = _ := by
      rw [seedFrom_repeated, seedFrom_eq_map fun _ => seed_ascending, seedFrom_descending,
        seedFrom_eq_replicate fun _ => seed_zeros, seedFrom_eq_replicate fun _ => seed_spaces,
        seedFrom_eq_replicate fun i _ => seed_trailing_zeros i]

/-- Settles O8: the read after the write, the advanced cursor and the frame of WinPut, put together. -/
theorem windowWriteAndAdvance : Obligations.WindowWriteAndAdvance := by
  unfold Obligations.WindowWriteAndAdvance
  intro b s
  exact ⟨fun p => winGet_winPut p b s, winPut_wp_toNat b s, winPut_frame b s⟩

end Sys2Proof.Dictionary
end

section
/-!
PROOFS, the token stream (42_tokenstream.md). In STATE = RUN the row is told by UNITS, CNT and CTL, and the step runs the
item of that row at IP; EmitUnit writes the OUT addresses of one unit, one window byte, and counts the unit (R113).
-/

namespace Sys2Proof.TokenStream

open Sys2Proof.Machine Sys2Proof.Safety

/-! ### The row of a step in RUN (40_header_wrapper.md R80) and the item it fetches -/

theorem runRow_of_endDue {s : State} (h : endDue s = true) : runRow s = .endPhase := by
  obtain ⟨-, hu⟩ := (endDue_iff s).mp h
  rw [runRow, if_pos hu]

theorem runRow_of_controlDue {s : State} (h : controlDue s = true) : runRow s = .ctl := by
  obtain ⟨-, hm, hu, hc⟩ := (controlDue_iff s).mp h
  rw [runRow, if_neg (ne_of_apply_ne BitVec.toNat hu.ne), if_pos hm, if_pos hc]

theorem runRow_of_tokenDue {bit : Bool} {s : State} (h : tokenDue bit s = true) :
    runRow s = if bit then .lit else .bref := by
  obtain ⟨-, hm, hu, hc, hb⟩ := (tokenDue_iff bit s).mp h
  rw [runRow, if_neg (ne_of_apply_ne BitVec.toNat hu.ne), if_pos hm, if_neg hc, hb]

/-- In RUN the step is the item of the row, unless the host resets or writes; a START is ignored there (R207). -/
theorem step_run {s : State} (hq : HostQuiet s) (hs : s.seq = .run) :
    step s = exec (fetched (runRow s) (popHost s)) (popHost s) :=
  stepBy_row exec hq.2 (select_run hq.1 hs)

/-- Below LIMIT the fetched byte is IN[IP]; the host's move of the step does not touch it. -/
theorem operandByte_popHost {s : State} (h1 : s.ip.toNat < s.limit.toNat) (h2 : s.limit.toNat ≤ s.inLen.toNat) :
    operandByte (popHost s) 0 = inByte s s.ip.toNat :=
  operandByte_inside h1 (Nat.lt_of_lt_of_le h1 h2)

theorem step_of_endDue {s : State} (h : endDue s = true) (hq : HostQuiet s) :
    step s = exec .endPhase (popHost s) := by
  obtain ⟨hs, -⟩ := (endDue_iff s).mp h
  rw [step_run hq hs, runRow_of_endDue h, fetched]

theorem step_of_controlDue {s : State} (h : controlDue s = true) (hq : HostQuiet s)
    (h1 : s.ip.toNat < s.limit.toNat) (h2 : s.limit.toNat ≤ s.inLen.toNat) :
    step s = exec (.ctl (inByte s s.ip.toNat)) (popHost s) := by
  obtain ⟨hs, -⟩ := (controlDue_iff s).mp h
  rw [step_run hq hs, runRow_of_controlDue h, fetched, operandByte_popHost h1 h2]

theorem step_of_literalDue {s : State} (h : tokenDue true s = true) (hq : HostQuiet s)
    (h1 : s.ip.toNat < s.limit.toNat) (h2 : s.limit.toNat ≤ s.inLen.toNat) :
    step s = exec (.lit (inByte s s.ip.toNat)) (popHost s) := by
  obtain ⟨hs, -⟩ := (tokenDue_iff true s).mp h
  rw [step_run hq hs, runRow_of_tokenDue h, if_pos rfl, fetched, operandByte_popHost h1 h2]

/-! ### The traps at the end of the segment (R111, R112) -/

theorem execCtl_truncated {s : State} (k : Byte) (h : controlDue s = true) (h1 : s.limit.toNat ≤ s.ip.toNat) :
    execCtl k s = .next (trapState .truncatedStream 0 s) := by
  rw [execCtl, if_pos h, guardFetch_truncated _ (Nat.lt_succ_of_le h1)]

theorem execLit_truncated {s : State} (d : Byte) (h : tokenDue true s = true) (h1 : s.limit.toNat ≤ s.ip.toNat) :
    execLit d s = .next (trapState .truncatedStream 0 s) := by
  rw [execLit, if_pos h, guardFetch_truncated _ (Nat.lt_succ_of_le h1)]

/-! ### Counters -/

/-- A counter below another word does not wrap. -/
theorem word_succ_toNat {a b : Word} (h : a.toNat < b.toNat) : (a + 1).toNat = a.toNat + 1 :=
  word_add_toNat (n := 1) (by have := b.isLt; omega)

theorem countDown_val_add_one {c : Fin 9} (h : c ≠ 0) : (countDown c).val + 1 = c.val :=
  Nat.sub_add_cancel (Nat.pos_of_ne_zero (Fin.val_ne_of_ne h))

/-! ### EmitUnit (R113) -/

/-- The cells of a unit: its byte at each of its OUT addresses. -/
theorem mem_unitCells {m : Mode} {u : Nat} {b : Byte} {c : Host.Cell} :
    c ∈ unitCells m u b ↔ UnitLane m u c.1 ∧ c.2 = b := by
  obtain ⟨a, v⟩ := c
  cases m <;> simp [unitCells, UnitLane, or_and_right]

/-- Where several writes store one byte only, an address they name reads as that byte, however often it is named. -/
theorem read_writeAll_const (sp : Space) {cs : List Host.Cell} {b : Byte} (hb : ∀ c ∈ cs, c.2 = b) (m : Mem)
    {a : Nat} (ha : (a, b) ∈ cs) : Mem.read sp (Mem.writeAll sp m cs) a = some b := by
  induction cs generalizing m with
  | nil => cases ha
  | cons c cs ih =>
    have hb' : ∀ c ∈ cs, c.2 = b := fun c hc => hb c (List.mem_cons_of_mem _ hc)
    by_cases again : (a, b) ∈ cs
    · exact ih hb' _ again
    · obtain rfl : (a, b) = c := (List.mem_cons.mp ha).resolve_right again
      have other : ∀ c ∈ cs, c.1 ≠ a := by
        rintro ⟨x, v⟩ hc rfl
        exact again (hb' _ hc ▸ hc)
      rw [Mem.writeAll, Mem.read_writeAll_other sp cs _ a other, Mem.read_write_same]

/-- The state after `EmitUnit(b)`. -/
def emitted (b : Byte) (s : State) : State :=
  countUnit (winPut b (storeOut (unitCells s.mode s.units.toNat b) s))

theorem cells_below_of_lanes_below {m : Mode} {u n : Nat} (b : Byte) (h : ∀ a, UnitLane m u a → a < n) :
    ∀ c ∈ unitCells m u b, c.1 < n :=
  fun c hc => h c.1 (mem_unitCells.mp hc).1

theorem emitUnit_completes {b : Byte} {s : State} (h : ∀ a, UnitLane s.mode s.units.toNat a → a < s.outLen.toNat) :
    emitUnit b s = .next (emitted b s) :=
  emitUnit_eq_next.mpr ⟨cells_below_of_lanes_below b h, rfl⟩

/-- EmitUnit changes OUT, the window, its cursor and the count of units only. -/
theorem emitted_frame (b : Byte) (s : State) :
    emitted b s = { s with out := (emitted b s).out, win := (emitted b s).win, wp := (emitted b s).wp,
                           units := (emitted b s).units } := rfl

theorem emitted_units_toNat (b : Byte) {s : State} (h : s.units.toNat < s.target.toNat) :
    (emitted b s).units.toNat = s.units.toNat + 1 :=
  word_succ_toNat h

theorem emitted_wp_toNat (b : Byte) (s : State) : (emitted b s).wp.toNat = (s.wp.toNat + 1) % 4096 :=
  Dictionary.winPut_wp_toNat b s

theorem read_emitted_out_lane (b : Byte) {s : State} {a : Nat} (h : UnitLane s.mode s.units.toNat a) :
    Mem.read .out (emitted b s).out a = some b :=
  read_writeAll_const .out (fun _ hc => (mem_unitCells.mp hc).2) s.out (mem_unitCells.mpr ⟨h, rfl⟩)

theorem read_emitted_out_other (b : Byte) {s : State} {a : Nat} (h : ¬ UnitLane s.mode s.units.toNat a) :
    Mem.read .out (emitted b s).out a = Mem.read .out s.out a :=
  Mem.read_writeAll_other .out _ s.out a fun _ hc e => h (e ▸ (mem_unitCells.mp hc).1)

theorem winGet_emitted (p : Nat) (b : Byte) (s : State) :
    winGet p (emitted b s) = if p % 4096 = s.wp.toNat then b else winGet p s :=
  winGet_winPut p b s

/-- A literal token inside its segment takes its byte and its control bit, then delivers the byte as one unit (R112). -/
theorem execLit_emits {s : State} (d : Byte) (h : tokenDue true s = true) (h1 : s.ip.toNat < s.limit.toNat)
    (h2 : s.limit.toNat ≤ s.inLen.toNat) (h3 : ∀ a, UnitLane s.mode s.units.toNat a → a < s.outLen.toNat) :
    execLit d s = .next (emitted d (useControlBit (advance 1 s))) :=
  execLit_completes h h1 (Nat.le_trans h1 h2) (cells_below_of_lanes_below d h3)

/-! ### The statements -/

/-- Settles O15: the trap and the effect of CTL on the two sides of LIMIT, and the byte that the row of a state with no
control bit left fetches. -/
theorem ctlLoadsControlByte : Obligations.CtlLoadsControlByte := by
  unfold Obligations.CtlLoadsControlByte
  intro k s hs hm hu hc
  have due : controlDue s = true := (controlDue_iff s).mpr ⟨hs, hm, hu, hc⟩
  refine ⟨execCtl_truncated k due, fun h1 h2 => ?_, fun h1 h2 hq hk => ?_⟩
  · exact ⟨_, execCtl_completes due h1 (Nat.le_trans h1 h2), rfl, word_succ_toNat h1⟩
  · rw [hk]
    exact step_of_controlDue due hq h1 h2

/-- Settles O16: the trap of LIT at LIMIT; its effect is EmitUnit on the state whose byte and control bit are taken; and
the byte that the row of a state with control bit 1 fetches. -/
theorem litDeliversUnit : Obligations.LitDeliversUnit := by
  unfold Obligations.LitDeliversUnit
  intro d s hs hm hu hc hb
  have due : tokenDue true s = true := (tokenDue_iff true s).mpr ⟨hs, hm, hu, hc, hb⟩
  refine ⟨execLit_truncated d due, fun h1 h2 h3 => ?_, fun h1 h2 hq hd => ?_⟩
  · exact ⟨emitted d (useControlBit (advance 1 s)), execLit_emits d due h1 h2 h3, emitted_frame d _,
      word_succ_toNat h1, countDown_val_add_one hc, emitted_units_toNat d hu, emitted_wp_toNat d _,
      fun _ => read_emitted_out_lane d, fun _ => read_emitted_out_other d, fun p => winGet_emitted p d _⟩
  · rw [hd]
    exact step_of_literalDue due hq h1 h2

/-- Settles O20: with UNITS = TARGET the row is END before CNT, CTL or any byte is looked at. -/
theorem endOfPhase : Obligations.EndOfPhase := by
  unfold Obligations.EndOfPhase
  intro s hs hu
  have due : endDue s = true := (endDue_iff s).mpr ⟨hs, hu⟩
  refine ⟨execEnd_completes due, fun hq => ?_⟩
  rw [step_of_endDue due hq]
  exact execEnd_completes due

end Sys2Proof.TokenStream
end

section
/-!
PROOFS, the layout of the reference encoder's stream (46_reference_encoder.md R161). With `k` tokens left under the current
control byte, the first `k` bytes come without one; after them every eighth byte opens a group. Each fact is stated for
every `k`, because the recursion leaves a new group with seven tokens, and `encV0` is the case `k = 0`.
-/

namespace Sys2Proof.RefEncoder

open Sys2Proof.Machine

/-! ### What stands where, with `k` tokens left under the current control byte -/

theorem length_encV0From (k : Nat) (bytes : List Byte) :
    (encV0From k bytes).length = bytes.length + (bytes.length + 7 - k) / 8 := by
  fun_induction encV0From k bytes with
  | case1 k => simp only [List.length_nil]; omega
  | case2 b bs ih => simp only [List.length_cons, ih]; omega
  | case3 k b bs ih => simp only [List.length_cons, ih]; omega

/-- Group `g` after the current one begins behind `k` bytes and `g` whole groups of nine. -/
theorem encV0From_control (k : Nat) (bytes : List Byte) (g : Nat) (h : k + 8 * g < bytes.length) :
    (encV0From k bytes)[k + 9 * g]? = some 0xFF#8 := by
  fun_induction encV0From k bytes generalizing g with
  | case1 k => exact absurd h (Nat.not_lt_zero _)
  | case2 b bs ih =>
    cases g with
    | zero => rfl
    | succ g =>
      rw [List.length_cons] at h
      have place : 0 + 9 * (g + 1) = 7 + 9 * g + 1 + 1 := by omega
      rw [place, List.getElem?_cons_succ, List.getElem?_cons_succ]
      exact ih g (by omega)
  | case3 k b bs ih =>
    rw [List.length_cons] at h
    have place : k + 1 + 9 * g = k + 9 * g + 1 := by omega
    rw [place, List.getElem?_cons_succ]
    exact ih g (by omega)

/-- Before byte `j` stand the `j` bytes before it and one control byte for each group opened up to it. -/
theorem encV0From_data (k : Nat) (bytes : List Byte) (j : Nat) (h : j < bytes.length) :
    (encV0From k bytes)[j + (j + 8 - k) / 8]? = bytes[j]? := by
  fun_induction encV0From k bytes generalizing j with
  | case1 k => exact absurd h (Nat.not_lt_zero _)
  | case2 b bs ih =>
    cases j with
    | zero => rfl
    | succ j =>
      have place : j + 1 + (j + 1 + 8 - 0) / 8 = j + (j + 8 - 7) / 8 + 1 + 1 := by omega
      rw [place, List.getElem?_cons_succ, List.getElem?_cons_succ, List.getElem?_cons_succ]
      exact ih j (Nat.lt_of_succ_lt_succ h)
  | case3 k b bs ih =>
    cases j with
    | zero =>
      have place : 0 + (0 + 8 - (k + 1)) / 8 = 0 := by omega
      rw [place, List.getElem?_cons_zero, List.getElem?_cons_zero]
    | succ j =>
      have place : j + 1 + (j + 1 + 8 - (k + 1)) / 8 = j + (j + 8 - k) / 8 + 1 := by omega
      rw [place, List.getElem?_cons_succ, List.getElem?_cons_succ]
      exact ih j (Nat.lt_of_succ_lt_succ h)

/-! ### The statement -/

/-- Settles O52: the length, the control bytes and the data bytes of a stream that begins with no token left. -/
theorem encV0Layout : Obligations.EncV0Layout := by
  unfold Obligations.EncV0Layout
  intro bytes
  refine ⟨length_encV0From 0 bytes, fun g h => ?_, fun j h => ?_⟩
  · have control := encV0From_control 0 bytes g (by omega)
    rwa [Nat.zero_add] at control
  · have place : j + j / 8 + 1 = j + (j + 8 - 0) / 8 := by omega
    rw [place]
    exact encV0From_data 0 bytes j h

end Sys2Proof.RefEncoder
end

section
/-!
PROOFS, the codec (30_encoding.md). Little-endian assembly is a sum of bytes, so a word and its four bytes determine each
other (R67); a header is eight such words one after the other (R61); the codec's two directions follow row by row.
-/

namespace Sys2Proof.Codec

open Sys2Proof.Machine

/-! ### A word and its four bytes (R67) -/

theorem append_toNat {n m : Nat} (x : BitVec n) (y : BitVec m) : (x ++ y).toNat = 2 ^ m * x.toNat + y.toNat := by
  rw [BitVec.toNat_append, Nat.shiftLeft_eq, Nat.mul_comm, Nat.two_pow_add_eq_or_of_lt y.isLt]

theorem wordOfBytes_toNat (b0 b1 b2 b3 : Byte) :
    (wordOfBytes b0 b1 b2 b3).toNat =
      b0.toNat + 256 * b1.toNat + 65536 * b2.toNat + 16777216 * b3.toNat := by
  simp only [wordOfBytes, append_toNat]
  omega

theorem pixelOfBytes_toNat (b0 b1 b2 : Byte) :
    (pixelOfBytes b0 b1 b2).toNat = b0.toNat + 256 * b1.toNat + 65536 * b2.toNat := by
  simp only [pixelOfBytes, append_toNat]
  omega

theorem extractByte_toNat (w : Word) (k : Nat) : (w.extractLsb' k 8).toNat = w.toNat / 2 ^ k % 256 := by
  rw [BitVec.extractLsb'_toNat, Nat.shiftRight_eq_div_pow]

theorem wordOfBytes_wordBytes (w : Word) :
    wordOfBytes (w.extractLsb' 0 8) (w.extractLsb' 8 8) (w.extractLsb' 16 8) (w.extractLsb' 24 8) = w := by
  apply BitVec.eq_of_toNat_eq
  have := w.isLt
  simp only [wordOfBytes_toNat, extractByte_toNat]
  omega

theorem wordBytes_wordOfBytes (b0 b1 b2 b3 : Byte) : wordBytes (wordOfBytes b0 b1 b2 b3) = [b0, b1, b2, b3] := by
  have h0 := b0.isLt
  have h1 := b1.isLt
  have h2 := b2.isLt
  have h3 := b3.isLt
  simp only [wordBytes, List.cons.injEq, ← BitVec.toNat_inj, extractByte_toNat, wordOfBytes_toNat, and_true]
  omega

@[simp] theorem takeWord_wordBytes (w : Word) (rest : List Byte) :
    takeWord (wordBytes w ++ rest) = some (w, rest) := by
  rw [wordBytes, List.cons_append, List.cons_append, List.cons_append, List.cons_append, List.nil_append, takeWord,
    wordOfBytes_wordBytes]

theorem takeWord_eq_some {bytes rest : List Byte} {w : Word} (h : takeWord bytes = some (w, rest)) :
    bytes = wordBytes w ++ rest := by
  match bytes, h with
  | b0 :: b1 :: b2 :: b3 :: tail, h =>
    obtain ⟨rfl, rfl⟩ := Prod.mk.inj (Option.some.inj h)
    rw [wordBytes_wordOfBytes]
    rfl

/-! ### A header is eight words (R61) -/

@[simp] theorem takeHeader_headerBytes (h : Header) (rest : List Byte) :
    takeHeader (headerBytes h ++ rest) = some (h, rest) := by
  simp [takeHeader, headerBytes, List.append_assoc]

theorem takeHeader_eq_some {bytes rest : List Byte} {h : Header} (e : takeHeader bytes = some (h, rest)) :
    bytes = headerBytes h ++ rest := by
  simp only [takeHeader, Option.bind_eq_bind, Option.bind_eq_some_iff, Prod.exists, Option.some.injEq,
    Prod.mk.injEq] at e
  obtain ⟨w0, r0, e0, w1, r1, e1, w2, r2, e2, w3, r3, e3, w4, r4, e4, w5, r5, e5, w6, r6, e6, w7, r7, e7, rfl, rfl⟩ := e
  rw [takeWord_eq_some e0, takeWord_eq_some e1, takeWord_eq_some e2, takeWord_eq_some e3, takeWord_eq_some e4,
    takeWord_eq_some e5, takeWord_eq_some e6, takeWord_eq_some e7]
  simp only [headerBytes, List.append_assoc]

/-! ### A pixel item is told by its tag (R65) -/

theorem encode_of_decode_pix {bytes rest : List Byte} {i : Instr} (h : decode .pix bytes = .ok (i, rest)) :
    i.WellFormed ∧ i.row = .pix ∧ encode i ++ rest = bytes := by
  match bytes, h with
  | t :: tail, h =>
    by_cases tag : t = 0
    · subst tag
      match tail, h with
      | p0 :: p1 :: p2 :: tail, h =>
        obtain ⟨rfl, rfl⟩ := Prod.mk.inj (Except.ok.inj h)
        exact ⟨rfl, rfl, rfl⟩
    · simp only [decode, if_neg tag] at h
      obtain ⟨rfl, rfl⟩ := Prod.mk.inj (Except.ok.inj h)
      exact ⟨by simpa [Instr.WellFormed, Instr.wellFormed] using tag, rfl, rfl⟩

/-! ### The statements -/

/-- Settles O1: by the instruction; a word and a header are read back from their own bytes, and a well-formed pixel item is
told by its tag. -/
theorem decodeOfEncode : Obligations.DecodeOfEncode := by
  unfold Obligations.DecodeOfEncode
  intro i rest hi
  cases i with
  | hload h => simp [decode, encode, Instr.row]
  | alen n => simp [decode, encode, Instr.row]
  | pixDelta t =>
    have tag : t ≠ 0 := by simpa [Instr.WellFormed, Instr.wellFormed] using hi
    exact if_neg tag
  | _ => rfl

/-- Settles O2: by the row; a row without bytes leaves them all, a row with bytes took exactly those it encodes. -/
theorem encodeOfDecode : Obligations.EncodeOfDecode := by
  unfold Obligations.EncodeOfDecode
  intro r bytes i rest h
  cases r with
  | pix => exact encode_of_decode_pix h
  | hload =>
    rw [decode] at h
    split at h
    next e =>
      obtain ⟨rfl, rfl⟩ := Prod.mk.inj (Except.ok.inj h)
      exact ⟨rfl, rfl, (takeHeader_eq_some e).symm⟩
    next => cases h
  | alen =>
    rw [decode] at h
    split at h
    next e =>
      obtain ⟨rfl, rfl⟩ := Prod.mk.inj (Except.ok.inj h)
      exact ⟨rfl, rfl, (takeWord_eq_some e).symm⟩
    next => cases h
  | ctl =>
    match bytes, h with
    | k :: tail, h =>
      obtain ⟨rfl, rfl⟩ := Prod.mk.inj (Except.ok.inj h)
      exact ⟨rfl, rfl, rfl⟩
  | lit =>
    match bytes, h with
    | d :: tail, h =>
      obtain ⟨rfl, rfl⟩ := Prod.mk.inj (Except.ok.inj h)
      exact ⟨rfl, rfl, rfl⟩
  | _ =>
    obtain ⟨rfl, rfl⟩ := Prod.mk.inj (Except.ok.inj h)
    exact ⟨rfl, rfl, rfl⟩

/-- Settles O4: both assemblies are sums of bytes; a word is negative exactly when its highest byte is 128 or more. -/
theorem operandAssembly : Obligations.OperandAssembly := by
  unfold Obligations.OperandAssembly
  refine ⟨fun b0 b1 b2 b3 => ?_, pixelOfBytes_toNat⟩
  have h0 := b0.isLt
  have h1 := b1.isLt
  have h2 := b2.isLt
  rw [BitVec.toInt_eq_toNat_cond, wordOfBytes_toNat]
  split_ifs <;> omega

/-- Settles O5: each sample is read by computing the decoder on its bytes. -/
theorem sampleWords : Obligations.SampleWords := by
  unfold Obligations.SampleWords
  decide

end Sys2Proof.Codec
end

section
/-!
PROOFS, the canonical form of a memory (20_memory.md section 1). The first cell of a canonical list stands at the lowest
address that does not read as blank, so the reads determine the list, cell by cell.
-/

namespace Sys2Proof.Canonical

open Sys2Proof.Machine

/-- Below its lower bound a canonical list has no cell. -/
theorem read_below {sp : Space} {m : Mem} {lo a : Nat} (hm : Mem.wfFrom sp lo m = true) (ha : a < lo) :
    Mem.read sp m a = sp.blank a := by
  induction m generalizing lo with
  | nil => rfl
  | cons c m ih =>
    obtain ⟨b, v⟩ := c
    obtain ⟨hlo, -, -, tail⟩ := (Mem.wfFrom_cons sp lo b v m).mp hm
    rw [Mem.read, if_neg (by omega)]
    exact ih tail (by omega)

/-- A cell of one list that lies below every cell of the other is read by the first only. -/
theorem head_not_below {sp : Space} {lo a : Nat} {v : Byte} {m m' : Mem}
    (hm : Mem.wfFrom sp lo ((a, v) :: m) = true) (hm' : Mem.wfFrom sp (a + 1) m' = true) :
    ¬ ∀ x, Mem.read sp ((a, v) :: m) x = Mem.read sp m' x := by
  intro same
  obtain ⟨-, -, listed, -⟩ := (Mem.wfFrom_cons sp lo a v m).mp hm
  have here := same a
  rw [Mem.read, if_pos rfl, read_below hm' (Nat.lt_succ_self a)] at here
  exact listed here.symm

theorem eq_of_read_eq {sp : Space} {lo : Nat} {m m' : Mem} (hm : Mem.wfFrom sp lo m = true)
    (hm' : Mem.wfFrom sp lo m' = true) (same : ∀ x, Mem.read sp m x = Mem.read sp m' x) : m = m' := by
  induction m generalizing lo m' with
  | nil =>
    match m', hm' with
    | [], _ => rfl
    | (b, w) :: m', hm' => exact absurd (fun x => (same x).symm) (head_not_below hm' rfl)
  | cons c m ih =>
    obtain ⟨a, v⟩ := c
    obtain ⟨ha, hsa, hva, htail⟩ := (Mem.wfFrom_cons sp lo a v m).mp hm
    match m', hm' with
    | [], _ => exact absurd same (head_not_below hm rfl)
    | (b, w) :: m', hm' =>
      obtain ⟨hb, hsb, hwb, htail'⟩ := (Mem.wfFrom_cons sp lo b w m').mp hm'
      obtain hab | rfl | hba := Nat.lt_trichotomy a b
      · exact absurd same (head_not_below hm ((Mem.wfFrom_cons sp (a + 1) b w m').mpr ⟨hab, hsb, hwb, htail'⟩))
      · have head : v = w := by simpa [Mem.read] using same a
        have tails : ∀ x, Mem.read sp m x = Mem.read sp m' x := by
          intro x
          by_cases hx : a = x
          · rw [read_below htail (by omega), read_below htail' (by omega)]
          · simpa [Mem.read, hx] using same x
        rw [head, ih htail htail' tails]
      · exact absurd (fun x => (same x).symm)
          (head_not_below hm' ((Mem.wfFrom_cons sp (b + 1) a v m).mpr ⟨hba, hsa, hva, htail⟩))

/-- Settles O7: canonical lists are determined by their reads, from the lower bound 0. -/
theorem canonicalMemoryIsUnique : Obligations.CanonicalMemoryIsUnique := by
  unfold Obligations.CanonicalMemoryIsUnique
  exact fun _ _ _ => eq_of_read_eq

end Sys2Proof.Canonical
end

section
/-!
PROOFS, what an instruction can do. `Effect` lists, once for every instruction and every choice of the OPEN parameters, the
next states it can answer and what held when it did; the rules about the whole machine are case splits over it.
-/

namespace Sys2Proof.Effects

open Sys2Proof.Machine Sys2Proof.Safety Sys2Proof.TokenStream

/-- The faults an instruction can raise, each with its information byte (60_exceptions.md R180, R186). -/
def Raises (p : Params) (i : Instr) (f : Err) (info : Byte) : Prop :=
  match i with
  | .start        => False
  | .hload _      => f = .invalidHeader ∧ info = 0
  | .hchk         => (f = .invalidHeader ∨ f = .sizeMismatch) ∧ info = 0
  | .ctl _        => f = .truncatedStream ∧ info = 0
  | .lit _        => f = .truncatedStream ∧ info = 0
  | .bref         => (f = .reservedToken ∨ f = .truncatedStream ∧ p.backref ≠ none) ∧ info = 0
  | .endPhase     => False
  | .pixRaw _ _ _ => f = .truncatedStream ∧ info = 0
  | .pixDelta t   => f = .truncatedStream ∧ info = 0 ∨ f = .reservedTag ∧ info = t
  | .alen _       => f = .truncatedStream ∧ info = 0
  | .reset        => False

/-- The state after START has been taken (40_header_wrapper.md R81). -/
def started (s : State) : State := { s with seq := .hload, err := .none, eip := 0, einfo := 0, ip := 0 }

/-- The state after a successful HLOAD (40_header_wrapper.md R82). -/
def headerLoaded (h : Header) (s : State) : State := { s with hdr := h, seq := .hchk }

/-- The state after a successful CTL (42_tokenstream.md R111). -/
def controlLoaded (k : Byte) (s : State) : State := { advance 1 s with ctl := k, cnt := 8 }

/-- The state after a successful LIT (42_tokenstream.md R112, R113). -/
def literalTaken (d : Byte) (s : State) : State :=
  { s with ip := s.ip + 1, ctl := shiftControl s.ctl, cnt := countDown s.cnt, units := s.units + 1, wp := s.wp + 1,
           win := Mem.write .win s.win s.wp.toNat d,
           out := Mem.writeAll .out s.out (unitCells s.mode s.units.toNat d) }

/-- The state after END (42_tokenstream.md R116). -/
def phaseEnded (s : State) : State := { s with seq := if s.mode = .v3rgb then .alen else .done }

/-- The state after a neighbour load that gave these values (44_v2_predictor.md R136). -/
def withNeighbour (nbr : Pixel) (nbrv : Bool) (s : State) : State :=
  { s with nbr := nbr, nbrv := nbrv, free := s.free + 1 }

/-- The state after the delivery of a pixel of `k` bytes (44_v2_predictor.md R137, R138). -/
def delivered (k : Nat) (q0 q1 q2 : Byte) (s : State) : State :=
  { s with ip := s.ip + BitVec.ofNat 32 k, units := s.units + 1, wp := s.wp + 1 + 1 + 1,
           win := Mem.write .win (Mem.write .win (Mem.write .win s.win s.wp.toNat q0) (s.wp + 1).toNat q1)
             (s.wp + 1 + 1).toNat q2,
           out := Mem.writeAll .out s.out (pixelCells s.mode s.units.toNat q0 q1 q2) }

/-- What an instruction that answers a next state has done, and where. -/
inductive Effect (p : Params) (s : State) : Instr → State → Prop where
  | trap {i f info} (busy : s.seq.busy = true) (raises : Raises p i f info) : Effect p s i (trapState f info s)
  | startIgnored (busy : s.seq.busy = true) : Effect p s .start s
  | started (quiet : s.seq.busy = false) : Effect p s .start (started s)
  | headerLoaded {h} (seq : s.seq = .hload) (present : 32 ≤ s.inLen.toNat) : Effect p s (.hload h) (headerLoaded h s)
  | payloadOpened (seq : s.seq = .hchk) (valid : HeaderValid s.hdr) : Effect p s .hchk (openPayload s)
  | controlLoaded {k} (due : controlDue s = true) (inside : s.ip.toNat + 1 ≤ s.limit.toNat) :
      Effect p s (.ctl k) (controlLoaded k s)
  | literal {d} (due : tokenDue true s = true) (inside : s.ip.toNat + 1 ≤ s.limit.toNat) :
      Effect p s (.lit d) (literalTaken d s)
  | copied {k pos n t} (supplied : p.backref ≠ none) (due : tokenDue false s = true)
      (inside : s.ip.toNat + k ≤ s.limit.toNat) (fits : s.units.toNat + n ≤ s.target.toNat)
      (copy : copyUnits n pos (useControlBit (advance k s)) = .next t) : Effect p s .bref t
  | phaseEnded (due : endDue s = true) : Effect p s .endPhase (phaseEnded s)
  | pixel {i k q0 q1 q2 nbr nbrv} (item : i = .pixRaw q0 q1 q2 ∧ k = 4 ∨ p.delta ≠ none ∧ ∃ tag, i = .pixDelta tag)
      (due : pixelDue s = true) (inside : s.ip.toNat + k ≤ s.limit.toNat)
      (load : loadNeighbour s = .next (withNeighbour nbr nbrv s)) :
      Effect p s i (delivered k q0 q1 q2 (withNeighbour nbr nbrv s))
  | alphaOpened {n} (seq : s.seq = .alen) (inside : s.ip.toNat + 4 ≤ s.limit.toNat) :
      Effect p s (.alen n) (openAlpha n s)
  | reset {t} (answer : execReset s = .next t) : Effect p s .reset t

/-! ### Every instruction has one of these effects -/

theorem busy_of_seq_run {s : State} (h : s.seq = .run) : s.seq.busy = true := by rw [h]; rfl

theorem busy_of_controlDue {s : State} (h : controlDue s = true) : s.seq.busy = true :=
  busy_of_seq_run ((controlDue_iff s).mp h).1

theorem busy_of_tokenDue {bit : Bool} {s : State} (h : tokenDue bit s = true) : s.seq.busy = true :=
  busy_of_seq_run ((tokenDue_iff bit s).mp h).1

theorem busy_of_pixelDue {s : State} (h : pixelDue s = true) : s.seq.busy = true :=
  busy_of_seq_run ((pixelDue_iff s).mp h).1

/-- The neighbour load answers the state with NBR, NBRV and the next number of the free values. -/
theorem loadNeighbour_withNeighbour {s s1 : State} (h : loadNeighbour s = .next s1) :
    ∃ nbr nbrv, s1 = withNeighbour nbr nbrv s :=
  ⟨s1.nbr, s1.nbrv, (loadNeighbour_next h).1⟩

/-- A literal token is the taking of its byte and its control bit, then EmitUnit. -/
theorem literalTaken_eq (d : Byte) (s : State) : emitted d (useControlBit (advance 1 s)) = literalTaken d s := by
  simp only [emitted, literalTaken, countUnit, winPut, storeOut, useControlBit, advance, BitVec.ofNat_eq_ofNat]

/-- The delivery of a pixel as the operations the rules name, in their order. -/
theorem delivered_eq (k : Nat) (q0 q1 q2 : Byte) (nbr : Pixel) (nbrv : Bool) (s : State) :
    countUnit (advance k (winPut q2 (winPut q1 (winPut q0
      (storeOut (pixelCells s.mode s.units.toNat q0 q1 q2) (withNeighbour nbr nbrv s)))))) =
    delivered k q0 q1 q2 (withNeighbour nbr nbrv s) := by
  simp only [delivered, countUnit, advance, winPut, storeOut, withNeighbour]

variable {p : Params} {s t : State}

theorem effect_hload {h : Header} (e : execHload h s = .next t) : Effect p s (.hload h) t := by
  obtain ⟨seq, ⟨-, rfl⟩ | ⟨present, rfl⟩⟩ := execHload_next e
  · exact .trap (by rw [seq]; rfl) ⟨rfl, rfl⟩
  · exact .headerLoaded seq present

theorem effect_hchk (e : execHchk s = .next t) : Effect p s .hchk t := by
  obtain ⟨seq, ⟨-, rfl⟩ | ⟨-, -, rfl⟩ | ⟨-, -, -, rfl⟩ | ⟨h1, h2, h3, rfl⟩⟩ := execHchk_next e
  · exact .trap (by rw [seq]; rfl) ⟨.inl rfl, rfl⟩
  · exact .trap (by rw [seq]; rfl) ⟨.inr rfl, rfl⟩
  · exact .trap (by rw [seq]; rfl) ⟨.inl rfl, rfl⟩
  · exact .payloadOpened seq ⟨h1, h2, h3⟩

theorem effect_ctl {k : Byte} (e : execCtl k s = .next t) : Effect p s (.ctl k) t := by
  obtain ⟨due, ⟨-, rfl⟩ | ⟨inside, -, rfl⟩⟩ := execCtl_next e
  · exact .trap (busy_of_controlDue due) ⟨rfl, rfl⟩
  · exact .controlLoaded due inside

theorem effect_lit {d : Byte} (e : execLit d s = .next t) : Effect p s (.lit d) t := by
  obtain ⟨due, ⟨-, rfl⟩ | ⟨inside, -, -, taken⟩⟩ := execLit_next e
  · exact .trap (busy_of_tokenDue due) ⟨rfl, rfl⟩
  · rw [taken.trans (literalTaken_eq d s)]
    exact .literal due inside

theorem effect_bref (e : brefWith p.backref s = .next t) : Effect p s .bref t := by
  by_cases supplied : p.backref = none
  · rw [supplied] at e
    obtain ⟨due, rfl⟩ := execBref_next e
    exact .trap (busy_of_tokenDue due) ⟨.inl rfl, rfl⟩
  · obtain ⟨due, rfl | rfl | ⟨f, k, pos, n, -, -, -, inside, fits, copy⟩⟩ := brefWith_next e
    · exact .trap (busy_of_tokenDue due) ⟨.inl rfl, rfl⟩
    · exact .trap (busy_of_tokenDue due) ⟨.inr ⟨rfl, supplied⟩, rfl⟩
    · exact .copied supplied due inside fits copy

theorem effect_pixRaw {q0 q1 q2 : Byte} (e : execPixRaw q0 q1 q2 s = .next t) : Effect p s (.pixRaw q0 q1 q2) t := by
  obtain ⟨due, ⟨-, rfl⟩ | ⟨inside, -, -, s1, load, rfl⟩⟩ := execPixRaw_next e
  · exact .trap (busy_of_pixelDue due) ⟨rfl, rfl⟩
  · obtain ⟨nbr, nbrv, rfl⟩ := loadNeighbour_withNeighbour load
    rw [delivered_eq]
    exact .pixel (.inl ⟨rfl, rfl⟩) due inside load

theorem effect_pixDelta {tag : Byte} (e : deltaWith p.delta tag s = .next t) : Effect p s (.pixDelta tag) t := by
  obtain ⟨due, -, rfl | rfl | ⟨f, k, q0, q1, q2, s1, supplied, -, load, -, inside, -, rfl⟩⟩ := deltaWith_next e
  · exact .trap (busy_of_pixelDue due) (.inl ⟨rfl, rfl⟩)
  · exact .trap (busy_of_pixelDue due) (.inr ⟨rfl, rfl⟩)
  · obtain ⟨nbr, nbrv, rfl⟩ := loadNeighbour_withNeighbour load
    rw [delivered_eq]
    exact .pixel (.inr ⟨by simp [supplied], tag, rfl⟩) due inside load

theorem effect_alen {n : Word} (e : execAlen n s = .next t) : Effect p s (.alen n) t := by
  obtain ⟨seq, ⟨-, rfl⟩ | ⟨inside, -, rfl⟩⟩ := execAlen_next e
  · exact .trap (by rw [seq]; rfl) ⟨rfl, rfl⟩
  · exact .alphaOpened seq inside

/-- The inversion of every meaning, under any parameters. -/
theorem effect_of_execWith {i : Instr} (e : execWith p i s = .next t) : Effect p s i t := by
  cases i with
  | start =>
    obtain ⟨busy, rfl⟩ | ⟨quiet, rfl⟩ := execStart_next e
    · exact .startIgnored busy
    · exact .started quiet
  | hload h => exact effect_hload e
  | hchk => exact effect_hchk e
  | ctl k => exact effect_ctl e
  | lit d => exact effect_lit e
  | bref => exact effect_bref e
  | endPhase =>
    obtain ⟨due, rfl⟩ := execEnd_next e
    exact .phaseEnded due
  | pixRaw p0 p1 p2 => exact effect_pixRaw e
  | pixDelta tag => exact effect_pixDelta e
  | alen n => exact effect_alen e
  | reset => exact .reset e

theorem effect_of_exec {i : Instr} (e : exec i s = .next t) : Effect Config.params s i t :=
  effect_of_execWith (by rw [execWith_default]; exact e)

/-! ### Every step is the host's write or one effect -/

/-- What a step can do (40_header_wrapper.md R80): outside a run the host's write, or the effect of the instruction fetched
for the selected row. -/
theorem effect_of_stepWith (e : stepWith p s = .next t) :
    ((hostMove s).writes && s.seq.busy) = false ∧
    ((s.seq.busy = false ∧ t = hostWrite (hostMove s) (popHost s)) ∨
     ∃ r, select (hostMove s) (popHost s) = .row r ∧ Effect p (popHost s) (fetched r (popHost s)) t) := by
  unfold stepWith stepBy stepMoveBy at e
  split_ifs at e with hw
  refine ⟨by simpa using hw, ?_⟩
  cases hs : select (hostMove s) (popHost s) with
  | quiescent =>
    rw [hs] at e
    exact .inl ⟨(select_quiescent hs).1, (Host.Outcome.next.inj e).symm⟩
  | row r =>
    simp only [hs, runRowBy_eq] at e
    exact .inr ⟨r, rfl, effect_of_execWith e⟩

/-- The machine's own step is the step under the default parameters. -/
theorem step_eq_stepWith (s : State) : step s = stepWith Config.params s := by
  rw [stepWith, execWith_default, step]

/-- A property that the host's moves and every effect keep is kept by every step. -/
theorem stepWith_keeps {P : State → Prop} (pop : ∀ s, P s → P (popHost s))
    (write : ∀ m s, s.seq.busy = false → P s → P (hostWrite m s))
    (effect : ∀ i s t, P s → Effect p s i t → P t) (hs : P s) (e : stepWith p s = .next t) : P t := by
  obtain ⟨-, ⟨quiet, rfl⟩ | ⟨r, -, h⟩⟩ := effect_of_stepWith e
  · exact write _ _ quiet (pop s hs)
  · exact effect _ _ _ (pop s hs) h

end Sys2Proof.Effects
end

section
/-!
PROOFS, what no instruction does: a trap writes four registers, each fault has its instructions, and IN, IN_LEN and the
header registers are left alone (60_exceptions.md sections 1, 2; 10_state.md sections 3, 6).
-/

namespace Sys2Proof.Effects

open Sys2Proof.Machine Sys2Proof.Safety Sys2Proof.TokenStream

variable {p : Params} {s t : State} {i : Instr}

/-- A copy writes OUT, the window and its cursor and counts its units; the token took its bytes and its control bit. -/
theorem copy_frame {k n pos : Nat} (copy : copyUnits n pos (useControlBit (advance k s)) = .next t) :
    t = { s with ip := s.ip + BitVec.ofNat 32 k, ctl := shiftControl s.ctl, cnt := countDown s.cnt, out := t.out,
                 win := t.win, wp := s.wp + BitVec.ofNat 12 n, units := s.units + BitVec.ofNat 32 n } :=
  copyUnits_next copy

/-- At the default no BACKREF is supplied. -/
theorem backref_default : ¬ Config.params.backref ≠ none := fun h => h rfl

/-- At the default no DELTA is supplied. -/
theorem delta_default : ¬ Config.params.delta ≠ none := fun h => h rfl

/-- What RESET gives a value, and what belongs to the host (70_reset_and_hazards.md R200). -/
theorem reset_fields (answer : execReset s = .next t) :
    t.seq = .idle ∧ t.err = .none ∧ t.out = [] ∧ Mem.wf .win t.win = true ∧ t.inp = s.inp ∧ t.inLen = s.inLen ∧
      t.host = s.host := by
  obtain ⟨t', answer', seq, err, out, win, inp, inLen, host, -⟩ := execReset_next s
  have same : t = t' := by
    rw [answer] at answer'
    exact Host.Outcome.next.inj answer'
  rw [same]
  exact ⟨seq, err, out, win, inp, inLen, host⟩

/-- Only a trap enters FAULT. -/
theorem Effect.trap_of_fault (h : Effect p s i t) (hs : s.seq ≠ .fault) (ht : t.seq = .fault) :
    ∃ f info, Raises p i f info ∧ t = trapState f info s := by
  cases h with
  | trap busy raises => exact ⟨_, _, raises, rfl⟩
  | phaseEnded due =>
    by_cases hm : s.mode = .v3rgb <;> simp [Effects.phaseEnded, hm] at ht
  | copied supplied due inside fits copy =>
    rw [copy_frame copy] at ht
    exact absurd ht hs
  | reset answer =>
    rw [(reset_fields answer).1] at ht
    cases ht
  | startIgnored busy => exact absurd ht hs
  | literal due inside => exact absurd ht hs
  | controlLoaded due inside => exact absurd ht hs
  | pixel item due inside load => exact absurd ht hs
  | started quiet => cases ht
  | headerLoaded seq present => cases ht
  | payloadOpened seq valid => cases ht
  | alphaOpened seq inside => cases ht

/-- The host's own fields are left alone by every instruction. -/
theorem Effect.host_fields (h : Effect p s i t) : t.inp = s.inp ∧ t.inLen = s.inLen ∧ t.host = s.host := by
  cases h with
  | copied supplied due inside fits copy =>
    rw [copy_frame copy]
    exact ⟨rfl, rfl, rfl⟩
  | reset answer =>
    obtain ⟨-, -, -, -, fields⟩ := reset_fields answer
    exact fields
  | _ => exact ⟨rfl, rfl, rfl⟩

/-- Only RESET and HLOAD write the header registers. -/
theorem Effect.hdr_eq (h : Effect p s i t) :
    t.hdr = s.hdr ∨ i = .reset ∨ ∃ hd, i = .hload hd ∧ s.seq = .hload ∧ t.hdr = hd := by
  cases h with
  | headerLoaded seq present => exact .inr (.inr ⟨_, rfl, seq, rfl⟩)
  | copied supplied due inside fits copy =>
    rw [copy_frame copy]
    exact .inl rfl
  | reset answer => exact .inr (.inl rfl)
  | _ => exact .inl rfl

theorem Raises.not_ioFailure {f : Err} {info : Byte} (h : Raises p i f info) : f ≠ .none ∧ f ≠ .ioFailure := by
  cases i <;> simp only [Raises] at h <;> aesop

/-- ERR is written by traps, START and RESET only. -/
theorem Effect.err_eq (h : Effect p s i t) :
    t.err = s.err ∨ t.err = .none ∨ ∃ f info, Raises p i f info ∧ t.err = f := by
  cases h with
  | trap busy raises => exact .inr (.inr ⟨_, _, raises, rfl⟩)
  | started quiet => exact .inr (.inl rfl)
  | copied supplied due inside fits copy =>
    rw [copy_frame copy]
    exact .inl rfl
  | reset answer => exact .inr (.inl (reset_fields answer).2.1)
  | _ => exact .inl rfl

/-! ### The statements -/

/-- Settles O27: only a trap enters FAULT, and its information byte is the tag exactly for ReservedTag. -/
theorem trapEntryIsPrecise : Obligations.TrapEntryIsPrecise := by
  unfold Obligations.TrapEntryIsPrecise
  intro i s t e hs ht
  obtain ⟨f, info, raises, rfl⟩ := (effect_of_exec e).trap_of_fault hs ht
  refine ⟨rfl, ?_⟩
  cases i <;> simp only [Raises, trapState_err, trapState_einfo] at raises ⊢ <;> aesop

/-- Settles O28: only a trap enters FAULT, and at the default parameters an instruction raises the faults of its row. -/
theorem faultCauses : Obligations.FaultCauses := by
  unfold Obligations.FaultCauses
  intro i s t e hs ht
  obtain ⟨f, info, raises, rfl⟩ := (effect_of_exec e).trap_of_fault hs ht
  rw [trapState_err]
  cases i <;> simp only [Raises, Config.params] at raises <;> aesop

/-- Settles O29: what writes ERR writes None or a fault of the block. -/
theorem ioFailureNeverRaised : Obligations.IoFailureNeverRaised := by
  unfold Obligations.IoFailureNeverRaised
  intro i s t e io
  obtain same | none | ⟨f, info, raises, rfl⟩ := (effect_of_exec e).err_eq
  · rw [← same, io]
  · rw [none] at io
    cases io
  · exact absurd io raises.not_ioFailure.2

/-- Settles O38: no effect touches IN or IN_LEN, and a busy step is an effect. -/
theorem blockNeverWritesIn : Obligations.BlockNeverWritesIn := by
  unfold Obligations.BlockNeverWritesIn
  refine ⟨fun i s t e => ?_, fun s t busy e => ?_⟩
  · obtain ⟨inp, inLen, -⟩ := (effect_of_exec e).host_fields
    exact ⟨inp, inLen⟩
  · rw [step_eq_stepWith] at e
    obtain ⟨-, ⟨quiet, -⟩ | ⟨r, -, h⟩⟩ := effect_of_stepWith e
    · rw [busy] at quiet
      cases quiet
    · obtain ⟨inp, inLen, -⟩ := h.host_fields
      exact ⟨inp, inLen⟩

/-- Settles O39: every other effect keeps the header registers. -/
theorem headerWrittenByHloadOnly : Obligations.HeaderWrittenByHloadOnly := by
  unfold Obligations.HeaderWrittenByHloadOnly
  exact fun i s t e changed => (effect_of_exec e).hdr_eq.resolve_left changed

end Sys2Proof.Effects
end

section
/-!
PROOFS, the selection of the step (40_header_wrapper.md R80) and the host (70_reset_and_hazards.md sections 2, 3). One lemma
per row of the table says which instruction the step runs, with its operands as bytes of IN.
-/

namespace Sys2Proof.Selection

open Sys2Proof.Machine Sys2Proof.Safety Sys2Proof.TokenStream Sys2Proof.Effects

/-! ### The operands as bytes of IN -/

/-- The 32-bit field of IN at an address (30_encoding.md R67). -/
def inWord (s : State) (a : Nat) : Word :=
  wordOfBytes (inByte s a) (inByte s (a + 1)) (inByte s (a + 2)) (inByte s (a + 3))

theorem inWord_toNat (s : State) (a : Nat) : (inWord s a).toNat = inField s a :=
  Codec.wordOfBytes_toNat _ _ _ _

/-- The header in IN (30_encoding.md R61). -/
def inHeader (s : State) : Header :=
  { htype := inWord s 0, hsent := inWord s 4, hoffx := inWord s 8, hoffy := inWord s 12, hwidth := inWord s 16,
    hheight := inWord s 20, hpacked := inWord s 24, hunpacked := inWord s 28 }

theorem headerFields_inHeader (s : State) {i : Nat} (hi : i < 8) :
    (headerFields (inHeader s)).getD i 0 = inWord s (4 * i) := by
  have fields : headerFields (inHeader s) = (List.range 8).map (fun j => inWord s (4 * j)) := rfl
  simp [fields, hi]

theorem headerByte_inside {s : State} {j : Nat} (h : 32 ≤ s.inLen.toNat) (hj : j < 32) :
    headerByte s j = inByte s j := by
  rw [headerByte, Nat.zero_add, if_pos (by omega)]

/-- Where 32 bytes are present, HLOAD fetches the header in IN. -/
theorem fetchedHeader_inside {s : State} (h : 32 ≤ s.inLen.toNat) : fetchedHeader s = inHeader s := by
  simp only [fetchedHeader, inHeader, inWord, Nat.reduceAdd, headerByte_inside h, Nat.reduceLT]

variable {s : State}

/-- A byte of the item that lies below LIMIT is a byte of IN; the host's move of the step does not touch it. -/
theorem operandByte_popHost {j : Nat} (h1 : s.ip.toNat + j < s.limit.toNat) (h2 : s.limit.toNat ≤ s.inLen.toNat) :
    operandByte (popHost s) j = inByte s (s.ip.toNat + j) :=
  operandByte_inside h1 (Nat.lt_of_lt_of_le h1 h2)

/-! ### The rows of the table -/

theorem select_reset {m : HostMove} (h : m = .reset) : select m s = .row .reset := by
  rw [select, if_pos h]

theorem runRow_ne_reset (s : State) : runRow s ≠ .reset := by
  unfold runRow
  split_ifs <;> simp

/-- Only an asserted reset selects RESET. -/
theorem select_eq_reset {m : HostMove} (h : select m s = .row .reset) : m = .reset := by
  by_contra other
  rw [select, if_neg other] at h
  by_cases start : m = .start <;> cases hs : s.seq <;> simp [hs, start, runRow_ne_reset] at h

theorem select_start (quiet : s.seq.busy = false) : select .start s = .row .start := by
  rw [select, if_neg HostMove.noConfusion]
  cases h : s.seq <;> simp_all [Seq.busy]

theorem select_quiet {m : HostMove} (quiet : s.seq.busy = false) (h1 : m ≠ .reset) (h2 : m ≠ .start) :
    select m s = .quiescent := by
  rw [select, if_neg h1]
  cases h : s.seq <;> simp_all [Seq.busy]

/-- While the block is busy only reset makes a difference. -/
theorem select_busy {m : HostMove} (busy : s.seq.busy = true) (h : m ≠ .reset) : select m s = select .idle s := by
  rw [select, if_neg h, select, if_neg (show ¬ HostMove.idle = .reset from HostMove.noConfusion)]
  cases h : s.seq <;> simp_all [Seq.busy]

/-! ### The step of each row -/

/-- A step under any executor runs the instruction the selected row decodes to. -/
theorem stepBy_of_decode {ex : Instr → State → Result} {r : Row} {i : Instr} {rest : List Byte}
    (hw : ((hostMove s).writes && s.seq.busy) = false) (hr : select (hostMove s) (popHost s) = .row r)
    (hd : decode r (itemBytes r (popHost s)) = .ok (i, rest)) : stepBy ex s = ex i (popHost s) := by
  rw [stepBy, stepMoveBy, popHost_seq, hw, hr]
  simp [runRowBy, hd]

theorem step_reset (h : hostMove s = .reset) : step s = exec .reset (popHost s) :=
  stepBy_row exec (r := .reset) (by rw [h]; rfl) (select_reset h)

theorem step_start (quiet : s.seq.busy = false) (h : hostMove s = .start) : step s = exec .start (popHost s) :=
  stepBy_row exec (r := .start) (by rw [h]; rfl) (by rw [h]; exact select_start quiet)

/-- A quiescent block takes no step; a host write happens (row 3). -/
theorem stepBy_quiet (ex : Instr → State → Result) (quiet : s.seq.busy = false) (h1 : hostMove s ≠ .reset)
    (h2 : hostMove s ≠ .start) : stepBy ex s = .next (hostWrite (hostMove s) (popHost s)) := by
  rw [stepBy, stepMoveBy, popHost_seq, quiet, Bool.and_false, if_neg Bool.false_ne_true,
    select_quiet (s := popHost s) quiet h1 h2]

theorem step_quiet (quiet : s.seq.busy = false) (h1 : hostMove s ≠ .reset) (h2 : hostMove s ≠ .start) :
    step s = .next (hostWrite (hostMove s) (popHost s)) :=
  stepBy_quiet exec quiet h1 h2

/-- While the block is busy a step is the step under no move, unless the host resets or writes (R207). -/
theorem stepMoveBy_busy (ex : Instr → State → Result) {m : HostMove} (busy : s.seq.busy = true) (h1 : m ≠ .reset)
    (h2 : m.writes = false) : stepMoveBy ex m s = stepMoveBy ex .idle s := by
  rw [stepMoveBy, stepMoveBy, h2, select_busy busy h1]
  cases chosen : select .idle s with
  | row r => rfl
  | quiescent =>
    rw [(select_quiescent chosen).1] at busy
    cases busy

theorem execHload_completes (h : Header) (hs : s.seq = .hload) (h1 : 32 ≤ s.inLen.toNat) :
    execHload h s = .next (headerLoaded h s) := by
  rw [execHload, if_pos hs, Config.headerLength, if_neg (Nat.not_lt.mpr h1), headerLoaded]

theorem execHload_short (h : Header) (hs : s.seq = .hload) (h1 : s.inLen.toNat < 32) :
    execHload h s = .next (trapState .invalidHeader 0 s) := by
  rw [execHload, if_pos hs, Config.headerLength, if_pos h1, raise_eq]

theorem step_hload (hq : HostQuiet s) (hs : s.seq = .hload) :
    step s = exec (.hload (fetchedHeader s)) (popHost s) :=
  stepBy_row exec hq.2 (select_hload hq.1 hs)

theorem step_hchk (hq : HostQuiet s) (hs : s.seq = .hchk) : step s = exec .hchk (popHost s) :=
  stepBy_row exec hq.2 (select_hchk hq.1 hs)

theorem step_alen (hq : HostQuiet s) (hs : s.seq = .alen) :
    step s = exec (.alen (wordOfBytes (operandByte (popHost s) 0) (operandByte (popHost s) 1)
      (operandByte (popHost s) 2) (operandByte (popHost s) 3))) (popHost s) :=
  stepBy_row exec hq.2 (select_alen hq.1 hs)

theorem runRow_end (hu : s.units = s.target) : runRow s = .endPhase := by
  rw [runRow, if_pos hu]

theorem runRow_ctl (hu : s.units ≠ s.target) (hm : s.mode.control = true) (hc : s.cnt = 0) : runRow s = .ctl := by
  rw [runRow, if_neg hu, if_pos hm, if_pos hc]

theorem runRow_token (hu : s.units ≠ s.target) (hm : s.mode.control = true) (hc : s.cnt ≠ 0) :
    runRow s = if controlBit s then .lit else .bref := by
  rw [runRow, if_neg hu, if_pos hm, if_neg hc]

theorem runRow_pix (hu : s.units ≠ s.target) (hm : s.mode.control = false) : runRow s = .pix := by
  rw [runRow, if_neg hu, hm, if_neg Bool.false_ne_true]

section Run

variable (hq : HostQuiet s) (hs : s.seq = .run)
include hq hs

theorem step_ctl (hu : s.units ≠ s.target) (hm : s.mode.control = true) (hc : s.cnt = 0) :
    step s = exec (.ctl (operandByte (popHost s) 0)) (popHost s) := by
  rw [step_run hq hs, runRow_ctl hu hm hc, fetched]

theorem step_lit (hu : s.units ≠ s.target) (hm : s.mode.control = true) (hc : s.cnt ≠ 0)
    (hb : controlBit s = true) : step s = exec (.lit (operandByte (popHost s) 0)) (popHost s) := by
  rw [step_run hq hs, runRow_token hu hm hc, hb, if_pos rfl, fetched]

theorem step_bref (hu : s.units ≠ s.target) (hm : s.mode.control = true) (hc : s.cnt ≠ 0)
    (hb : controlBit s = false) : step s = exec .bref (popHost s) := by
  rw [step_run hq hs, runRow_token hu hm hc, hb, if_neg Bool.false_ne_true, fetched]

theorem step_pix (hu : s.units ≠ s.target) (hm : s.mode.control = false) :
    step s = exec (fetched .pix (popHost s)) (popHost s) := by
  rw [step_run hq hs, runRow_pix hu hm]

end Run

theorem fetched_pixRaw (h1 : s.ip.toNat + 4 ≤ s.limit.toNat) (h2 : s.limit.toNat ≤ s.inLen.toNat)
    (tag : inByte s s.ip.toNat = 0) :
    fetched .pix (popHost s) = .pixRaw (inByte s (s.ip.toNat + 1)) (inByte s (s.ip.toNat + 2))
      (inByte s (s.ip.toNat + 3)) := by
  rw [fetched, operandByte_popHost (j := 0) (by omega) h2, operandByte_popHost (j := 1) (by omega) h2,
    operandByte_popHost (j := 2) (by omega) h2, operandByte_popHost (j := 3) (by omega) h2, Nat.add_zero, if_pos tag]

theorem fetched_pixDelta (h1 : s.ip.toNat < s.limit.toNat) (h2 : s.limit.toNat ≤ s.inLen.toNat)
    (tag : inByte s s.ip.toNat ≠ 0) : fetched .pix (popHost s) = .pixDelta (inByte s s.ip.toNat) := by
  rw [fetched, operandByte_popHost (j := 0) h1 h2, Nat.add_zero, if_neg tag]

/-- The alpha length ALEN fetches, where its four bytes lie below LIMIT. -/
theorem alen_operand (h1 : s.ip.toNat + 4 ≤ s.limit.toNat) (h2 : s.limit.toNat ≤ s.inLen.toNat) :
    wordOfBytes (operandByte (popHost s) 0) (operandByte (popHost s) 1) (operandByte (popHost s) 2)
      (operandByte (popHost s) 3) = inWord s s.ip.toNat := by
  rw [operandByte_popHost (j := 0) (by omega) h2, operandByte_popHost (j := 1) (by omega) h2,
    operandByte_popHost (j := 2) (by omega) h2, operandByte_popHost (j := 3) (by omega) h2, inWord, Nat.add_zero]

/-! ### The statements -/

/-- Settles O9: the three states are those in which the block is not busy. -/
theorem startBeginsRun : Obligations.StartBeginsRun := by
  unfold Obligations.StartBeginsRun
  intro s hs
  have quiet : s.seq.busy = false := by rcases hs with h | h | h <;> rw [h] <;> rfl
  rw [exec, execStart, if_neg (by rw [quiet]; exact Bool.false_ne_true)]

/-- Settles O10: START answers a busy state itself, and the selection looks at no move but reset. -/
theorem startIgnoredWhileBusy : Obligations.StartIgnoredWhileBusy := by
  unfold Obligations.StartIgnoredWhileBusy
  intro s m hs busy
  refine ⟨if_pos busy, fun host h1 h2 => ?_⟩
  have move : hostMove s = m := by rw [hostMove, host]; rfl
  have pop : popHost s = popHost { s with host := .idle :: hs } := by simp only [popHost, host, List.tail_cons]
  rw [step, stepBy, move, stepMoveBy_busy exec (s := popHost s) busy h1 h2, pop]
  rfl

/-- Settles O11: what RESET gives a value, and the first row of the table. -/
theorem resetCommand : Obligations.ResetCommand := by
  unfold Obligations.ResetCommand
  intro s
  refine ⟨?_, step_reset⟩
  obtain ⟨t, answer, seq, err, out, -, inp, inLen, host, -⟩ := execReset_next s
  exact ⟨t, answer, seq, err, fun a => by rw [out]; rfl, inp, inLen, host⟩

/-- Settles O12: the effect and the trap of HLOAD, and that its operand is the header in IN. -/
theorem hloadLoadsHeader : Obligations.HloadLoadsHeader := by
  unfold Obligations.HloadLoadsHeader
  refine ⟨fun h s hs => ⟨execHload_completes h hs, execHload_short h hs⟩,
    fun s hs hq h1 => ⟨inHeader s, ?_, fun i hi => ?_⟩⟩
  · rw [step_hload hq hs, fetchedHeader_inside h1]
    exact execHload_completes (s := popHost s) _ hs h1
  · rw [headerFields_inHeader s hi, inWord_toNat]

/-- Settles O30: from FAULT the only rows besides START and reset are quiescent, and a host write touches IN and IN_LEN. -/
theorem faultPersists : Obligations.FaultPersists := by
  unfold Obligations.FaultPersists
  intro s t e hs h1 h2
  rw [step_quiet (by rw [hs]; rfl) h2 h1] at e
  rw [← Host.Outcome.next.inj e]
  cases hostMove s <;> exact ⟨hs, rfl, rfl, rfl⟩

/-- Settles O31: the step of the decoded instruction, for the machine's executor. -/
theorem stepRunsDecoded : Obligations.StepRunsDecoded := by
  unfold Obligations.StepRunsDecoded
  exact fun s r i rest hw hr hd => stepBy_of_decode hw hr hd

/-- Settles O57: the same for the executor under parameters, of which only BREF and PIX.DELTA look at them. -/
theorem stepRunsDecodedUnderParameters : Obligations.StepRunsDecodedUnderParameters := by
  unfold Obligations.StepRunsDecodedUnderParameters
  exact fun p => ⟨fun s r i rest hw hr hd => stepBy_of_decode hw hr hd, fun s => rfl, fun tag s => rfl,
    fun i s hb hd => execWith_eq_exec hb hd s, fun s => (step_eq_stepWith s).symm⟩

/-- Settles O32: the rows of the table from top to bottom. -/
theorem stepSelectionTable : Obligations.StepSelectionTable := by
  unfold Obligations.StepSelectionTable
  intro s
  refine ⟨step_reset, step_start, fun quiet h => ?_, fun hq => ⟨fun hs => ⟨_, step_hload hq hs⟩, step_hchk hq,
    fun hs hu => ?_, fun hs hu hm hc => ⟨_, step_ctl hq hs hu hm hc, operandByte_popHost (j := 0)⟩,
    fun hs hu hm hc hb => ⟨_, step_lit hq hs hu hm hc hb, operandByte_popHost (j := 0)⟩,
    step_bref hq, fun hs hu hm => ⟨_, fetched_wellFormed .pix _, fetched_row .pix _, step_pix hq hs hu hm⟩,
    fun hs hu hm h1 h2 tag => ?_, fun hs hu hm h1 h2 tag => ?_, fun hs => ⟨_, step_alen hq hs, fun h1 h2 => ?_⟩⟩⟩
  · rw [step_quiet quiet (by rw [h]; decide) (by rw [h]; decide), h]
    rfl
  · exact step_of_endDue ((endDue_iff s).mpr ⟨hs, hu⟩) hq
  · exact (step_pix hq hs hu hm).trans (by rw [fetched_pixRaw h1 h2 tag]; rfl)
  · exact (step_pix hq hs hu hm).trans (by rw [fetched_pixDelta h1 h2 tag]; rfl)
  · rw [alen_operand h1 h2, inWord_toNat]

/-- Settles O33: the quiescent row with the two host writes. -/
theorem hostWritesBetweenRuns : Obligations.HostWritesBetweenRuns := by
  unfold Obligations.HostWritesBetweenRuns
  intro s hs quiet
  have written (m : HostMove) (host : s.host = m :: hs) (h1 : m ≠ .reset) (h2 : m ≠ .start) :
      step s = .next (hostWrite m { s with host := hs }) := by
    have move : hostMove s = m := by rw [hostMove, host]; rfl
    have pop : popHost s = { s with host := hs } := by rw [popHost, host]; rfl
    rw [step_quiet quiet (by rw [move]; exact h1) (by rw [move]; exact h2), move, pop]
  refine ⟨fun a b host => ⟨_, written _ host (by simp) (by simp), rfl, fun x => ?_⟩,
    fun n host => written _ host (by simp) (by simp)⟩
  exact Mem.read_write .inp s.inp a.toNat x b

/-- Settles O34: the first thing a step looks at. -/
theorem hostWriteWhileBusyRefused : Obligations.HostWriteWhileBusyRefused := by
  unfold Obligations.HostWriteWhileBusyRefused
  intro s busy writes
  rw [step, stepBy, stepMoveBy, popHost_seq, busy, writes, Bool.and_true, if_pos rfl]

/-- Settles O51: the 24 numbers are read one by one, and from 24 on only the last arm of the table is left. -/
theorem hostRegisterNumbers : Obligations.HostRegisterNumbers := by
  unfold Obligations.HostRegisterNumbers
  refine fun s => ⟨rfl, fun n hn => ?_⟩
  obtain ⟨k, rfl⟩ := Nat.exists_eq_add_of_le' hn
  rfl

end Sys2Proof.Selection
end

section
/-!
PROOFS, the header's checks and the opening of a phase (40_header_wrapper.md section 4, 45_v3_composite.md R150). A header
that passed the checks has sizes that fit a signed word, so no word written at the opening of a phase wraps.
-/

namespace Sys2Proof.Validation

open Sys2Proof.Machine Sys2Proof.Safety Sys2Proof.Effects

/-! ### The three checks (R83) -/

theorem headerInvalid_iff (h : Header) :
    headerInvalid h = true ↔ h.htype.toInt < 0 ∨ 3 < h.htype.toInt ∨ h.hsent.toInt ≠ -1 := by
  simp [headerInvalid, or_assoc]

theorem sizeMismatch_iff (h : Header) :
    sizeMismatch h = true ↔
      h.hunpacked.toInt ≠ h.hwidth.toInt * h.hheight.toInt * (if h.htype.toInt = 3 then 4 else 3) := by
  simp [sizeMismatch, pixelCount, bytesPerPixel]

theorem dimensionInvalid_iff (h : Header) :
    dimensionInvalid h = true ↔ h.hwidth.toInt ≤ 0 ∨ h.hheight.toInt ≤ 0 := by
  simp [dimensionInvalid]

/-! ### The sizes of a valid header -/

section Sizes

variable {h : Header} (hv : HeaderValid h)
include hv

theorem type_cases : h.htype.toInt = 0 ∨ h.htype.toInt = 1 ∨ h.htype.toInt = 2 ∨ h.htype.toInt = 3 := by
  obtain ⟨h0, h3, -⟩ := hv.facts
  omega

theorem hunpacked_of_type_three (h3 : h.htype.toInt = 3) : h.hunpacked.toInt = 4 * pixelCount h := by
  obtain ⟨-, -, size, -⟩ := hv.facts
  rw [size, bytesPerPixel, if_pos h3, Int.mul_comm]

theorem hunpacked_of_other_type (h3 : h.htype.toInt ≠ 3) : h.hunpacked.toInt = 3 * pixelCount h := by
  obtain ⟨-, -, size, -⟩ := hv.facts
  rw [size, bytesPerPixel, if_neg h3, Int.mul_comm]

/-- HUNPACKED is positive and holds every pixel three times at least. -/
theorem pixelCount_le : 0 < h.hunpacked.toInt ∧ 3 * pixelCount h ≤ h.hunpacked.toInt := by
  have pos := hv.pixelCount_pos
  by_cases h3 : h.htype.toInt = 3
  · have size := hunpacked_of_type_three hv h3
    omega
  · have size := hunpacked_of_other_type hv h3
    omega

theorem firstTarget_bounds : 0 < firstTarget h ∧ firstTarget h ≤ 2147483647 := by
  have pos := hv.pixelCount_pos
  have le := pixelCount_le hv
  have max := word_toInt_le h.hunpacked
  unfold firstTarget
  split_ifs <;> omega

end Sizes

/-! ### The modes by type (R84) -/

theorem ofType_zero {w : Word} (h : w.toInt = 0) : Mode.ofType w = .v0 := by simp [Mode.ofType, h]
theorem ofType_one {w : Word} (h : w.toInt = 1) : Mode.ofType w = .v1 := by simp [Mode.ofType, h]
theorem ofType_two {w : Word} (h : w.toInt = 2) : Mode.ofType w = .v2 := by simp [Mode.ofType, h]
theorem ofType_three {w : Word} (h : w.toInt = 3) : Mode.ofType w = .v3rgb := by simp [Mode.ofType, h]

/-! ### What the opening of a phase writes -/

section Opening

variable {s : State}

theorem openPayload_outLen (hv : HeaderValid s.hdr) : ((openPayload s).outLen.toNat : Int) = s.hdr.hunpacked.toInt :=
  word_toNat_of_nonneg (pixelCount_le hv).1.le

theorem openPayload_target (hv : HeaderValid s.hdr) : ((openPayload s).target.toNat : Int) = firstTarget s.hdr := by
  obtain ⟨pos, le⟩ := firstTarget_bounds hv
  exact word_ofInt_toNat pos.le (by omega)

theorem openPayload_limit (s : State) :
    ((openPayload s).limit.toNat : Int) = 32 + max 0 (min s.hdr.hpacked.toInt ((s.inLen.toNat : Int) - 32)) := by
  have small := s.inLen.isLt
  have limit : (openPayload s).limit = BitVec.ofInt 32 (payloadEnd s) := rfl
  have value : payloadEnd s = 32 + max 0 (min s.hdr.hpacked.toInt ((s.inLen.toNat : Int) - 32)) := rfl
  rw [limit, ← value]
  exact word_ofInt_toNat (by omega) (by omega)

theorem winGet_openPayload {p : Nat} (hp : p < 4096) : winGet p (openPayload s) = seed p := by
  rw [openPayload, winGet_beginPhase, Nat.mod_eq_of_lt hp]

theorem openAlpha_limit {n : Word} (h : s.ip.toNat + 4 ≤ s.limit.toNat) :
    ((openAlpha n s).limit.toNat : Int) = min (s.limit.toNat : Int) ((s.ip.toNat : Int) + 4 + max n.toInt 0) := by
  have small := s.limit.isLt
  have ip : (s.ip + BitVec.ofNat 32 4).toNat = s.ip.toNat + 4 := word_add_toNat (by omega)
  have limit : (openAlpha n s).limit =
      BitVec.ofInt 32 (alphaEnd s.limit.toNat (s.ip + BitVec.ofNat 32 4).toNat n) := rfl
  rw [limit, ip, alphaEnd, word_ofInt_toNat (by omega) (by omega)]
  omega

theorem openAlpha_ip {n : Word} (h : s.ip.toNat + 4 ≤ s.limit.toNat) :
    (openAlpha n s).ip.toNat = s.ip.toNat + 4 :=
  word_add_toNat (w := s.ip) (n := 4) (by have := s.limit.isLt; omega)

theorem openAlpha_target {n : Word} (h0 : 0 ≤ pixelCount s.hdr) (h1 : pixelCount s.hdr < 4294967296) :
    ((openAlpha n s).target.toNat : Int) = pixelCount s.hdr :=
  word_ofInt_toNat h0 h1

theorem winGet_openAlpha {n : Word} {p : Nat} (hp : p < 4096) : winGet p (openAlpha n s) = seed p := by
  rw [openAlpha, winGet_beginPhase, Nat.mod_eq_of_lt hp]

end Opening

/-! ### The statements -/

/-- Settles O13: the checks as the rule words them, then the words the opening writes, none of which wraps. -/
theorem hchkValidatesHeader : Obligations.HchkValidatesHeader := by
  unfold Obligations.HchkValidatesHeader
  intro s hs w h bytes bad1 bad2 bad3
  have check1 : headerInvalid s.hdr = true ↔ bad1 := headerInvalid_iff s.hdr
  have check2 : sizeMismatch s.hdr = true ↔ bad2 := sizeMismatch_iff s.hdr
  have check3 : dimensionInvalid s.hdr = true ↔ bad3 := dimensionInvalid_iff s.hdr
  refine ⟨fun h1 => ?_, fun h1 h2 => ?_, fun h1 h2 h3 => ?_, fun h1 h2 h3 => ?_⟩
  · rw [exec, execHchk, if_pos hs, if_pos (check1.mpr h1)]
    rfl
  · rw [exec, execHchk, if_pos hs, if_neg (h1 ∘ check1.mp), if_pos (check2.mpr h2)]
    rfl
  · rw [exec, execHchk, if_pos hs, if_neg (h1 ∘ check1.mp), if_neg (h2 ∘ check2.mp), if_pos (check3.mpr h3)]
    rfl
  · have hv : HeaderValid s.hdr := by
      rw [← check1, Bool.not_eq_true] at h1
      rw [← check2, Bool.not_eq_true] at h2
      rw [← check3, Bool.not_eq_true] at h3
      exact ⟨h1, h2, h3⟩
    exact ⟨openPayload s, execHchk_completes hs hv.1 hv.2.1 hv.2.2, rfl, openPayload_outLen hv, fun _ => rfl,
      openPayload_limit s, rfl, ofType_zero, ofType_one, ofType_two, ofType_three, openPayload_target hv,
      fun _ => winGet_openPayload, rfl⟩

/-- Settles O14: only the opening of the payload leads to RUN; its sizes by the four types. -/
theorem variantSelectorTable : Obligations.VariantSelectorTable := by
  unfold Obligations.VariantSelectorTable
  intro s t hs e ht
  have opened : HeaderValid s.hdr ∧ t = openPayload s := by
    cases effect_of_exec e with
    | trap busy raises => cases ht
    | payloadOpened seq valid => exact ⟨valid, rfl⟩
    | pixel item =>
      obtain ⟨other, -⟩ | ⟨-, tag, other⟩ := item
      · cases other
      · cases other
  obtain ⟨hv, rfl⟩ := opened
  have outLen := openPayload_outLen hv
  have target := openPayload_target hv
  obtain ⟨pos, le⟩ := firstTarget_bounds hv
  have mode : (openPayload s).mode = Mode.ofType s.hdr.htype := rfl
  refine ⟨hv.pixelCount_pos, by omega, by omega, ?_⟩
  obtain h | h | h | h := type_cases hv
  · have size := hunpacked_of_other_type hv (by omega)
    rw [firstTarget, if_pos h] at target
    exact .inl ⟨h, mode.trans (ofType_zero h), outLen.trans size, target.trans size⟩
  · have size := hunpacked_of_other_type hv (by omega)
    rw [firstTarget, if_neg (by omega)] at target
    exact .inr (.inl ⟨h, mode.trans (ofType_one h), outLen.trans size, target⟩)
  · have size := hunpacked_of_other_type hv (by omega)
    rw [firstTarget, if_neg (by omega)] at target
    exact .inr (.inr (.inl ⟨h, mode.trans (ofType_two h), outLen.trans size, target⟩))
  · have size := hunpacked_of_type_three hv h
    rw [firstTarget, if_neg (by omega)] at target
    exact .inr (.inr (.inr ⟨h, mode.trans (ofType_three h), outLen.trans size, target⟩))

/-- Settles O25: the two sides of IP + 4 <= LIMIT and the words the opening of the alpha phase writes. -/
theorem alenOpensAlphaPlane : Obligations.AlenOpensAlphaPlane := by
  unfold Obligations.AlenOpensAlphaPlane
  intro n s hs
  refine ⟨fun h1 => ?_, fun h1 h2 h3 h4 => ?_⟩
  · rw [exec, execAlen, if_pos hs, guardFetch_truncated _ h1]
    rfl
  · exact ⟨openAlpha n s, execAlen_completes hs h1 (Nat.le_trans h1 h2), rfl, openAlpha_ip h1, openAlpha_limit h1,
      openAlpha_target h3 h4, fun _ => winGet_openAlpha, rfl⟩

end Sys2Proof.Validation
end

section
/-!
PROOFS, the pixels (44_v2_predictor.md) and the back-reference (42_tokenstream.md section 4). A delivered pixel writes three
neighbouring addresses of OUT and three neighbouring places of the window. A copy is a sequence of states, each one unit
after the one before it; what it leaves in OUT and in the window is read off that sequence.
-/

namespace Sys2Proof.Delivery

open Sys2Proof.Machine Sys2Proof.Safety Sys2Proof.TokenStream Sys2Proof.Effects

variable {s : State}

/-! ### The cursor -/

theorem cursor_succ_toNat (c : Cursor) : (c + 1).toNat = (c.toNat + 1) % 4096 := by
  rw [BitVec.toNat_add]
  rfl

/-- A window address counts modulo 4096 (41_dictionary.md R104). -/
theorem winGet_mod_congr (s : State) {p q : Nat} (h : p % 4096 = q % 4096) : winGet p s = winGet q s := by
  rw [winGet, winGet, Config.windowLength, h]

/-! ### The neighbour load (R136) -/

theorem loadNeighbour_first (hu : s.units.toNat = 0) :
    loadNeighbour s = .next (withNeighbour (Config.freeBits 24 s.free .neighbour) false s) := by
  rw [loadNeighbour, neighbourUnit, if_pos hu]
  rfl

/-- The NBR a load gives, the neighbour being unit `v`. -/
def neighbourPixel (s : State) (v : Nat) : Pixel :=
  pixelOfBytes (outByte s (pixelStride s.mode * v)) (outByte s (pixelStride s.mode * v + 1))
    (outByte s (pixelStride s.mode * v + 2))

theorem loadNeighbour_later {v : Nat} (hv : neighbourUnit s.units.toNat s.hdr.hwidth.toInt = some v)
    (room : pixelStride s.mode * v + 2 < s.outLen.toNat) :
    loadNeighbour s = .next (withNeighbour (neighbourPixel s v) true s) := by
  simp only [loadNeighbour, hv, if_pos room, withNeighbour, neighbourPixel]

theorem neighbourUnit_of_pos {u v : Nat} {w : Int} (hu : u ≠ 0)
    (hv : (v : Int) = if (u : Int) < w then (u : Int) - 1 else (u : Int) - w) : neighbourUnit u w = some v := by
  rw [neighbourUnit, if_neg hu]
  split_ifs at hv ⊢ <;> (congr 1; omega)

/-- In an image with columns the neighbour is an earlier pixel. -/
theorem neighbourUnit_lt {u v : Nat} {w : Int} (hw : 0 < w) (hv : neighbourUnit u w = some v) : v < u := by
  unfold neighbourUnit at hv
  split_ifs at hv <;> (have := Option.some.inj hv; omega)

theorem neighbour_room {u v : Nat} {m : Mode} {n : Nat} (hv : v < u) (room : pixelStride m * u + 2 < n) :
    pixelStride m * v + 2 < n := by
  have := Nat.mul_le_mul_left (pixelStride m) hv.le
  omega

/-- Where the pixel itself has room in OUT, its neighbour has. -/
theorem loadNeighbour_completes (hw : 0 < s.hdr.hwidth.toInt)
    (room : pixelStride s.mode * s.units.toNat + 2 < s.outLen.toNat) :
    ∃ nbr nbrv, loadNeighbour s = .next (withNeighbour nbr nbrv s) := by
  cases hv : neighbourUnit s.units.toNat s.hdr.hwidth.toInt with
  | none =>
    have hu : s.units.toNat = 0 := by
      unfold neighbourUnit at hv
      split_ifs at hv
      assumption
    exact ⟨_, _, loadNeighbour_first hu⟩
  | some v => exact ⟨_, _, loadNeighbour_later hv (neighbour_room (neighbourUnit_lt hw hv) room)⟩

/-! ### The delivery of a pixel (R137) -/

section Pixel

variable (k : Nat) (q0 q1 q2 : Byte)

theorem read_delivered_out (s : State) (a : Nat) :
    Mem.read .out (delivered k q0 q1 q2 s).out a =
      if a = pixelStride s.mode * s.units.toNat then some q0
      else if a = pixelStride s.mode * s.units.toNat + 1 then some q1
      else if a = pixelStride s.mode * s.units.toNat + 2 then some q2 else Mem.read .out s.out a := by
  simp only [delivered, pixelCells, Mem.writeAll, Mem.read_write]
  split_ifs <;> first | rfl | omega

theorem winGet_delivered (s : State) (p : Nat) :
    winGet p (delivered k q0 q1 q2 s) =
      if p % 4096 = s.wp.toNat then q0 else if p % 4096 = (s.wp.toNat + 1) % 4096 then q1
      else if p % 4096 = (s.wp.toNat + 2) % 4096 then q2 else winGet p s := by
  have small : s.wp.toNat < 4096 := s.wp.isLt
  have puts : winGet p (delivered k q0 q1 q2 s) = winGet p (winPut q2 (winPut q1 (winPut q0 s))) :=
    winGet_congr p rfl
  rw [puts]
  simp only [winGet_winPut, winPut_wp, cursor_succ_toNat]
  split_ifs <;> first | rfl | omega

theorem delivered_wp_toNat (s : State) : (delivered k q0 q1 q2 s).wp.toNat = (s.wp.toNat + 3) % 4096 := by
  have wp : (delivered k q0 q1 q2 s).wp = s.wp + 1 + 1 + 1 := rfl
  simp only [wp, cursor_succ_toNat]
  omega

/-- A delivery whose bytes lie in the segment moves IP without a wrap. -/
theorem delivered_ip_toNat {k : Nat} (h : s.ip.toNat + k ≤ s.limit.toNat) :
    (delivered k q0 q1 q2 s).ip.toNat = s.ip.toNat + k :=
  word_add_toNat (w := s.ip) (by have := s.limit.isLt; omega)

theorem delivered_units_toNat (h : s.units.toNat < s.target.toNat) :
    (delivered k q0 q1 q2 s).units.toNat = s.units.toNat + 1 :=
  word_succ_toNat h

end Pixel

/-! ### The delivery of a literal (42_tokenstream.md R112, R113) -/

section Literal

variable (d : Byte)

theorem read_literalTaken_lane {a : Nat} (lane : UnitLane s.mode s.units.toNat a) :
    Mem.read .out (literalTaken d s).out a = some d := by
  rw [← literalTaken_eq]
  exact read_emitted_out_lane (s := useControlBit (advance 1 s)) d lane

theorem read_literalTaken_other {a : Nat} (other : ¬ UnitLane s.mode s.units.toNat a) :
    Mem.read .out (literalTaken d s).out a = Mem.read .out s.out a := by
  rw [← literalTaken_eq]
  exact read_emitted_out_other (s := useControlBit (advance 1 s)) d other

theorem winGet_literalTaken (p : Nat) (s : State) :
    winGet p (literalTaken d s) = if p % 4096 = s.wp.toNat then d else winGet p s := by
  rw [← literalTaken_eq]
  exact winGet_emitted p d (useControlBit (advance 1 s))

theorem literalTaken_ip_toNat (inside : s.ip.toNat + 1 ≤ s.limit.toNat) :
    (literalTaken d s).ip.toNat = s.ip.toNat + 1 :=
  word_succ_toNat inside

theorem literalTaken_units_toNat (below : s.units.toNat < s.target.toNat) :
    (literalTaken d s).units.toNat = s.units.toNat + 1 :=
  word_succ_toNat below

theorem literalTaken_wp_toNat (s : State) : (literalTaken d s).wp.toNat = (s.wp.toNat + 1) % 4096 :=
  cursor_succ_toNat s.wp

end Literal

/-! ### The meanings of the pixel items -/

theorem execPixRaw_truncated {p0 p1 p2 : Byte} (due : pixelDue s = true) (h : s.limit.toNat < s.ip.toNat + 4) :
    execPixRaw p0 p1 p2 s = .next (trapState .truncatedStream 0 s) := by
  rw [execPixRaw, if_pos due, guardFetch_truncated _ h]

theorem execPixRaw_delivers {p0 p1 p2 nbr nbrv} (due : pixelDue s = true) (h1 : s.ip.toNat + 4 ≤ s.limit.toNat)
    (h2 : s.limit.toNat ≤ s.inLen.toNat) (room : pixelStride s.mode * s.units.toNat + 2 < s.outLen.toNat)
    (load : loadNeighbour s = .next (withNeighbour nbr nbrv s)) :
    execPixRaw p0 p1 p2 s = .next (delivered 4 p0 p1 p2 (withNeighbour nbr nbrv s)) := by
  rw [execPixRaw_completes due h1 (Nat.le_trans h1 h2) room load, delivered_eq]

theorem deltaWith_truncated {d : Option DeltaFn} {tag : Byte} (due : pixelDue s = true) (ht : tag ≠ 0)
    (h : s.limit.toNat < s.ip.toNat + 1) : deltaWith d tag s = .next (trapState .truncatedStream 0 s) := by
  rw [deltaWith, due, Bool.true_and, if_pos (bne_iff_ne.mpr ht), guardFetch_truncated _ h]

/-- What a supplied DELTA's answer makes of a pixel item with this tag, `s1` being the state after the neighbour load. -/
def deltaAnswered (tag : Byte) (s s1 : State) : DeltaResult → Result
  | .truncated        => .next (trapState .truncatedStream 0 s)
  | .refuse           => .next (trapState .reservedTag tag s)
  | .pixel k q0 q1 q2 =>
    if s.limit.toNat < s.ip.toNat + k then .next (trapState .truncatedStream 0 s) else putPixel k q0 q1 q2 s1

/-- With a byte for its tag and a neighbour, a pixel item is what DELTA answers for it. -/
theorem deltaWith_supplied {f : DeltaFn} {tag : Byte} {s1 : State} (due : pixelDue s = true) (ht : tag ≠ 0)
    (h1 : s.ip.toNat < s.limit.toNat) (h2 : s.limit.toNat ≤ s.inLen.toNat) (load : loadNeighbour s = .next s1) :
    deltaWith (some f) tag s =
      deltaAnswered tag s s1 (f tag (streamBytes s) s.ip s.limit (neighbourSeen s1)) := by
  rw [deltaWith, due, Bool.true_and, if_pos (bne_iff_ne.mpr ht), guardFetch_inside _ h1 (Nat.le_trans h1 h2)]
  simp only [if_neg (Nat.not_lt.mpr h2), load, andThen_next, raise_eq]
  cases f tag (streamBytes s) s.ip s.limit (neighbourSeen s1) <;> rfl

theorem putPixel_completes {k : Nat} {q0 q1 q2 : Byte} {nbr : Pixel} {nbrv : Bool}
    (room : pixelStride s.mode * s.units.toNat + 2 < s.outLen.toNat) :
    putPixel k q0 q1 q2 (withNeighbour nbr nbrv s) = .next (delivered k q0 q1 q2 (withNeighbour nbr nbrv s)) :=
  putPixel_eq_next.mpr ⟨room, (delivered_eq k q0 q1 q2 nbr nbrv s).symm⟩

/-! ### The meaning of a back-reference (R114) -/

/-- What a supplied BACKREF's answer makes of a token. -/
def brefAnswered (s : State) : BackrefResult → Result
  | .truncated    => .next (trapState .truncatedStream 0 s)
  | .refuse       => .next (trapState .reservedToken 0 s)
  | .copy k pos n =>
    if s.limit.toNat < s.ip.toNat + k then .next (trapState .truncatedStream 0 s)
    else if s.target.toNat < s.units.toNat + n then .next (trapState .reservedToken 0 s)
    else copyUnits n pos.toNat (useControlBit (advance k s))

/-- With a segment inside IN, a token is what BACKREF answers for it. -/
theorem brefWith_supplied {f : BackrefFn} (due : tokenDue false s = true) (h : s.limit.toNat ≤ s.inLen.toNat) :
    brefWith (some f) s = brefAnswered s (f (streamBytes s) s.ip s.limit s.wp) := by
  rw [brefWith, if_pos due]
  simp only [if_neg (Nat.not_lt.mpr h), raise_eq]
  cases f (streamBytes s) s.ip s.limit s.wp <;> rfl

/-! ### The states of a copy -/

/-- The state after `j` units of a copy from window position `pos`. -/
def copyState (pos : Nat) (s : State) : Nat → State
  | 0     => s
  | j + 1 => emitted (winGet (pos + j) (copyState pos s j)) (copyState pos s j)

/-- Byte `j` of a copy: what the window holds at its source after the `j` units before it. -/
def copiedByte (pos : Nat) (s : State) (j : Nat) : Byte := winGet (pos + j) (copyState pos s j)

theorem copyState_succ (pos : Nat) (s : State) (j : Nat) :
    copyState pos s (j + 1) = emitted (copiedByte pos s j) (copyState pos s j) := rfl

/-- The states of a copy, taken from its second unit on. -/
theorem copyState_succ_start (pos : Nat) (s : State) (j : Nat) :
    copyState pos s (j + 1) = copyState (pos + 1) (emitted (winGet pos s) s) j := by
  induction j with
  | zero => rfl
  | succ j ih => rw [copyState, ih, copyState, Nat.add_assoc, Nat.add_comm 1 j]

theorem copyUnits_next_eq {n pos : Nat} {t : State} (h : copyUnits n pos s = .next t) : t = copyState pos s n := by
  induction n generalizing pos s with
  | zero => exact (Host.Outcome.next.inj h).symm
  | succ n ih =>
    rw [copyUnits, andThen_eq_next] at h
    obtain ⟨s1, h1, h2⟩ := h
    obtain ⟨-, rfl⟩ := emitUnit_eq_next.mp h1
    rw [ih h2, copyState_succ_start]
    rfl

/-- A copy whose units all have room in OUT completes. -/
theorem copyUnits_completes {n pos : Nat} (small : s.units.toNat + n < 4294967296)
    (room : ∀ j a, j < n → UnitLane s.mode (s.units.toNat + j) a → a < s.outLen.toNat) :
    copyUnits n pos s = .next (copyState pos s n) := by
  induction n generalizing pos s with
  | zero => rfl
  | succ n ih =>
    have units : (emitted (winGet pos s) s).units.toNat = s.units.toNat + 1 :=
      word_add_toNat (w := s.units) (n := 1) (by omega)
    rw [copyUnits, emitUnit_completes (fun a => room 0 a (Nat.succ_pos n)), andThen_next, copyState_succ_start]
    refine ih (by omega) fun j a hj lane => room (j + 1) a (by omega) ?_
    rw [units, Nat.add_right_comm] at lane
    exact lane

/-- A copy changes OUT, the window, its cursor and the count of units only. -/
theorem copyState_frame (pos : Nat) (s : State) (j : Nat) :
    copyState pos s j = { s with out := (copyState pos s j).out, win := (copyState pos s j).win,
                                 wp := (copyState pos s j).wp, units := (copyState pos s j).units } := by
  induction j with
  | zero => rfl
  | succ j ih =>
    rw [copyState_succ, emitted_frame]
    generalize emitted (copiedByte pos s j) (copyState pos s j) = t
    rw [ih]

@[simp] theorem copyState_mode (pos : Nat) (s : State) (j : Nat) : (copyState pos s j).mode = s.mode := by
  rw [copyState_frame]

theorem copyState_units_toNat {pos j : Nat} (small : s.units.toNat + j < 4294967296) :
    (copyState pos s j).units.toNat = s.units.toNat + j := by
  induction j with
  | zero => rfl
  | succ j ih =>
    have before := ih (by omega)
    have units : (copyState pos s (j + 1)).units.toNat = (copyState pos s j).units.toNat + 1 :=
      word_add_toNat (w := (copyState pos s j).units) (n := 1) (by omega)
    omega

theorem copyState_wp_toNat (pos : Nat) (s : State) (j : Nat) :
    (copyState pos s j).wp.toNat = (s.wp.toNat + j) % 4096 := by
  induction j with
  | zero =>
    have small : s.wp.toNat < 4096 := s.wp.isLt
    rw [copyState, Nat.add_zero, Nat.mod_eq_of_lt small]
  | succ j ih =>
    rw [copyState_succ, emitted_wp_toNat, ih]
    omega

/-! ### What a copy leaves in OUT -/

/-- An address carries one unit only. -/
theorem unitLane_unique {m : Mode} {u v a : Nat} (hu : UnitLane m u a) (hv : UnitLane m v a) : u = v := by
  cases m <;> simp only [UnitLane] at hu hv <;> omega

theorem read_copyState_out_lane {pos n j a : Nat} (small : s.units.toNat + n < 4294967296) (hj : j < n)
    (lane : UnitLane s.mode (s.units.toNat + j) a) :
    Mem.read .out (copyState pos s n).out a = some (copiedByte pos s j) := by
  induction n with
  | zero => exact absurd hj (Nat.not_lt_zero j)
  | succ n ih =>
    have units := copyState_units_toNat (pos := pos) (s := s) (j := n) (by omega)
    rw [copyState_succ]
    obtain rfl | hlt := Nat.eq_or_lt_of_le (Nat.le_of_lt_succ hj)
    · exact read_emitted_out_lane _ (by rw [copyState_mode, units]; exact lane)
    · have other : ¬ UnitLane (copyState pos s n).mode (copyState pos s n).units.toNat a := by
        rw [copyState_mode, units]
        intro here
        have := unitLane_unique here lane
        omega
      rw [read_emitted_out_other _ other, ih (by omega) hlt]

theorem read_copyState_out_other {pos n a : Nat} (small : s.units.toNat + n < 4294967296)
    (other : ∀ j, j < n → ¬ UnitLane s.mode (s.units.toNat + j) a) :
    Mem.read .out (copyState pos s n).out a = Mem.read .out s.out a := by
  induction n with
  | zero => rfl
  | succ n ih =>
    have units := copyState_units_toNat (pos := pos) (s := s) (j := n) (by omega)
    have here : ¬ UnitLane (copyState pos s n).mode (copyState pos s n).units.toNat a := by
      rw [copyState_mode, units]
      exact other n (Nat.lt_succ_self n)
    rw [copyState_succ, read_emitted_out_other _ here, ih (by omega) fun j hj => other j (by omega)]

/-! ### What a copy leaves in the window -/

theorem winGet_copyState_succ (pos p : Nat) (s : State) (n : Nat) :
    winGet p (copyState pos s (n + 1)) =
      if p % 4096 = (s.wp.toNat + n) % 4096 then copiedByte pos s n else winGet p (copyState pos s n) := by
  rw [copyState_succ, winGet_emitted, copyState_wp_toNat]

theorem winGet_copyState_other {pos n p : Nat} (other : ∀ j, j < n → p % 4096 ≠ (s.wp.toNat + j) % 4096) :
    winGet p (copyState pos s n) = winGet p s := by
  induction n with
  | zero => rfl
  | succ n ih =>
    rw [winGet_copyState_succ, if_neg (other n (Nat.lt_succ_self n)), ih fun j hj => other j (by omega)]

/-- The last 4096 bytes of a copy still stand in the window. -/
theorem winGet_copyState_copied {pos n j : Nat} (hj : j < n) (recent : n ≤ j + 4096) :
    winGet (s.wp.toNat + j) (copyState pos s n) = copiedByte pos s j := by
  induction n with
  | zero => exact absurd hj (Nat.not_lt_zero j)
  | succ n ih =>
    rw [winGet_copyState_succ]
    obtain rfl | hlt := Nat.eq_or_lt_of_le (Nat.le_of_lt_succ hj)
    · rw [if_pos rfl]
    · rw [if_neg (by omega), ih hlt (by omega)]

/-- The copy is byte-serial (70_reset_and_hazards.md R209): below the distance it reads the window as it was, from there on
what it wrote itself. -/
theorem copiedByte_eq (pos : Cursor) (s : State) (j : Nat) :
    copiedByte pos.toNat s j =
      if j < copyDistance s.wp pos then winGet (pos.toNat + j) s
      else copiedByte pos.toNat s (j - copyDistance s.wp pos) := by
  have small : s.wp.toNat < 4096 := s.wp.isLt
  have small' : pos.toNat < 4096 := pos.isLt
  rw [copiedByte]
  split_ifs with near
  · refine winGet_copyState_other fun i hi => ?_
    unfold copyDistance at near
    omega
  · have source : (pos.toNat + j) % 4096 = (s.wp.toNat + (j - copyDistance s.wp pos)) % 4096 := by
      unfold copyDistance at *
      omega
    rw [winGet_mod_congr _ source]
    refine winGet_copyState_copied ?_ ?_ <;> (unfold copyDistance at *; omega)

/-! ### The statements -/

/-- Settles O17: at the default the arm of BREF is the trap. -/
theorem brefTrapsReservedToken : Obligations.BrefTrapsReservedToken := by
  unfold Obligations.BrefTrapsReservedToken
  intro s hs hm hu hc hb
  have due : tokenDue false s = true := (tokenDue_iff false s).mpr ⟨hs, hm, hu, hc, hb⟩
  exact if_pos due

/-- Settles O18: the four answers that are not copied. -/
theorem brefSuppliedTraps : Obligations.BrefSuppliedTraps := by
  unfold Obligations.BrefSuppliedTraps
  intro f s hs hm hu hc hb hl r
  have due : tokenDue false s = true := (tokenDue_iff false s).mpr ⟨hs, hm, hu, hc, hb⟩
  have answered (x : BackrefResult) (h : r = x) : brefWith (some f) s = brefAnswered s x :=
    (brefWith_supplied due hl).trans (congrArg _ h)
  refine ⟨answered _, answered _, fun k pos n h h1 => ?_, fun k pos n h h1 h2 => ?_⟩
  · rw [answered _ h, brefAnswered, if_pos h1]
    rfl
  · rw [answered _ h, brefAnswered, if_neg (Nat.not_lt.mpr h1), if_pos h2]
    rfl

/-- Settles O19: the last state of the copy, with the bytes read along its states. -/
theorem brefCopyRepeatsRecentOutput : Obligations.BrefCopyRepeatsRecentOutput := by
  unfold Obligations.BrefCopyRepeatsRecentOutput
  intro f s k pos n hs hm hu hc hb hl h h1 h2 room
  have due : tokenDue false s = true := (tokenDue_iff false s).mpr ⟨hs, hm, hu, hc, hb⟩
  have small : s.units.toNat + n < 4294967296 := by have := s.target.isLt; omega
  let s0 := useControlBit (advance k s)
  have copy : brefWith (some f) s = .next (copyState pos.toNat s0 n) := by
    rw [brefWith_supplied due hl, h, brefAnswered, if_neg (Nat.not_lt.mpr h1), if_neg (Nat.not_lt.mpr h2)]
    exact copyUnits_completes (s := s0) small room
  have frame := copyState_frame pos.toNat s0 n
  refine ⟨copyState pos.toNat s0 n, copiedByte pos.toNat s0, copy, ?_, ?_, ?_,
    copyState_units_toNat (s := s0) small, copyState_wp_toNat pos.toNat s0 n, fun j _ => copiedByte_eq pos s0 j,
    fun j a => read_copyState_out_lane (s := s0) small, fun a => read_copyState_out_other (s := s0) small,
    fun j => winGet_copyState_copied (s := s0), fun p => winGet_copyState_other (s := s0)⟩
  · rw [frame]
    rfl
  · rw [frame]
    exact word_add_toNat (w := s.ip) (by have := s.limit.isLt; omega)
  · rw [frame]
    exact countDown_val_add_one hc

/-- Settles O21: no neighbour at the first pixel, and the three bytes of the neighbour's place at every other. -/
theorem neighbourLoad : Obligations.NeighbourLoad := by
  unfold Obligations.NeighbourLoad
  intro s u w stride
  refine ⟨fun hu => ⟨_, loadNeighbour_first hu, rfl, rfl⟩, fun v b0 b1 b2 hu hv room h0 h1 h2 => ?_⟩
  have pixel : neighbourPixel s v = pixelOfBytes b0 b1 b2 := by
    simp only [neighbourPixel, outByte, show pixelStride s.mode = stride from rfl, h0, h1, h2, Option.getD_some]
  refine ⟨_, loadNeighbour_later (neighbourUnit_of_pos hu hv) room, rfl, ?_, rfl⟩
  rw [withNeighbour, pixel, Codec.pixelOfBytes_toNat]

/-- Settles O22: the neighbour load, then the delivery of the three bytes. -/
theorem pixRawDeliversPixel : Obligations.PixRawDeliversPixel := by
  unfold Obligations.PixRawDeliversPixel
  intro p0 p1 p2 s hs hm hu h1 h2 hw base room
  have due : pixelDue s = true := (pixelDue_iff s).mpr ⟨hs, hm, hu⟩
  obtain ⟨nbr, nbrv, load⟩ := loadNeighbour_completes hw room
  let s1 := withNeighbour nbr nbrv s
  exact ⟨s1, delivered 4 p0 p1 p2 s1, load, execPixRaw_delivers due h1 h2 room load, rfl,
    delivered_ip_toNat (s := s1) p0 p1 p2 h1, delivered_units_toNat (s := s1) 4 p0 p1 p2 hu,
    delivered_wp_toNat 4 p0 p1 p2 s1, read_delivered_out 4 p0 p1 p2 s1, winGet_delivered 4 p0 p1 p2 s1⟩

/-- Settles O23: at the default the arm of PIX.DELTA is the trap, once its tag is inside the segment. -/
theorem pixDeltaTrapsReservedTag : Obligations.PixDeltaTrapsReservedTag := by
  unfold Obligations.PixDeltaTrapsReservedTag
  intro tag s hs hm hu ht h1 h2
  have due : pixelDue s = true := (pixelDue_iff s).mpr ⟨hs, hm, hu⟩
  rw [exec, execPixDelta, deltaWith, due, Bool.true_and, if_pos (bne_iff_ne.mpr ht),
    guardFetch_inside _ h1 (Nat.le_trans h1 h2)]
  rfl

/-- Settles O24: the answers of DELTA one by one. -/
theorem pixDeltaSuppliedPixel : Obligations.PixDeltaSuppliedPixel := by
  unfold Obligations.PixDeltaSuppliedPixel
  intro f tag s s1 hs hm hu ht h1 h2 load r base
  have due : pixelDue s = true := (pixelDue_iff s).mpr ⟨hs, hm, hu⟩
  have answered (x : DeltaResult) (h : r = x) : deltaWith (some f) tag s = deltaAnswered tag s s1 x :=
    (deltaWith_supplied due ht h1 h2 load).trans (congrArg _ h)
  refine ⟨answered _, answered _, fun k q0 q1 q2 h h3 => ?_, fun k q0 q1 q2 h h3 room => ?_⟩
  · rw [answered _ h, deltaAnswered, if_pos h3]
    rfl
  · obtain ⟨nbr, nbrv, rfl⟩ := loadNeighbour_withNeighbour load
    refine ⟨delivered k q0 q1 q2 (withNeighbour nbr nbrv s), ?_, rfl,
      delivered_ip_toNat (s := withNeighbour nbr nbrv s) q0 q1 q2 h3,
      delivered_units_toNat (s := withNeighbour nbr nbrv s) k q0 q1 q2 hu, delivered_wp_toNat k q0 q1 q2 _,
      read_delivered_out k q0 q1 q2 _, winGet_delivered k q0 q1 q2 _⟩
    rw [answered _ h, deltaAnswered, if_neg (Nat.not_lt.mpr h3)]
    exact putPixel_completes room

/-- Settles O26: the guard of the fetch, for the item of four bytes and for the tag. -/
theorem pixelTruncationTraps : Obligations.PixelTruncationTraps := by
  unfold Obligations.PixelTruncationTraps
  intro s hs hm hu
  have due : pixelDue s = true := (pixelDue_iff s).mpr ⟨hs, hm, hu⟩
  exact ⟨fun p0 p1 p2 => execPixRaw_truncated due,
    fun tag ht h => deltaWith_truncated (d := Config.params.delta) due ht (Nat.lt_succ_of_le h)⟩

end Sys2Proof.Delivery
end

section
/-!
PROOFS, the invariant (10_state.md, 20_memory.md, 40_header_wrapper.md R83), under every choice of the OPEN parameters. Each
effect keeps it: inside a phase an effect changes no register the phase was set up with, and the sizes of a valid header
give every unit its room in OUT.
-/

namespace Sys2Proof.Invariant

open Sys2Proof.Machine Sys2Proof.Safety Sys2Proof.TokenStream Sys2Proof.Effects Sys2Proof.Validation Sys2Proof.Delivery

variable {p : Params} {s t : State}

/-! ### The room a phase has in OUT -/

/-- How many bytes of OUT a unit accounts for (10_state.md R13, R18). -/
def unitBytes : Mode → Nat
  | .v0    => 1
  | .v1    => 3
  | .v2    => 3
  | .v3rgb => 4
  | .v3a   => 4

theorem mode_eq_v3rgb_iff {h : Header} (hv : HeaderValid h) : Mode.ofType h.htype = .v3rgb ↔ h.htype.toInt = 3 := by
  obtain e | e | e | e := type_cases hv <;> simp [Mode.ofType, e]

theorem firstTarget_eq {h : Header} (hv : HeaderValid h) :
    firstTarget h = if Mode.ofType h.htype = .v0 then h.hunpacked.toInt else pixelCount h := by
  obtain e | e | e | e := type_cases hv <;> simp [firstTarget, Mode.ofType, e]

/-- OUT is exactly as long as the units of the phase need (10_state.md R25, 40_header_wrapper.md R84). -/
theorem outLen_eq (h : PhaseFits s) : s.outLen.toNat = unitBytes s.mode * s.target.toNat := by
  have outLen : (s.outLen.toNat : Int) = s.hdr.hunpacked.toInt := by
    rw [h.outLen]
    exact word_toNat_of_nonneg (pixelCount_le h.header).1.le
  have target := h.target
  unfold TargetFits at target
  obtain mode | ⟨mode, h3⟩ := h.mode
  · obtain e | e | e | e := type_cases h.header
    · rw [ofType_zero e] at mode
      simp only [mode, unitBytes, if_pos] at target ⊢
      omega
    · have size := hunpacked_of_other_type h.header (by omega)
      rw [ofType_one e] at mode
      simp only [mode, unitBytes, reduceCtorEq, if_false] at target ⊢
      omega
    · have size := hunpacked_of_other_type h.header (by omega)
      rw [ofType_two e] at mode
      simp only [mode, unitBytes, reduceCtorEq, if_false] at target ⊢
      omega
    · have size := hunpacked_of_type_three h.header e
      rw [ofType_three e] at mode
      simp only [mode, unitBytes, reduceCtorEq, if_false] at target ⊢
      omega
  · have size := hunpacked_of_type_three h.header h3
    simp only [mode, unitBytes, reduceCtorEq, if_false] at target ⊢
    omega

/-- Every unit the phase must produce has its addresses in OUT (20_memory.md R48). -/
theorem lane_room (h : PhaseFits s) {u a : Nat} (hu : u < s.target.toNat) (lane : UnitLane s.mode u a) :
    a < s.outLen.toNat := by
  rw [outLen_eq h]
  cases hm : s.mode <;> simp only [hm, UnitLane, unitBytes] at lane ⊢ <;> omega

theorem pixel_room (h : PhaseFits s) (hm : s.mode.control = false) {u : Nat} (hu : u < s.target.toNat) :
    pixelStride s.mode * u + 2 < s.outLen.toNat := by
  rw [outLen_eq h]
  cases mode : s.mode <;> simp [mode, Mode.control, unitBytes, pixelStride] at hm ⊢ <;> omega

theorem pixelCells_room {m : Mode} {u n : Nat} {q0 q1 q2 : Byte} (room : pixelStride m * u + 2 < n) :
    ∀ c ∈ pixelCells m u q0 q1 q2, c.1 < n := by
  simp only [pixelCells, List.mem_cons, List.not_mem_nil, or_false, forall_eq_or_imp, forall_eq]
  omega

/-! ### What the memories keep -/

theorem canonical_emitted {b : Byte} (h : MemoriesCanonical s)
    (room : ∀ a, UnitLane s.mode s.units.toNat a → a < s.outLen.toNat) : MemoriesCanonical (emitted b s) :=
  (h.storeOut (cells_below_of_lanes_below b room)).winPut b

theorem canonical_literalTaken {d : Byte} (h : MemoriesCanonical s)
    (room : ∀ a, UnitLane s.mode s.units.toNat a → a < s.outLen.toNat) : MemoriesCanonical (literalTaken d s) := by
  rw [← literalTaken_eq]
  exact canonical_emitted (s := useControlBit (advance 1 s)) h room

theorem canonical_delivered {k : Nat} {q0 q1 q2 : Byte} (h : MemoriesCanonical s)
    (room : pixelStride s.mode * s.units.toNat + 2 < s.outLen.toNat) :
    MemoriesCanonical (delivered k q0 q1 q2 s) := by
  obtain ⟨inp, out, win⟩ := h
  exact ⟨inp, Mem.wf_writeAll_out _ _ _ (pixelCells_room room) out,
    Mem.wf_write_win _ _ _ (Mem.wf_write_win _ _ _ (Mem.wf_write_win _ _ _ win))⟩

theorem canonical_copy {n pos : Nat} (h : MemoriesCanonical s) (copy : copyUnits n pos s = .next t) :
    MemoriesCanonical t := by
  refine copyUnits_keeps (fun b s t h e => ?_) h copy
  obtain ⟨room, rfl⟩ := emitUnit_eq_next.mp e
  exact (h.storeOut room).winPut b

/-! ### The invariant outside a run -/

theorem inv_popHost (h : Inv s) : Inv (popHost s) where
  canonical := h.canonical
  recorded := h.recorded
  loading := h.loading
  loaded := h.loaded
  phase hs := (h.phase hs).congr rfl rfl rfl rfl (h.phase hs).units (h.phase hs).pixels
  segment := h.segment
  rgbDone := h.rgbDone
  allDone := h.allDone

/-- In IDLE and in FAULT nothing is asked of the registers of a run. -/
theorem inv_of_idle_or_fault (ht : t.seq = .idle ∨ t.seq = .fault) (canonical : MemoriesCanonical t)
    (recorded : FaultRecorded t) : Inv t := by
  obtain hs | hs := ht <;>
    exact { canonical, recorded, loading := by simp [hs], loaded := by simp [hs], phase := by simp [hs],
            segment := by simp [hs], rgbDone := by simp [hs], allDone := by simp [hs] }

theorem inv_reset (answer : execReset s = .next t) (h : Inv s) : Inv t := by
  obtain ⟨seq, err, out, win, inp, -⟩ := reset_fields answer
  refine inv_of_idle_or_fault (.inl seq) ⟨?_, ?_, win⟩ ⟨by simp [seq, err], by simp [err]⟩
  · rw [inp]
    exact h.canonical.1
  · rw [out]
    rfl

theorem inv_trap {i : Instr} {f : Err} {info : Byte} (raises : Raises p i f info) (h : Inv s) :
    Inv (trapState f info s) :=
  inv_of_idle_or_fault (.inr rfl) h.canonical ⟨by simp [raises.not_ioFailure.1], raises.not_ioFailure.2⟩

theorem err_none_of_busy (h : Inv s) (busy : s.seq.busy = true) : s.err = .none :=
  h.recorded.1.mpr fun hs => by rw [hs] at busy; cases busy

theorem inv_started (h : Inv s) : Inv (started s) where
  canonical := h.canonical
  recorded := ⟨by simp [started], by simp [started]⟩
  loading _ := rfl
  loaded := by simp [started]
  phase := by simp [started]
  segment := by simp [started]
  rgbDone := by simp [started]
  allDone := by simp [started]

theorem inv_headerLoaded {hd : Header} (hs : s.seq = .hload) (present : 32 ≤ s.inLen.toNat) (h : Inv s) :
    Inv (headerLoaded hd s) where
  canonical := h.canonical
  recorded := ⟨by simp [headerLoaded, err_none_of_busy h (by rw [hs]; rfl)], h.recorded.2⟩
  loading _ := h.loading (.inl hs)
  loaded _ := present
  phase := by simp [headerLoaded]
  segment := by simp [headerLoaded]
  rgbDone := by simp [headerLoaded]
  allDone := by simp [headerLoaded]

/-- A host write while the block is quiescent changes IN or IN_LEN, of which then only the form of IN is asked. -/
theorem inv_hostWrite (m : HostMove) (quiet : s.seq.busy = false) (h : Inv s) : Inv (hostWrite m s) := by
  have notLoading : ¬ (s.seq = .hload ∨ s.seq = .hchk) := by rintro (hs | hs) <;> simp [hs, Seq.busy] at quiet
  have notRunning : ¬ (s.seq = .run ∨ s.seq = .alen) := by rintro (hs | hs) <;> simp [hs, Seq.busy] at quiet
  have phase (hs : s.seq = .run ∨ s.seq = .alen ∨ s.seq = .done) := h.phase hs
  cases m with
  | writeIn a b =>
    obtain ⟨inp, out, win⟩ := h.canonical
    exact
      { canonical := ⟨Mem.wf_write .inp _ _ _ (Word.lt_size_inp a) inp, out, win⟩
        recorded := h.recorded
        loading := h.loading
        loaded := h.loaded
        phase := fun hs => (phase hs).congr rfl rfl rfl rfl (phase hs).units (phase hs).pixels
        segment := h.segment
        rgbDone := h.rgbDone
        allDone := h.allDone }
  | writeLen n =>
    exact
      { canonical := h.canonical
        recorded := h.recorded
        loading := h.loading
        loaded := fun hs => absurd (.inr hs) notLoading
        phase := fun hs => (phase hs).congr rfl rfl rfl rfl (phase hs).units (phase hs).pixels
        segment := fun hs => absurd hs notRunning
        rgbDone := h.rgbDone
        allDone := h.allDone }
  | _ => exact h

/-! ### The invariant at the opening of a phase -/

theorem inv_payloadOpened (hs : s.seq = .hchk) (hv : HeaderValid s.hdr) (h : Inv s) : Inv (openPayload s) where
  canonical := ⟨h.canonical.1, rfl, rfl⟩
  recorded := ⟨by simp [openPayload, err_none_of_busy h (by rw [hs]; rfl)], h.recorded.2⟩
  loading := by simp [openPayload]
  loaded := by simp [openPayload]
  phase _ :=
    { header := hv
      mode := .inl rfl
      target := (openPayload_target hv).trans (firstTarget_eq hv)
      outLen := rfl
      units := Nat.zero_le _
      pixels := fun _ => ⟨rfl, rfl⟩ }
  segment _ := by
    have limit := openPayload_limit s
    have present := h.loaded hs
    have ip : (openPayload s).ip.toNat = 32 := rfl
    have inLen : (openPayload s).inLen = s.inLen := rfl
    unfold SegmentFits
    rw [ip, inLen]
    omega
  rgbDone := by simp [openPayload]
  allDone := by simp [openPayload]

theorem inv_alphaOpened {n : Word} (hs : s.seq = .alen) (inside : s.ip.toNat + 4 ≤ s.limit.toNat) (h : Inv s) :
    Inv (openAlpha n s) := by
  have fits := h.phase (.inr (.inl hs))
  obtain ⟨ip32, -, inLen⟩ := h.segment (.inr hs)
  obtain ⟨mode, -⟩ := h.rgbDone hs
  have h3 : s.hdr.htype.toInt = 3 := by
    obtain same | ⟨v3a, -⟩ := fits.mode
    · exact (mode_eq_v3rgb_iff fits.header).mp (same.symm.trans mode)
    · rw [mode] at v3a
      cases v3a
  have pos := fits.header.pixelCount_pos
  have le := pixelCount_le fits.header
  have max := word_toInt_le s.hdr.hunpacked
  exact
    { canonical := ⟨h.canonical.1, h.canonical.2.1, rfl⟩
      recorded := ⟨by simp [openAlpha, err_none_of_busy h (by rw [hs]; rfl)], h.recorded.2⟩
      loading := by simp [openAlpha]
      loaded := by simp [openAlpha]
      phase := fun _ =>
        { header := fits.header
          mode := .inr ⟨rfl, h3⟩
          target := openAlpha_target (n := n) pos.le (by omega)
          outLen := fits.outLen
          units := Nat.zero_le _
          pixels := fun control => by cases control }
      segment := fun _ => by
        have limit := openAlpha_limit (n := n) inside
        have ip := openAlpha_ip (n := n) inside
        have same : (openAlpha n s).inLen = s.inLen := rfl
        unfold SegmentFits
        rw [ip, same]
        omega
      rgbDone := by simp [openAlpha]
      allDone := by simp [openAlpha] }

/-! ### The invariant inside a phase -/

/-- The registers a phase was set up with are those it had. -/
structure SamePhase (s t : State) : Prop where
  seq    : t.seq = s.seq
  err    : t.err = s.err
  hdr    : t.hdr = s.hdr
  mode   : t.mode = s.mode
  target : t.target = s.target
  outLen : t.outLen = s.outLen
  limit  : t.limit = s.limit
  inLen  : t.inLen = s.inLen

/-- An item inside its segment that keeps the registers of the phase and its units below TARGET keeps the invariant. -/
theorem inv_item (h : Inv s) (hs : s.seq = .run) (same : SamePhase s t) (canonical : MemoriesCanonical t)
    (ip : s.ip.toNat ≤ t.ip.toNat ∧ t.ip.toNat ≤ s.limit.toNat) (units : t.units.toNat ≤ s.target.toNat)
    (pixels : s.mode.control = false → t.ctl = s.ctl ∧ t.cnt = s.cnt) : Inv t := by
  have seq : t.seq = .run := same.seq.trans hs
  have fits := h.phase (.inl hs)
  have err := err_none_of_busy h (busy_of_seq_run hs)
  exact
    { canonical := canonical
      recorded := ⟨by simp [same.err, err, seq], by simp [same.err, err]⟩
      loading := by simp [seq]
      loaded := by simp [seq]
      phase := fun _ => fits.congr same.hdr same.mode same.target same.outLen (by rw [same.target]; exact units)
        fun control => by
          rw [same.mode] at control
          obtain ⟨ctl, cnt⟩ := pixels control
          rw [ctl, cnt]
          exact fits.pixels control
      segment := fun _ => (h.segment (.inl hs)).congr same.limit same.inLen ip.1 ip.2
      rgbDone := by simp [seq]
      allDone := by simp [seq] }

/-- IP after an item whose `k` bytes lie in the segment. -/
theorem ip_advanced {k : Nat} (inside : s.ip.toNat + k ≤ s.limit.toNat) :
    (s.ip + BitVec.ofNat 32 k).toNat = s.ip.toNat + k :=
  word_add_toNat (by have := s.limit.isLt; omega)

theorem inv_controlLoaded {k : Byte} (due : controlDue s = true) (inside : s.ip.toNat + 1 ≤ s.limit.toNat)
    (h : Inv s) : Inv (controlLoaded k s) := by
  obtain ⟨hs, control, -, -⟩ := (controlDue_iff s).mp due
  have ip : (controlLoaded k s).ip.toNat = s.ip.toNat + 1 := ip_advanced inside
  refine inv_item h hs ⟨rfl, rfl, rfl, rfl, rfl, rfl, rfl, rfl⟩ h.canonical (by omega) (h.phase (.inl hs)).units ?_
  exact fun pixels => by rw [control] at pixels; cases pixels

theorem inv_literalTaken {d : Byte} (due : tokenDue true s = true) (inside : s.ip.toNat + 1 ≤ s.limit.toNat)
    (h : Inv s) : Inv (literalTaken d s) := by
  obtain ⟨hs, control, below, -⟩ := (tokenDue_iff true s).mp due
  have ip := literalTaken_ip_toNat d inside
  have units := literalTaken_units_toNat d below
  refine inv_item h hs ⟨rfl, rfl, rfl, rfl, rfl, rfl, rfl, rfl⟩
    (canonical_literalTaken h.canonical fun a => lane_room (h.phase (.inl hs)) below) (by omega) (by omega) ?_
  exact fun pixels => by rw [control] at pixels; cases pixels

theorem inv_copied {k n pos : Nat} (due : tokenDue false s = true) (inside : s.ip.toNat + k ≤ s.limit.toNat)
    (fit : s.units.toNat + n ≤ s.target.toNat) (copy : copyUnits n pos (useControlBit (advance k s)) = .next t)
    (h : Inv s) : Inv t := by
  obtain ⟨hs, control, -⟩ := (tokenDue_iff false s).mp due
  have frame := copy_frame copy
  have ip : t.ip.toNat = s.ip.toNat + k := by
    rw [frame]
    exact ip_advanced inside
  have units : t.units.toNat = s.units.toNat + n := by
    rw [frame]
    exact word_add_toNat (by have := s.target.isLt; omega)
  refine inv_item h hs (by rw [frame]; exact ⟨rfl, rfl, rfl, rfl, rfl, rfl, rfl, rfl⟩)
    (canonical_copy (s := useControlBit (advance k s)) h.canonical copy) (by omega) (by omega) ?_
  exact fun pixels => by rw [control] at pixels; cases pixels

theorem inv_delivered {k : Nat} {q0 q1 q2 : Byte} {nbr : Pixel} {nbrv : Bool} (due : pixelDue s = true)
    (inside : s.ip.toNat + k ≤ s.limit.toNat) (h : Inv s) :
    Inv (delivered k q0 q1 q2 (withNeighbour nbr nbrv s)) := by
  obtain ⟨hs, control, below⟩ := (pixelDue_iff s).mp due
  have ip : (delivered k q0 q1 q2 (withNeighbour nbr nbrv s)).ip.toNat = s.ip.toNat + k := ip_advanced inside
  have units : (delivered k q0 q1 q2 (withNeighbour nbr nbrv s)).units.toNat = s.units.toNat + 1 :=
    word_succ_toNat below
  exact inv_item h hs ⟨rfl, rfl, rfl, rfl, rfl, rfl, rfl, rfl⟩
    (canonical_delivered (s := withNeighbour nbr nbrv s) h.canonical (pixel_room (h.phase (.inl hs)) control below))
    (by omega) (by omega) fun _ => ⟨rfl, rfl⟩

theorem inv_phaseEnded (due : endDue s = true) (h : Inv s) : Inv (phaseEnded s) := by
  obtain ⟨hs, all⟩ := (endDue_iff s).mp due
  have fits := h.phase (.inl hs)
  have err := err_none_of_busy h (busy_of_seq_run hs)
  have phase : PhaseFits (phaseEnded s) := fits.congr rfl rfl rfl rfl fits.units fits.pixels
  by_cases rgb : s.mode = .v3rgb
  · have seq : (phaseEnded s).seq = .alen := if_pos rgb
    exact
      { canonical := h.canonical
        recorded := ⟨by simp [seq, show (phaseEnded s).err = .none from err], h.recorded.2⟩
        loading := by simp [seq]
        loaded := by simp [seq]
        phase := fun _ => phase
        segment := fun _ => h.segment (.inl hs)
        rgbDone := fun _ => ⟨rgb, all⟩
        allDone := by simp [seq] }
  · have seq : (phaseEnded s).seq = .done := if_neg rgb
    exact
      { canonical := h.canonical
        recorded := ⟨by simp [seq, show (phaseEnded s).err = .none from err], h.recorded.2⟩
        loading := by simp [seq]
        loaded := by simp [seq]
        phase := fun _ => phase
        segment := by simp [seq]
        rgbDone := by simp [seq]
        allDone := fun _ => ⟨rgb, all⟩ }

/-! ### Every effect and every step keeps the invariant -/

theorem inv_effect {i : Instr} (h : Inv s) (e : Effect p s i t) : Inv t := by
  cases e with
  | trap busy raises => exact inv_trap raises h
  | startIgnored busy => exact h
  | started quiet => exact inv_started h
  | headerLoaded seq present => exact inv_headerLoaded seq present h
  | payloadOpened seq valid => exact inv_payloadOpened seq valid h
  | controlLoaded due inside => exact inv_controlLoaded due inside h
  | literal due inside => exact inv_literalTaken due inside h
  | copied supplied due inside fits copy => exact inv_copied due inside fits copy h
  | phaseEnded due => exact inv_phaseEnded due h
  | pixel item due inside load => exact inv_delivered due inside h
  | alphaOpened seq inside => exact inv_alphaOpened seq inside h
  | reset answer => exact inv_reset answer h

theorem inv_stepWith (h : Inv s) (e : stepWith p s = .next t) : Inv t :=
  stepWith_keeps (fun _ => inv_popHost) (fun m _ => inv_hostWrite m) (fun _ _ _ => inv_effect) h e

theorem inv_step (h : Inv s) (e : step s = .next t) : Inv t := by
  rw [step_eq_stepWith] at e
  exact inv_stepWith h e

/-! ### The statements -/

/-- Settles O58: the host's moves and every effect keep the invariant. -/
theorem invKeptUnderParameters : Obligations.InvKeptUnderParameters := by
  unfold Obligations.InvKeptUnderParameters
  exact fun p s t => inv_stepWith

/-- Settles O36: the machine's step is the step under the default parameters. -/
theorem invKeptByStep : Obligations.InvKeptByStep := by
  unfold Obligations.InvKeptByStep
  exact fun s t => inv_step

/-- Settles O35: State.reset is idle with no error, and its window is in canonical form. -/
theorem invAtReset : Obligations.InvAtReset := by
  unfold Obligations.InvAtReset
  exact inv_of_idle_or_fault (.inl rfl) ⟨rfl, rfl, Mem.wf_zeroWindow⟩ ⟨by simp, by simp⟩

end Sys2Proof.Invariant
end

section
/-!
PROOFS, that every step completes (20_memory.md R42, R48; 40_header_wrapper.md section 1), under every choice of the OPEN
parameters. In a state of the invariant the item of the selected row lies inside IN or is cut by LIMIT, and what it writes
has room in OUT, so the model raises neither of its own faults.
-/

namespace Sys2Proof.Completion

open Sys2Proof.Machine Sys2Proof.Safety Sys2Proof.TokenStream Sys2Proof.Effects Sys2Proof.Selection
open Sys2Proof.Delivery Sys2Proof.Invariant

variable {p : Params} {s : State}

/-- Where LIMIT lies inside IN, a guarded fetch traps or goes on. -/
theorem guardFetch_completes {n : Nat} {k : State → Result} (inLen : s.limit.toNat ≤ s.inLen.toNat)
    (hk : s.ip.toNat + n ≤ s.limit.toNat → ∃ t, k s = .next t) : ∃ t, guardFetch n s k = .next t := by
  obtain cut | inside := Nat.lt_or_ge s.limit.toNat (s.ip.toNat + n)
  · exact ⟨_, guardFetch_truncated k cut⟩
  · rw [guardFetch_inside k inside (Nat.le_trans inside inLen)]
    exact hk inside

/-! ### The rows outside a phase -/

theorem execStart_completes (s : State) : ∃ t, execStart s = .next t := by
  unfold execStart
  split_ifs
  · exact ⟨_, rfl⟩
  · exact ⟨_, rfl⟩

theorem execHload_next_of_hload (h : Header) (hs : s.seq = .hload) : ∃ t, execHload h s = .next t := by
  obtain short | present := Nat.lt_or_ge s.inLen.toNat 32
  · exact ⟨_, execHload_short h hs short⟩
  · exact ⟨_, execHload_completes h hs present⟩

theorem execHchk_next_of_hchk (hs : s.seq = .hchk) : ∃ t, execHchk s = .next t := by
  rw [execHchk, if_pos hs]
  split_ifs
  · exact ⟨_, rfl⟩
  · exact ⟨_, rfl⟩
  · exact ⟨_, rfl⟩
  · exact ⟨_, rfl⟩

theorem execAlen_next_of_alen (n : Word) (h : Inv s) (hs : s.seq = .alen) : ∃ t, execAlen n s = .next t := by
  obtain ⟨-, -, inLen⟩ := h.segment (.inr hs)
  rw [execAlen, if_pos hs]
  exact guardFetch_completes inLen fun _ => ⟨_, rfl⟩

/-! ### The rows of a phase -/

theorem units_below (h : Inv s) (hs : s.seq = .run) (hu : s.units ≠ s.target) : s.units.toNat < s.target.toNat :=
  lt_of_le_of_ne (h.phase (.inl hs)).units (hu ∘ BitVec.eq_of_toNat_eq)

section Items

variable (h : Inv s) (hs : s.seq = .run)
include h hs

theorem execLit_next_of_due (d : Byte) (due : tokenDue true s = true) : ∃ t, execLit d s = .next t := by
  obtain ⟨-, -, below, -⟩ := (tokenDue_iff true s).mp due
  obtain ⟨-, -, inLen⟩ := h.segment (.inl hs)
  rw [execLit, if_pos due]
  exact guardFetch_completes inLen fun _ => ⟨_, emitUnit_completes (s := useControlBit (advance 1 s))
    fun a => lane_room (h.phase (.inl hs)) below⟩

theorem brefWith_next_of_due (b : Option BackrefFn) (due : tokenDue false s = true) :
    ∃ t, brefWith b s = .next t := by
  obtain ⟨-, -, inLen⟩ := h.segment (.inl hs)
  cases b with
  | none => exact ⟨_, if_pos due⟩
  | some f =>
    rw [brefWith_supplied due inLen]
    cases f (streamBytes s) s.ip s.limit s.wp with
    | truncated => exact ⟨_, rfl⟩
    | refuse => exact ⟨_, rfl⟩
    | copy k pos n =>
      rw [brefAnswered]
      split_ifs with cut long
      · exact ⟨_, rfl⟩
      · exact ⟨_, rfl⟩
      · have small := s.target.isLt
        exact ⟨_, copyUnits_completes (s := useControlBit (advance k s))
          (show s.units.toNat + n < 4294967296 by omega)
          fun j a hj => lane_room (h.phase (.inl hs)) (show s.units.toNat + j < s.target.toNat by omega)⟩

section Pixel

variable (due : pixelDue s = true)
include due

theorem pixel_due_room : pixelStride s.mode * s.units.toNat + 2 < s.outLen.toNat := by
  obtain ⟨-, control, below⟩ := (pixelDue_iff s).mp due
  exact pixel_room (h.phase (.inl hs)) control below

theorem pixel_due_load : ∃ nbr nbrv, loadNeighbour s = .next (withNeighbour nbr nbrv s) :=
  loadNeighbour_completes (h.phase (.inl hs)).header.facts.2.2.2.1 (pixel_due_room h hs due)

theorem execPixRaw_next_of_due (q0 q1 q2 : Byte) : ∃ t, execPixRaw q0 q1 q2 s = .next t := by
  obtain ⟨-, -, inLen⟩ := h.segment (.inl hs)
  obtain ⟨nbr, nbrv, load⟩ := pixel_due_load h hs due
  obtain cut | inside := Nat.lt_or_ge s.limit.toNat (s.ip.toNat + 4)
  · exact ⟨_, execPixRaw_truncated due cut⟩
  · exact ⟨_, execPixRaw_delivers due inside inLen (pixel_due_room h hs due) load⟩

theorem deltaWith_next_of_due (d : Option DeltaFn) {tag : Byte} (ht : tag ≠ 0) :
    ∃ t, deltaWith d tag s = .next t := by
  obtain ⟨-, -, inLen⟩ := h.segment (.inl hs)
  obtain cut | inside := Nat.lt_or_ge s.limit.toNat (s.ip.toNat + 1)
  · exact ⟨_, deltaWith_truncated due ht cut⟩
  cases d with
  | none =>
    rw [deltaWith, due, Bool.true_and, if_pos (bne_iff_ne.mpr ht)]
    exact guardFetch_completes inLen fun _ => ⟨_, rfl⟩
  | some f =>
    obtain ⟨nbr, nbrv, load⟩ := pixel_due_load h hs due
    rw [deltaWith_supplied due ht inside inLen load]
    cases f tag (streamBytes s) s.ip s.limit (neighbourSeen (withNeighbour nbr nbrv s)) with
    | truncated => exact ⟨_, rfl⟩
    | refuse => exact ⟨_, rfl⟩
    | pixel k q0 q1 q2 =>
      rw [deltaAnswered]
      split_ifs
      · exact ⟨_, rfl⟩
      · exact ⟨_, putPixel_completes (pixel_due_room h hs due)⟩

theorem fetchedPix_completes : ∃ t, execWith p (fetched .pix s) s = .next t := by
  rw [fetched]
  split_ifs with tag
  · exact execPixRaw_next_of_due h hs due _ _ _
  · exact deltaWith_next_of_due h hs due p.delta tag

end Pixel

/-- The row of a state in RUN completes: END, CTL, LIT, BREF or a pixel item. -/
theorem runRow_completes : ∃ t, execWith p (fetched (runRow s) s) s = .next t := by
  obtain ⟨-, -, inLen⟩ := h.segment (.inl hs)
  by_cases hu : s.units = s.target
  · rw [runRow_end hu]
    exact ⟨_, execEnd_completes ((endDue_iff s).mpr ⟨hs, hu⟩)⟩
  have below := units_below h hs hu
  by_cases hm : s.mode.control = true
  · by_cases hc : s.cnt = 0
    · rw [runRow_ctl hu hm hc, fetched, execWith, execCtl, if_pos ((controlDue_iff s).mpr ⟨hs, hm, below, hc⟩)]
      exact guardFetch_completes inLen fun _ => ⟨_, rfl⟩
    · rw [runRow_token hu hm hc]
      by_cases hb : controlBit s = true
      · rw [if_pos hb]
        exact execLit_next_of_due h hs _ ((tokenDue_iff true s).mpr ⟨hs, hm, below, hc, hb⟩)
      · rw [if_neg hb]
        rw [Bool.not_eq_true] at hb
        exact brefWith_next_of_due h hs p.backref ((tokenDue_iff false s).mpr ⟨hs, hm, below, hc, hb⟩)
  · rw [Bool.not_eq_true] at hm
    rw [runRow_pix hu hm]
    exact fetchedPix_completes h hs ((pixelDue_iff s).mpr ⟨hs, hm, below⟩)

end Items

/-! ### Every step completes -/

/-- The step of a busy block is the row STATE selects, and it completes. -/
theorem stepWith_completes_of_busy (h : Inv s) (busy : s.seq.busy = true) (h1 : hostMove s ≠ .reset)
    (h2 : (hostMove s).writes = false) : ∃ t, stepWith p s = .next t := by
  have row {r : Row} (hr : select (hostMove s) (popHost s) = .row r)
      (completes : ∃ t, execWith p (fetched r (popHost s)) (popHost s) = .next t) : ∃ t, stepWith p s = .next t := by
    rw [stepWith, stepBy_row _ h2 hr]
    exact completes
  cases hs : s.seq with
  | hload => exact row (select_hload h1 hs) (execHload_next_of_hload _ hs)
  | hchk => exact row (select_hchk h1 hs) (execHchk_next_of_hchk hs)
  | run => exact row (select_run h1 hs) (runRow_completes (inv_popHost h) hs)
  | alen => exact row (select_alen h1 hs) (execAlen_next_of_alen _ (inv_popHost h) hs)
  | idle => simp [hs, Seq.busy] at busy
  | done => simp [hs, Seq.busy] at busy
  | fault => simp [hs, Seq.busy] at busy

theorem stepWith_completes (h : Inv s) (allowed : ((hostMove s).writes && s.seq.busy) = false) :
    ∃ t, stepWith p s = .next t := by
  by_cases h1 : hostMove s = .reset
  · obtain ⟨t, answer, -⟩ := execReset_next (popHost s)
    exact ⟨t, (stepBy_row (execWith p) (by rw [h1]; rfl) (select_reset h1)).trans answer⟩
  cases busy : s.seq.busy with
  | true =>
    rw [busy, Bool.and_true] at allowed
    exact stepWith_completes_of_busy h busy h1 allowed
  | false =>
    by_cases h2 : hostMove s = .start
    · obtain ⟨t, answer⟩ := execStart_completes (popHost s)
      refine ⟨t, (stepBy_row (execWith p) (r := .start) (by rw [h2]; rfl) ?_).trans answer⟩
      rw [h2]
      exact select_start busy
    · exact ⟨_, stepBy_quiet (execWith p) busy h1 h2⟩

theorem step_completes (h : Inv s) (allowed : ((hostMove s).writes && s.seq.busy) = false) :
    ∃ t, step s = .next t := by
  rw [step_eq_stepWith]
  exact stepWith_completes h allowed

/-! ### The statements -/

/-- Settles O60: reset, the host's quiescent moves, and the row of a busy state. -/
theorem stepCompletesUnderParameters : Obligations.StepCompletesUnderParameters := by
  unfold Obligations.StepCompletesUnderParameters
  exact fun p s => stepWith_completes

/-- Settles O37: the machine's step is the step under the default parameters. -/
theorem stepCompletes : Obligations.StepCompletes := by
  unfold Obligations.StepCompletes
  exact fun s => step_completes

end Sys2Proof.Completion
end

section
/-!
PROOFS, the written bytes of OUT (10_state.md R25, 20_memory.md R47), under every choice of the OPEN parameters. A unit adds
exactly its own addresses to the covered ones, which were not covered before, so OUT grows with the units and no written
byte changes.
-/

namespace Sys2Proof.Output

open Sys2Proof.Machine Sys2Proof.Safety Sys2Proof.TokenStream Sys2Proof.Effects Sys2Proof.Validation
open Sys2Proof.Delivery Sys2Proof.Invariant

variable {p : Params} {s t : State}

/-! ### The covered addresses -/

theorem covered_succ_token {m : Mode} (hm : m.control = true) {u n a : Nat} (hu : u < n) :
    Covered m (u + 1) n a ↔ UnitLane m u a ∨ Covered m u n a := by
  cases m <;> simp only [Covered, UnitLane, Mode.control, reduceCtorEq] at hm ⊢ <;> omega

theorem covered_succ_pixel {m : Mode} (hm : m.control = false) {u n a : Nat} :
    Covered m (u + 1) n a ↔
      (a = pixelStride m * u ∨ a = pixelStride m * u + 1 ∨ a = pixelStride m * u + 2) ∨ Covered m u n a := by
  cases m <;> simp [Covered, Mode.control, pixelStride] at hm ⊢ <;> omega

theorem not_covered_lane {m : Mode} {u n a : Nat} (covered : Covered m u n a) : ¬ UnitLane m u a := by
  cases m <;> simp only [Covered, UnitLane, not_false_iff] at covered ⊢ <;> omega

theorem not_covered_pixel {m : Mode} (hm : m.control = false) {u n a : Nat} (covered : Covered m u n a) :
    ¬ (a = pixelStride m * u ∨ a = pixelStride m * u + 1 ∨ a = pixelStride m * u + 2) := by
  cases m <;> simp [Covered, Mode.control, pixelStride] at hm covered ⊢ <;> omega

/-- In a complete phase that is not the RGB plane the covered addresses are those below OUT_LEN. -/
theorem covered_complete {m : Mode} (hm : m ≠ .v3rgb) {n a : Nat} : Covered m n n a ↔ a < unitBytes m * n := by
  cases m <;> simp only [Covered, unitBytes, ne_eq, not_true] at hm ⊢ <;> omega

/-- The alpha plane begins with the addresses the RGB plane covered. -/
theorem covered_alpha {n a : Nat} : Covered .v3a 0 n a ↔ Covered .v3rgb n n a := by
  simp only [Covered]
  omega

theorem not_covered_start {m : Mode} (hm : m ≠ .v3a) {n a : Nat} : ¬ Covered m 0 n a := by
  cases m <;> simp only [Covered, ne_eq, not_true] at hm ⊢ <;> omega

/-! ### Each effect keeps OUT in step with the units -/

/-- OUT holds a written byte exactly at the addresses of the units produced. -/
def Tracks (s : State) : Prop :=
  ∀ a, (Mem.read .out s.out a).isSome = true ↔ Covered s.mode s.units.toNat s.target.toNat a

theorem tracks_emitted {b : Byte} (control : s.mode.control = true) (below : s.units.toNat < s.target.toNat)
    (h : Tracks s) : Tracks (emitted b s) := by
  intro a
  have units := emitted_units_toNat b below
  have same : (emitted b s).mode = s.mode ∧ (emitted b s).target = s.target := ⟨rfl, rfl⟩
  rw [same.1, same.2, units, covered_succ_token control below, ← h a]
  by_cases lane : UnitLane s.mode s.units.toNat a
  · simp [read_emitted_out_lane b lane, lane]
  · simp [read_emitted_out_other b lane, lane]

theorem tracks_literalTaken {d : Byte} (control : s.mode.control = true) (below : s.units.toNat < s.target.toNat)
    (h : Tracks s) : Tracks (literalTaken d s) := by
  rw [← literalTaken_eq]
  exact tracks_emitted (s := useControlBit (advance 1 s)) control below h

theorem tracks_copyState {pos j : Nat} (control : s.mode.control = true)
    (fits : s.units.toNat + j ≤ s.target.toNat) (h : Tracks s) : Tracks (copyState pos s j) := by
  induction j with
  | zero => exact h
  | succ j ih =>
    have small := s.target.isLt
    have units := copyState_units_toNat (pos := pos) (s := s) (j := j) (by omega)
    have target : (copyState pos s j).target = s.target := by rw [copyState_frame]
    exact tracks_emitted (by rw [copyState_mode]; exact control) (by rw [units, target]; omega) (ih (by omega))

theorem tracks_delivered {k : Nat} {q0 q1 q2 : Byte} (control : s.mode.control = false)
    (below : s.units.toNat < s.target.toNat) (h : Tracks s) : Tracks (delivered k q0 q1 q2 s) := by
  intro a
  have units := delivered_units_toNat k q0 q1 q2 below
  have same : (delivered k q0 q1 q2 s).mode = s.mode ∧ (delivered k q0 q1 q2 s).target = s.target := ⟨rfl, rfl⟩
  rw [same.1, same.2, units, covered_succ_pixel control, ← h a, read_delivered_out]
  split_ifs with h0 h1 h2
  · simp [h0]
  · simp [h1]
  · simp [h2]
  · simp [h0, h1, h2]

theorem tracks_payloadOpened (hv : HeaderValid s.hdr) : Tracks (openPayload s) := by
  intro a
  have mode : (openPayload s).mode = Mode.ofType s.hdr.htype := rfl
  have rgb : Mode.ofType s.hdr.htype ≠ .v3a := by
    obtain e | e | e | e := type_cases hv <;> simp [Mode.ofType, e]
  exact iff_of_false Bool.false_ne_true (not_covered_start (by rw [mode]; exact rgb))

/-- Both planes have one unit for every pixel. -/
theorem openAlpha_target_eq {n : Word} (h : Inv s) (hs : s.seq = .alen) :
    (openAlpha n s).target.toNat = s.target.toNat := by
  have fits := h.phase (.inr (.inl hs))
  have le := pixelCount_le fits.header
  have max := word_toInt_le s.hdr.hunpacked
  have new := openAlpha_target (n := n) fits.header.pixelCount_pos.le (by omega)
  have old := fits.target
  rw [TargetFits, if_neg (by rw [(h.rgbDone hs).1]; exact Mode.noConfusion)] at old
  omega

theorem tracks_alphaOpened {n : Word} (h : Inv s) (hs : s.seq = .alen) (tracks : Tracks s) :
    Tracks (openAlpha n s) := by
  intro a
  obtain ⟨mode, all⟩ := h.rgbDone hs
  have target := openAlpha_target_eq (n := n) h hs
  have written := tracks a
  rw [mode, all] at written
  have new : (openAlpha n s).mode = .v3a ∧ (openAlpha n s).units = 0 ∧ (openAlpha n s).out = s.out := ⟨rfl, rfl, rfl⟩
  rw [new.1, new.2.1, new.2.2, target, written]
  exact covered_alpha.symm

theorem outTracks_effect {i : Instr} (h : Inv s) (out : OutTracksUnits s) (e : Effect p s i t) :
    OutTracksUnits t := by
  have inRun (hs : s.seq = .run) : Tracks s := out (.inl hs)
  cases e with
  | trap busy raises => exact fun ht => by simp at ht
  | startIgnored busy => exact out
  | started quiet => exact fun ht => by simp [started] at ht
  | headerLoaded seq present => exact fun ht => by simp [headerLoaded] at ht
  | payloadOpened seq valid => exact fun _ => tracks_payloadOpened valid
  | controlLoaded due inside =>
    obtain ⟨hs, -⟩ := (controlDue_iff s).mp due
    exact fun _ => inRun hs
  | literal due inside =>
    obtain ⟨hs, control, below, -⟩ := (tokenDue_iff true s).mp due
    exact fun _ => tracks_literalTaken control below (inRun hs)
  | @copied k pos n t supplied due inside fits copy =>
    obtain ⟨hs, control, -⟩ := (tokenDue_iff false s).mp due
    rw [copyUnits_next_eq copy]
    exact fun _ => tracks_copyState (s := useControlBit (advance k s)) control fits (inRun hs)
  | phaseEnded due =>
    obtain ⟨hs, -⟩ := (endDue_iff s).mp due
    exact fun _ => inRun hs
  | @pixel i k q0 q1 q2 nbr nbrv item due inside load =>
    obtain ⟨hs, control, below⟩ := (pixelDue_iff s).mp due
    exact fun _ => tracks_delivered (s := withNeighbour nbr nbrv s) control below (inRun hs)
  | alphaOpened seq inside => exact fun _ => tracks_alphaOpened h seq (out (.inr (.inl seq)))
  | reset answer => exact fun ht => by simp [(reset_fields answer).1] at ht

theorem outTracks_hostWrite (m : HostMove) (h : OutTracksUnits s) : OutTracksUnits (hostWrite m s) := by
  cases m <;> exact h

theorem outTracks_stepWith (h : Inv s) (out : OutTracksUnits s) (e : stepWith p s = .next t) : OutTracksUnits t :=
  (stepWith_keeps (P := fun s => Inv s ∧ OutTracksUnits s) (fun _ hs => ⟨inv_popHost hs.1, hs.2⟩)
    (fun m _ quiet hs => ⟨inv_hostWrite m quiet hs.1, outTracks_hostWrite m hs.2⟩)
    (fun _ _ _ hs e => ⟨inv_effect hs.1 e, outTracks_effect hs.1 hs.2 e⟩) ⟨h, out⟩ e).2

theorem outTracks_step (h : Inv s) (out : OutTracksUnits s) (e : step s = .next t) : OutTracksUnits t := by
  rw [step_eq_stepWith] at e
  exact outTracks_stepWith h out e

/-! ### No written byte changes inside a run -/

theorem written_literalTaken {d : Byte} {a : Nat} {v : Byte} (tracks : Tracks s)
    (hv : Mem.read .out s.out a = some v) : Mem.read .out (literalTaken d s).out a = some v := by
  have covered := (tracks a).mp (by rw [hv]; rfl)
  rw [read_literalTaken_other d (not_covered_lane covered), hv]

theorem written_delivered {k : Nat} {q0 q1 q2 : Byte} {a : Nat} {v : Byte} (control : s.mode.control = false)
    (tracks : Tracks s) (hv : Mem.read .out s.out a = some v) :
    Mem.read .out (delivered k q0 q1 q2 s).out a = some v := by
  have other := not_covered_pixel control ((tracks a).mp (by rw [hv]; rfl))
  rw [read_delivered_out, if_neg (by tauto), if_neg (by tauto), if_neg (by tauto), hv]

/-! ### The complete buffer -/

/-- In DONE OUT is written exactly below OUT_LEN. -/
theorem written_iff_of_done (h : Inv s) (out : OutTracksUnits s) (hs : s.seq = .done) (a : Nat) :
    (Mem.read .out s.out a).isSome = true ↔ a < s.outLen.toNat := by
  obtain ⟨mode, all⟩ := h.allDone hs
  rw [out (.inr (.inr hs)) a, all, covered_complete mode, outLen_eq (h.phase (.inr (.inr hs)))]

/-! ### The statements -/

/-- Settles O59: the host's moves and every effect keep OUT in step with the units. -/
theorem outTracksUnitsUnderParameters : Obligations.OutTracksUnitsUnderParameters := by
  unfold Obligations.OutTracksUnitsUnderParameters
  exact fun p s t => outTracks_stepWith

/-- Settles O41: the machine's step is the step under the default parameters. -/
theorem outTracksUnitsKept : Obligations.OutTracksUnitsKept := by
  unfold Obligations.OutTracksUnitsKept
  exact fun s t => outTracks_step

/-- Settles O43: below OUT_LEN every byte is written, and in DONE a host read gives the written byte. -/
theorem doneMeansBufferComplete : Obligations.DoneMeansBufferComplete := by
  unfold Obligations.DoneMeansBufferComplete
  intro s h out hs read a ha
  obtain ⟨v, hv⟩ := Option.isSome_iff_exists.mp ((written_iff_of_done h out hs a).mpr ha)
  simp [hostOut, Seq.isDone, hs, hv]

end Sys2Proof.Output
end

section
/-!
PROOFS, the state relations inside a phase (42_tokenstream.md R119, 44_v2_predictor.md R139, 43_v1_expander.md R132): every
effect keeps them, from the opening of the phase on.
-/

namespace Sys2Proof.Relations

open Sys2Proof.Machine Sys2Proof.Safety Sys2Proof.TokenStream Sys2Proof.Effects Sys2Proof.Selection
open Sys2Proof.Validation Sys2Proof.Delivery Sys2Proof.Invariant

variable {p : Params} {s t : State}

/-! ### The pixel phase (R139) -/

theorem pixelPhase_effect {i : Instr} (h : PixelPhase s) (e : Effect Config.params s i t) : PixelPhase t := by
  intro ht control
  cases e with
  | trap busy raises => simp at ht
  | startIgnored busy => exact h ht control
  | started quiet => simp [started] at ht
  | headerLoaded seq present => simp [headerLoaded] at ht
  | payloadOpened seq valid => exact ⟨rfl, rfl⟩
  | controlLoaded due inside =>
    obtain ⟨-, token, -⟩ := (controlDue_iff s).mp due
    exact absurd (token.symm.trans control) Bool.noConfusion
  | literal due inside =>
    obtain ⟨-, token, -⟩ := (tokenDue_iff true s).mp due
    exact absurd (token.symm.trans control) Bool.noConfusion
  | copied supplied due inside fits copy => exact absurd supplied backref_default
  | phaseEnded due =>
    obtain ⟨hs, -⟩ := (endDue_iff s).mp due
    exact h (.inl hs) control
  | @pixel i k q0 q1 q2 nbr nbrv item due inside load =>
    obtain ⟨hs, -, below⟩ := (pixelDue_iff s).mp due
    obtain ⟨ip, wp⟩ := h (.inl hs) control
    obtain rfl : k = 4 := (item.resolve_right fun supplied => delta_default supplied.1).2
    rw [delivered_ip_toNat (s := withNeighbour nbr nbrv s) q0 q1 q2 inside,
      delivered_units_toNat (s := withNeighbour nbr nbrv s) 4 q0 q1 q2 below, delivered_wp_toNat]
    have same : (withNeighbour nbr nbrv s).ip = s.ip ∧ (withNeighbour nbr nbrv s).units = s.units ∧
      (withNeighbour nbr nbrv s).wp = s.wp := ⟨rfl, rfl, rfl⟩
    rw [same.1, same.2.1, same.2.2]
    omega
  | alphaOpened seq inside => cases control
  | reset answer => simp [(reset_fields answer).1] at ht

theorem pixelPhase_step (h : PixelPhase s) (e : step s = .next t) : PixelPhase t := by
  rw [step_eq_stepWith] at e
  exact stepWith_keeps (P := PixelPhase) (fun _ hs => hs) (fun m _ _ hs => by cases m <;> exact hs)
    (fun _ _ _ => pixelPhase_effect) h e

/-! ### The lanes of type 1 (R132) -/

/-- The three lanes of every sample produced so far hold one byte. -/
def Lanes (s : State) : Prop :=
  ∀ u, u < s.units.toNat → ∃ b, Mem.read .out s.out (3 * u) = some b ∧
    Mem.read .out s.out (3 * u + 1) = some b ∧ Mem.read .out s.out (3 * u + 2) = some b

theorem lanes_emitted {b : Byte} (mode : s.mode = .v1) (below : s.units.toNat < s.target.toNat) (h : Lanes s) :
    Lanes (emitted b s) := by
  intro u hu
  rw [emitted_units_toNat b below] at hu
  obtain rfl | old := Nat.eq_or_lt_of_le (Nat.le_of_lt_succ hu)
  · exact ⟨b, read_emitted_out_lane b (by simp [mode, UnitLane]), read_emitted_out_lane b (by simp [mode, UnitLane]),
      read_emitted_out_lane b (by simp [mode, UnitLane])⟩
  · obtain ⟨c, h0, h1, h2⟩ := h u old
    have other {i : Nat} (hi : i < 3) : ¬ UnitLane s.mode s.units.toNat (3 * u + i) := by
      simp only [mode, UnitLane]
      omega
    exact ⟨c, (read_emitted_out_other b (other (i := 0) (by decide))).trans h0,
      (read_emitted_out_other b (other (i := 1) (by decide))).trans h1,
      (read_emitted_out_other b (other (i := 2) (by decide))).trans h2⟩

theorem lanes_copyState {pos j : Nat} (mode : s.mode = .v1) (fits : s.units.toNat + j ≤ s.target.toNat)
    (h : Lanes s) : Lanes (copyState pos s j) := by
  induction j with
  | zero => exact h
  | succ j ih =>
    have small := s.target.isLt
    have units := copyState_units_toNat (pos := pos) (s := s) (j := j) (by omega)
    have target : (copyState pos s j).target = s.target := by rw [copyState_frame]
    exact lanes_emitted (by rw [copyState_mode, mode]) (by rw [units, target]; omega) (ih (by omega))

theorem lanesEqual_effect {i : Instr} (h : LanesEqual s) (e : Effect p s i t) : LanesEqual t := by
  intro ht mode
  have inRun (hs : s.seq = .run) (mode : s.mode = .v1) : Lanes s := h (.inl hs) mode
  cases e with
  | trap busy raises => simp at ht
  | startIgnored busy => exact h ht mode
  | started quiet => simp [started] at ht
  | headerLoaded seq present => simp [headerLoaded] at ht
  | payloadOpened seq valid => exact fun u hu => absurd hu (Nat.not_lt_zero u)
  | controlLoaded due inside =>
    obtain ⟨hs, -⟩ := (controlDue_iff s).mp due
    exact inRun hs mode
  | @literal d due inside =>
    obtain ⟨hs, -, below, -⟩ := (tokenDue_iff true s).mp due
    have lanes := lanes_emitted (s := useControlBit (advance 1 s)) (b := d) mode below (inRun hs mode)
    rwa [literalTaken_eq] at lanes
  | @copied k pos n t supplied due inside fits copy =>
    obtain ⟨hs, -⟩ := (tokenDue_iff false s).mp due
    have mode : s.mode = .v1 := by rwa [copy_frame copy] at mode
    rw [copyUnits_next_eq copy]
    exact lanes_copyState (s := useControlBit (advance k s)) mode fits (inRun hs mode)
  | phaseEnded due =>
    obtain ⟨hs, -⟩ := (endDue_iff s).mp due
    exact inRun hs mode
  | pixel item due inside load =>
    obtain ⟨-, control, -⟩ := (pixelDue_iff s).mp due
    rw [show s.mode = .v1 from mode] at control
    cases control
  | alphaOpened seq inside => cases mode
  | reset answer => simp [(reset_fields answer).1] at ht

theorem lanesEqual_step (h : LanesEqual s) (e : step s = .next t) : LanesEqual t := by
  rw [step_eq_stepWith] at e
  exact stepWith_keeps (P := LanesEqual) (fun _ hs => hs) (fun m _ _ hs => by cases m <;> exact hs)
    (fun _ _ _ => lanesEqual_effect) h e

/-! ### The control-byte phase (R119) -/

theorem unitLane_unitAddress {m : Mode} (hm : m.control = true) (u : Nat) : UnitLane m u (unitAddress m u) := by
  cases m <;> simp [Mode.control, UnitLane, unitAddress] at hm ⊢

/-- A phase that has produced nothing: the cursor stands at the seed's end and the window is the seed. -/
theorem tokenRelation_fresh (units : s.units = 0) (cnt : s.cnt = 0) (wp : s.wp = Config.windowStart)
    (win : s.win = []) (ip : s.ip.toNat = phaseStart s) : TokenRelation s where
  cursor := by
    rw [wp, units]
    rfl
  afterLit _ := by
    rw [units, cnt, ip]
    exact ⟨rfl, rfl⟩
  afterCtl eight := by
    rw [cnt] at eight
    cases eight
  bits some := by
    rw [units, cnt] at some
    cases some
  recent j _ below := by
    rw [units] at below
    exact absurd below (Nat.not_lt_zero j)
  untouched p hp _ := by
    have small : p % 4096 = p := Nat.mod_eq_of_lt hp
    simp [winGet, win, Config.windowLength, small]

theorem tokenRelation_payloadOpened (s : State) : TokenRelation (openPayload s) := by
  have plane : (openPayload s).mode ≠ .v3a := by
    have type : (openPayload s).mode = Mode.ofType s.hdr.htype := rfl
    rw [type, Mode.ofType]
    split_ifs <;> exact Mode.noConfusion
  exact tokenRelation_fresh rfl rfl rfl rfl (by rw [phaseStart, if_neg plane]; rfl)

/-- The alpha phase begins after the raw pixels and the length field (45_v3_composite.md R150, R152). -/
theorem tokenRelation_alphaOpened {n : Word} (h : Inv s) (hs : s.seq = .alen)
    (inside : s.ip.toNat + 4 ≤ s.limit.toNat) (pixels : PixelPhase s) : TokenRelation (openAlpha n s) := by
  obtain ⟨mode, all⟩ := h.rgbDone hs
  obtain ⟨ip, -⟩ := pixels (.inr hs) (by rw [mode]; rfl)
  have target := Output.openAlpha_target_eq (n := n) h hs
  refine tokenRelation_fresh rfl rfl rfl rfl ?_
  have alpha : (openAlpha n s).mode = .v3a := rfl
  rw [phaseStart, if_pos alpha, openAlpha_ip inside, target, ip, all]

theorem phaseStart_ge (s : State) : 32 ≤ phaseStart s := by
  unfold phaseStart
  split_ifs <;> omega

/-- Where a control bit is left, IP is the place of the unit's byte in its group, and so many bits are left. -/
theorem literal_place (h : TokenRelation s) (cnt : s.cnt ≠ 0) :
    s.ip.toNat = phaseStart s + s.units.toNat + s.units.toNat / 8 + 1 ∧ s.cnt.val = 8 - s.units.toNat % 8 := by
  by_cases full : s.cnt = 8
  · obtain ⟨group, place⟩ := h.afterCtl full
    have : s.cnt.val = 8 := congrArg Fin.val full
    omega
  · obtain ⟨place, bit⟩ := h.afterLit full
    unfold controlBytes at place
    have : s.cnt.val ≠ 0 := Fin.val_ne_of_ne cnt
    omega

/-- Where no control bit is left, a group of eight is complete and IP is the place of the next control byte. -/
theorem control_place (h : TokenRelation s) (cnt : s.cnt = 0) :
    s.ip.toNat = phaseStart s + s.units.toNat + s.units.toNat / 8 ∧ s.units.toNat % 8 = 0 := by
  obtain ⟨place, bit⟩ := h.afterLit (by rw [cnt]; decide)
  unfold controlBytes at place
  have : s.cnt.val = 0 := congrArg Fin.val cnt
  omega

theorem tokenRelation_controlLoaded (h : TokenRelation s) (due : controlDue s = true)
    (inside : s.ip.toNat + 1 ≤ s.limit.toNat) :
    TokenRelation (controlLoaded (inByte s s.ip.toNat) s) := by
  obtain ⟨-, -, -, cnt⟩ := (controlDue_iff s).mp due
  obtain ⟨ip, group⟩ := control_place h cnt
  have next : (controlLoaded (inByte s s.ip.toNat) s).ip.toNat = s.ip.toNat + 1 := ip_advanced inside
  have start : phaseStart (controlLoaded (inByte s s.ip.toNat) s) = phaseStart s := rfl
  have same : (controlLoaded (inByte s s.ip.toNat) s).units = s.units := rfl
  exact
    { cursor := h.cursor
      afterLit := fun eight => absurd rfl eight
      afterCtl := fun _ => by
        rw [next, start, same]
        omega
      bits := fun _ => by
        have eight : (controlLoaded (inByte s s.ip.toNat) s).cnt.val = 8 := rfl
        rw [next, eight]
        simp only [Nat.sub_self, Nat.sub_zero, Nat.add_sub_cancel, BitVec.ushiftRight_zero]
        rfl
      recent := h.recent
      untouched := h.untouched }

theorem tokenRelation_literalTaken {d : Byte} (h : TokenRelation s) (due : tokenDue true s = true)
    (inside : s.ip.toNat + 1 ≤ s.limit.toNat) : TokenRelation (literalTaken d s) := by
  obtain ⟨-, control, below, cnt, -⟩ := (tokenDue_iff true s).mp due
  have ip := literalTaken_ip_toNat d inside
  have units := literalTaken_units_toNat d below
  have wp := literalTaken_wp_toNat d s
  have cursor := h.cursor
  have start : phaseStart (literalTaken d s) = phaseStart s := rfl
  have mode : (literalTaken d s).mode = s.mode := rfl
  have left : (literalTaken d s).cnt.val + 1 = s.cnt.val := countDown_val_add_one cnt
  have low := phaseStart_ge s
  obtain ⟨place, bit⟩ := literal_place h cnt
  exact
    { cursor := by omega
      afterLit := fun _ => by
        rw [ip, units, start, controlBytes]
        omega
      afterCtl := fun full => by
        have : (literalTaken d s).cnt.val = 8 := congrArg Fin.val full
        omega
      bits := fun _ => by
        have shifted : (literalTaken d s).ctl = s.ctl >>> 1 := rfl
        have same : s.ip.toNat + 1 - (8 - (literalTaken d s).cnt.val) - 1 =
            s.ip.toNat - (8 - s.cnt.val) - 1 := by omega
        have used : 8 - (literalTaken d s).cnt.val = 8 - s.cnt.val + 1 := by omega
        rw [shifted, h.bits (by omega), ip, same, used, BitVec.shiftRight_add]
        rfl
      recent := fun j old new => by
        rw [units] at old new
        rw [mode, winGet_literalTaken]
        obtain rfl | before := Nat.eq_or_lt_of_le (Nat.le_of_lt_succ new)
        · rw [if_pos cursor.symm, read_literalTaken_lane d (unitLane_unitAddress control _)]
        · have other : ¬ UnitLane s.mode s.units.toNat (unitAddress s.mode j) := fun lane =>
            absurd (unitLane_unique lane (unitLane_unitAddress control j)) (by omega)
          rw [if_neg (by omega), read_literalTaken_other d other]
          exact h.recent j (Nat.le_trans (Nat.sub_le_sub_right (Nat.le_succ _) _) old) before
      untouched := fun p hp seeded => by
        rw [units] at seeded
        rw [winGet_literalTaken, if_neg (by omega)]
        exact h.untouched p hp (by omega) }

theorem tokenPhase_popHost (h : TokenPhase s) : TokenPhase (popHost s) := fun hs control =>
  let r := h hs control
  ⟨r.cursor, r.afterLit, r.afterCtl, r.bits, r.recent, r.untouched⟩

theorem tokenPhase_effect {i : Instr} (h : Inv s) (tokens : TokenPhase s) (pixels : PixelPhase s)
    (operand : ∀ k, i = .ctl k → s.ip.toNat + 1 ≤ s.limit.toNat → s.limit.toNat ≤ s.inLen.toNat →
      k = inByte s s.ip.toNat)
    (e : Effect Config.params s i t) : TokenPhase t := by
  intro ht control
  cases e with
  | trap busy raises => simp at ht
  | startIgnored busy => exact tokens ht control
  | started quiet => simp [started] at ht
  | headerLoaded seq present => simp [headerLoaded] at ht
  | payloadOpened seq valid => exact tokenRelation_payloadOpened s
  | controlLoaded due inside =>
    obtain ⟨hs, -⟩ := (controlDue_iff s).mp due
    rw [operand _ rfl inside (h.segment (.inl hs)).2.2]
    exact tokenRelation_controlLoaded (tokens hs control) due inside
  | literal due inside =>
    obtain ⟨hs, -⟩ := (tokenDue_iff true s).mp due
    exact tokenRelation_literalTaken (tokens hs control) due inside
  | copied supplied due inside fits copy => exact absurd supplied backref_default
  | phaseEnded due =>
    by_cases rgb : s.mode = .v3rgb <;> simp [Effects.phaseEnded, rgb] at ht
  | pixel item due inside load =>
    obtain ⟨-, pixel, -⟩ := (pixelDue_iff s).mp due
    exact absurd (pixel.symm.trans control) Bool.noConfusion
  | alphaOpened seq inside => exact tokenRelation_alphaOpened h seq inside pixels
  | reset answer => simp [(reset_fields answer).1] at ht

/-- The control byte fetched is the byte at IP where it lies inside the segment. -/
theorem ctl_operand {r : Row} {k : Byte} (hk : fetched r s = .ctl k) (h1 : s.ip.toNat + 1 ≤ s.limit.toNat)
    (h2 : s.limit.toNat ≤ s.inLen.toNat) : k = inByte s s.ip.toNat := by
  cases r with
  | ctl =>
    obtain rfl : operandByte s 0 = k := Instr.ctl.inj hk
    exact operandByte_inside (j := 0) h1 (Nat.lt_of_lt_of_le h1 h2)
  | pix =>
    rw [fetched] at hk
    split_ifs at hk
  | _ => cases hk

theorem tokenPhase_step (h : Inv s) (tokens : TokenPhase s) (pixels : PixelPhase s) (e : step s = .next t) :
    TokenPhase t := by
  rw [step_eq_stepWith] at e
  obtain ⟨-, ⟨quiet, rfl⟩ | ⟨r, -, effect⟩⟩ := effect_of_stepWith e
  · intro hs
    have same : (hostWrite (hostMove s) (popHost s)).seq = s.seq := by cases hostMove s <;> rfl
    rw [← same, hs] at quiet
    cases quiet
  · exact tokenPhase_effect (inv_popHost h) (tokenPhase_popHost tokens) pixels (fun _ => ctl_operand) effect

/-! ### The statements -/

/-- Settles O45: every effect keeps the relation, under the default DELTA. -/
theorem pixelRelationKept : Obligations.PixelRelationKept := by
  unfold Obligations.PixelRelationKept
  exact fun s t _ => pixelPhase_step

/-- Settles O46: a sample is one unit of three equal lanes, and no later unit touches them. -/
theorem laneLaw : Obligations.LaneLaw := by
  unfold Obligations.LaneLaw
  exact fun s t _ => lanesEqual_step

/-- Settles O44: both openings meet the relation, and CTL and LIT keep it. -/
theorem tokenRelationKept : Obligations.TokenRelationKept := by
  unfold Obligations.TokenRelationKept
  exact fun s t => tokenPhase_step

end Sys2Proof.Relations
end

section
/-!
PROOFS, the step inside a run at the default parameters (40_header_wrapper.md R80, R87): the item at IP with its operands as
bytes of IN, or a trap and why. IP, the written bytes and the number of steps left are read off the five items.
-/

namespace Sys2Proof.Run

open Sys2Proof.Machine Sys2Proof.Safety Sys2Proof.TokenStream Sys2Proof.Effects Sys2Proof.Selection
open Sys2Proof.Validation Sys2Proof.Delivery Sys2Proof.Invariant Sys2Proof.Output

variable {s t : State}

/-- Why the item at IP traps: the segment cuts it, a control bit 0, or a tag that is not 0 (60_exceptions.md R180). -/
inductive Stopped (s : State) : Prop where
  | controlCut (due : controlDue s = true) (cut : s.limit.toNat < s.ip.toNat + 1)
  | literalCut (due : tokenDue true s = true) (cut : s.limit.toNat < s.ip.toNat + 1)
  | reservedToken (due : tokenDue false s = true)
  | pixelCut (due : pixelDue s = true) (cut : s.limit.toNat < s.ip.toNat + 4)
  | reservedTag (due : pixelDue s = true) (tag : inByte s s.ip.toNat ≠ 0)
  | alphaCut (seq : s.seq = .alen) (cut : s.limit.toNat < s.ip.toNat + 4)

/-- What a step inside a run does to the state whose host move has been taken. -/
inductive RunStep (s : State) : State → Prop where
  | trap {f info} (why : Stopped s) : RunStep s (trapState f info s)
  | phaseEnded (due : endDue s = true) : RunStep s (phaseEnded s)
  | control (due : controlDue s = true) (inside : s.ip.toNat + 1 ≤ s.limit.toNat) :
      RunStep s (controlLoaded (inByte s s.ip.toNat) s)
  | literal (due : tokenDue true s = true) (inside : s.ip.toNat + 1 ≤ s.limit.toNat) :
      RunStep s (literalTaken (inByte s s.ip.toNat) s)
  | pixel {nbr nbrv} (due : pixelDue s = true) (inside : s.ip.toNat + 4 ≤ s.limit.toNat)
      (load : loadNeighbour s = .next (withNeighbour nbr nbrv s)) :
      RunStep s (delivered 4 (inByte s (s.ip.toNat + 1)) (inByte s (s.ip.toNat + 2)) (inByte s (s.ip.toNat + 3))
        (withNeighbour nbr nbrv s))
  | alpha (seq : s.seq = .alen) (inside : s.ip.toNat + 4 ≤ s.limit.toNat) :
      RunStep s (openAlpha (inWord s s.ip.toNat) s)

/-! ### Every step inside a run is one of these -/

theorem operand_inside {j : Nat} (h1 : s.ip.toNat + j < s.limit.toNat) (h2 : s.limit.toNat ≤ s.inLen.toNat) :
    operandByte s j = inByte s (s.ip.toNat + j) :=
  operandByte_inside h1 (Nat.lt_of_lt_of_le h1 h2)

section Rows

variable (inLen : s.limit.toNat ≤ s.inLen.toNat)
include inLen

theorem runStep_ctl (e : execCtl (operandByte s 0) s = .next t) : RunStep s t := by
  obtain ⟨due, ⟨cut, rfl⟩ | ⟨inside, -, rfl⟩⟩ := execCtl_next e
  · exact .trap (.controlCut due cut)
  · rw [operand_inside (j := 0) inside inLen]
    exact .control due inside

theorem runStep_lit (e : execLit (operandByte s 0) s = .next t) : RunStep s t := by
  obtain ⟨due, ⟨cut, rfl⟩ | ⟨inside, -, -, taken⟩⟩ := execLit_next e
  · exact .trap (.literalCut due cut)
  · rw [taken.trans (literalTaken_eq _ s), operand_inside (j := 0) inside inLen]
    exact .literal due inside

theorem runStep_pix (e : exec (fetched .pix s) s = .next t) : RunStep s t := by
  rw [fetched] at e
  split_ifs at e with tag
  · obtain ⟨due, ⟨cut, rfl⟩ | ⟨inside, -, -, s1, load, rfl⟩⟩ := execPixRaw_next e
    · exact .trap (.pixelCut due cut)
    · obtain ⟨nbr, nbrv, rfl⟩ := loadNeighbour_withNeighbour load
      rw [delivered_eq, operand_inside (j := 1) (by omega) inLen, operand_inside (j := 2) (by omega) inLen,
        operand_inside (j := 3) (by omega) inLen]
      exact .pixel due inside load
  · obtain ⟨due, -, ⟨cut, rfl⟩ | ⟨inside, rfl⟩⟩ := execPixDelta_next e
    · exact .trap (.pixelCut due (by omega))
    · rw [operand_inside (j := 0) inside inLen] at tag
      exact .trap (.reservedTag due tag)

theorem runStep_alen (e : exec (fetched .alen s) s = .next t) : RunStep s t := by
  obtain ⟨seq, ⟨cut, rfl⟩ | ⟨inside, -, rfl⟩⟩ := execAlen_next e
  · exact .trap (.alphaCut seq cut)
  · have operand := alen_operand inside inLen
    rw [show wordOfBytes (operandByte s 0) (operandByte s 1) (operandByte s 2) (operandByte s 3) =
      inWord s s.ip.toNat from operand]
    exact .alpha seq inside

theorem runStep_run (e : exec (fetched (runRow s) s) s = .next t) : RunStep s t := by
  by_cases hu : s.units = s.target
  · rw [runRow_end hu] at e
    obtain ⟨due, rfl⟩ := execEnd_next e
    exact .phaseEnded due
  by_cases hm : s.mode.control = true
  · by_cases hc : s.cnt = 0
    · rw [runRow_ctl hu hm hc] at e
      exact runStep_ctl inLen e
    · rw [runRow_token hu hm hc] at e
      split_ifs at e
      · exact runStep_lit inLen e
      · obtain ⟨due, rfl⟩ := execBref_next e
        exact .trap (.reservedToken due)
  · rw [Bool.not_eq_true] at hm
    rw [runRow_pix hu hm] at e
    exact runStep_pix inLen e

end Rows

/-- Inside a run, under a host that neither resets nor writes. -/
theorem runStep_of_step (h : Inv s) (hq : HostQuiet s) (hs : s.seq = .run ∨ s.seq = .alen) (e : step s = .next t) :
    RunStep (popHost s) t := by
  obtain ⟨-, -, inLen⟩ := h.segment hs
  obtain hs | hs := hs
  · rw [step_run hq hs] at e
    exact runStep_run (s := popHost s) inLen e
  · rw [step_alen hq hs] at e
    exact runStep_alen (s := popHost s) inLen e

/-! ### IP (R19) -/

/-- Where IP stands after a step inside a run that does not trap. -/
def IpMoved (s t : State) : Prop :=
  t.ip.toNat ≤ s.limit.toNat ∧
    ((s.seq = .run ∧ s.units = s.target ∧ t.ip = s.ip) ∨
     (s.seq = .run ∧ s.units ≠ s.target ∧ s.mode.control = true ∧ t.ip.toNat = s.ip.toNat + 1) ∨
     (s.seq = .run ∧ s.units ≠ s.target ∧ s.mode.control = false ∧ t.ip.toNat = s.ip.toNat + 4) ∨
     (s.seq = .alen ∧ t.ip.toNat = s.ip.toNat + 4))

theorem ne_of_toNat_lt {a b : Word} (h : a.toNat < b.toNat) : a ≠ b := fun e => absurd (e ▸ h) (Nat.lt_irrefl _)

theorem ipMoved_of_runStep (inside : s.ip.toNat ≤ s.limit.toNat) (step : RunStep s t) (ht : t.seq ≠ .fault) :
    IpMoved s t := by
  cases step with
  | trap why => exact absurd rfl ht
  | phaseEnded due =>
    obtain ⟨hs, hu⟩ := (endDue_iff s).mp due
    exact ⟨inside, .inl ⟨hs, hu, rfl⟩⟩
  | control due inside =>
    obtain ⟨hs, hm, below, -⟩ := (controlDue_iff s).mp due
    have ip : (controlLoaded (inByte s s.ip.toNat) s).ip.toNat = s.ip.toNat + 1 := ip_advanced inside
    exact ⟨ip.trans_le inside, .inr (.inl ⟨hs, ne_of_toNat_lt below, hm, ip⟩)⟩
  | literal due inside =>
    obtain ⟨hs, hm, below, -⟩ := (tokenDue_iff true s).mp due
    have ip := literalTaken_ip_toNat (inByte s s.ip.toNat) inside
    exact ⟨ip.trans_le inside, .inr (.inl ⟨hs, ne_of_toNat_lt below, hm, ip⟩)⟩
  | @pixel nbr nbrv due inside load =>
    obtain ⟨hs, hm, below⟩ := (pixelDue_iff s).mp due
    have ip := delivered_ip_toNat (s := withNeighbour nbr nbrv s) (inByte s (s.ip.toNat + 1))
      (inByte s (s.ip.toNat + 2)) (inByte s (s.ip.toNat + 3)) inside
    exact ⟨ip.trans_le inside, .inr (.inr (.inl ⟨hs, ne_of_toNat_lt below, hm, ip⟩))⟩
  | alpha seq inside =>
    have ip := openAlpha_ip (n := inWord s s.ip.toNat) inside
    exact ⟨ip.trans_le inside, .inr (.inr (.inr ⟨seq, ip⟩))⟩

/-! ### The written bytes (R25) -/

theorem written_of_runStep {a : Nat} {v : Byte} (tracks : Tracks s) (step : RunStep s t)
    (hv : Mem.read .out s.out a = some v) : Mem.read .out t.out a = some v := by
  cases step with
  | literal due inside => exact written_literalTaken tracks hv
  | @pixel nbr nbrv due inside load =>
    obtain ⟨-, hm, -⟩ := (pixelDue_iff s).mp due
    exact written_delivered (s := withNeighbour nbr nbrv s) hm tracks hv
  | _ => exact hv

/-! ### The steps left (R87) -/

theorem stepsLeft_token (hs : s.seq = .run) (hm : s.mode.control = true) :
    stepsLeft s = tokenSteps (s.target.toNat - s.units.toNat) s.cnt.val := by
  rw [stepsLeft, if_neg (by simp [hs]), if_pos hs]
  cases mode : s.mode <;> first | rfl | (rw [mode] at hm; cases hm)

/-- The steps after the pixels of a phase, its END included: the alpha plane's, where there is one. -/
def stepsAfterPixels (m : Mode) (target : Nat) : Nat :=
  if m = .v3rgb then 2 + tokenSteps target 0 else 1

theorem stepsLeft_pixel (hs : s.seq = .run) (hm : s.mode.control = false) :
    stepsLeft s = s.target.toNat - s.units.toNat + stepsAfterPixels s.mode s.target.toNat := by
  rw [stepsLeft, if_neg (by simp [hs]), if_pos hs, stepsAfterPixels]
  cases mode : s.mode <;> simp [mode, Mode.control] at hm ⊢
  omega

theorem stepsLeft_alen (hs : s.seq = .alen) : stepsLeft s = 1 + tokenSteps s.target.toNat 0 := by
  rw [stepsLeft, if_pos hs]

theorem stepsLeft_done (hs : s.seq = .done) : stepsLeft s = 0 := by
  rw [stepsLeft, if_neg (by simp [hs]), if_neg (by simp [hs])]

theorem stepsLeft_phaseEnded (due : endDue s = true) : stepsLeft (phaseEnded s) + 1 = stepsLeft s := by
  obtain ⟨hs, hu⟩ := (endDue_iff s).mp due
  have target : (phaseEnded s).target = s.target := rfl
  by_cases rgb : s.mode = .v3rgb
  · have hm : s.mode.control = false := by rw [rgb]; rfl
    rw [stepsLeft_alen (if_pos rgb), stepsLeft_pixel hs hm, hu, stepsAfterPixels, if_pos rgb, target]
    omega
  · rw [stepsLeft_done (if_neg rgb)]
    cases hm : s.mode.control with
    | true =>
      rw [stepsLeft_token hs hm, hu, tokenSteps, controlBytes]
      omega
    | false =>
      rw [stepsLeft_pixel hs hm, hu, stepsAfterPixels, if_neg rgb]
      omega

theorem stepsLeft_of_runStep (h : Inv s) (step : RunStep s t) : t.seq = .fault ∨ stepsLeft t + 1 = stepsLeft s := by
  cases step with
  | trap why => exact .inl rfl
  | phaseEnded due => exact .inr (stepsLeft_phaseEnded due)
  | control due inside =>
    obtain ⟨hs, hm, below, hc⟩ := (controlDue_iff s).mp due
    have eight : (8 : Fin 9).val = 8 := rfl
    have zero : (0 : Fin 9).val = 0 := rfl
    rw [stepsLeft_token hs hm, stepsLeft_token (s := controlLoaded (inByte s s.ip.toNat) s) hs hm]
    simp only [controlLoaded, advance, hc, tokenSteps, controlBytes, eight, zero]
    right
    omega
  | literal due inside =>
    obtain ⟨hs, hm, below, hc, -⟩ := (tokenDue_iff true s).mp due
    have units := literalTaken_units_toNat (inByte s s.ip.toNat) below
    have left : (literalTaken (inByte s s.ip.toNat) s).cnt.val + 1 = s.cnt.val := countDown_val_add_one hc
    have target : (literalTaken (inByte s s.ip.toNat) s).target = s.target := rfl
    rw [stepsLeft_token hs hm, stepsLeft_token (s := literalTaken (inByte s s.ip.toNat) s) hs hm, units, target,
      tokenSteps, tokenSteps, controlBytes, controlBytes]
    right
    omega
  | @pixel nbr nbrv due inside load =>
    obtain ⟨hs, hm, below⟩ := (pixelDue_iff s).mp due
    have units := delivered_units_toNat (s := withNeighbour nbr nbrv s) 4 (inByte s (s.ip.toNat + 1))
      (inByte s (s.ip.toNat + 2)) (inByte s (s.ip.toNat + 3)) below
    rw [stepsLeft_pixel hs hm, stepsLeft_pixel (s := delivered 4 _ _ _ (withNeighbour nbr nbrv s)) hs hm, units]
    have same : (withNeighbour nbr nbrv s).units = s.units := rfl
    rw [same]
    right
    show s.target.toNat - (s.units.toNat + 1) + stepsAfterPixels s.mode s.target.toNat + 1 = _
    omega
  | alpha seq inside =>
    have target := openAlpha_target_eq (n := inWord s s.ip.toNat) h seq
    right
    rw [stepsLeft_alen seq, stepsLeft_token (s := openAlpha (inWord s s.ip.toNat) s) rfl rfl, target, Nat.add_comm]
    rfl

/-! ### The statements -/

/-- Settles O40: END looks at no byte, every other item moves IP by its bytes, which lie inside the segment. -/
theorem inputPointerAdvances : Obligations.InputPointerAdvances := by
  unfold Obligations.InputPointerAdvances
  intro s t h hq hs e ht
  obtain ⟨-, inside, -⟩ := h.segment hs
  exact ipMoved_of_runStep (s := popHost s) inside (runStep_of_step h hq hs e) ht

/-- Settles O42: a unit's addresses are not covered before it, so no written byte is written again. -/
theorem outByteWrittenOnce : Obligations.OutByteWrittenOnce := by
  unfold Obligations.OutByteWrittenOnce
  intro s t a v h out hq e hs
  have tracks : Tracks (popHost s) := out (hs.imp_right .inl)
  exact written_of_runStep (s := popHost s) tracks (runStep_of_step h hq hs e)

/-- Settles O47: the measure drops by one at END, at a control byte, at a unit and at ALEN. -/
theorem stepsLeftDecrease : Obligations.StepsLeftDecrease := by
  unfold Obligations.StepsLeftDecrease
  exact fun s t h hq hs e => stepsLeft_of_runStep (s := popHost s) (inv_popHost h) (runStep_of_step h hq hs e)

end Sys2Proof.Run
end

section
/-!
PROOFS, a run from START on (40_header_wrapper.md section 5). START, HLOAD and HCHK lead to the state in which decoding
starts, which is a function of IN, IN_LEN and the host's moves; from there every step brings the end nearer by one.
-/

namespace Sys2Proof.Runs

open Sys2Proof.Machine Sys2Proof.Safety Sys2Proof.Effects Sys2Proof.Selection Sys2Proof.Validation
open Sys2Proof.Invariant Sys2Proof.Completion Sys2Proof.Run

variable {s t : State}

/-! ### Steps in a row -/

theorem run_succ {n : Nat} {s1 : State} (e : step s = .next s1) :
    Host.Core.run core (n + 1) s = Host.Core.run core n s1 := by
  simp only [Host.Core.run, show core.step s = .next s1 from e]

theorem run_one (e : step s = .next t) : Host.Core.run core 1 s = .next t := run_succ e

/-- A run of `n + 1` steps that completes has a first step. -/
theorem run_succ_next {n : Nat} (e : Host.Core.run core (n + 1) s = .next t) :
    ∃ s1, step s = .next s1 ∧ Host.Core.run core n s1 = .next t := by
  cases first : step s with
  | next s1 => exact ⟨s1, rfl, (run_succ first).symm.trans e⟩
  | fault r => simp [Host.Core.run, show core.step s = .fault r from first] at e
  | refused r => simp [Host.Core.run, show core.step s = .refused r from first] at e

theorem run_add {m n : Nat} {s1 : State} (e : Host.Core.run core m s = .next s1) :
    Host.Core.run core (m + n) s = Host.Core.run core n s1 := by
  induction m generalizing s with
  | zero => rw [Nat.zero_add, Host.Outcome.next.inj e]
  | succ m ih =>
    obtain ⟨s2, first, rest⟩ := run_succ_next e
    rw [Nat.add_right_comm, run_succ first, ih rest]

/-! ### The steps before decoding -/

theorem step_started (quiet : s.seq.busy = false) (move : hostMove s = .start) :
    step s = .next (started (popHost s)) := by
  rw [step_start quiet move]
  exact if_neg (by rw [popHost_seq, quiet]; exact Bool.false_ne_true)

theorem step_headerLoaded (hq : HostQuiet s) (hs : s.seq = .hload) (present : 32 ≤ s.inLen.toNat) :
    step s = .next (headerLoaded (inHeader s) (popHost s)) := by
  rw [step_hload hq hs, fetchedHeader_inside present]
  exact execHload_completes (s := popHost s) _ hs present

theorem step_payloadOpened (hq : HostQuiet s) (hs : s.seq = .hchk) (valid : HeaderValid s.hdr) :
    step s = .next (openPayload (popHost s)) := by
  rw [step_hchk hq hs]
  exact execHchk_completes (s := popHost s) hs valid.1 valid.2.1 valid.2.2

/-- A busy step that leads to a busy state is under a host that neither resets nor writes. -/
theorem hostQuiet_of_busy (e : step s = .next t) (busy : s.seq.busy = true) (ht : t.seq ≠ .idle) : HostQuiet s := by
  refine ⟨fun move => ht ?_, ?_⟩
  · rw [step_reset move] at e
    exact (reset_fields e).1
  · rw [step_eq_stepWith] at e
    have allowed := (effect_of_stepWith e).1
    rwa [busy, Bool.and_true] at allowed

theorem headerLoaded_of_step (e : step s = .next t) (hs : s.seq = .hload) (ht : t.seq = .hchk) :
    HostQuiet s ∧ 32 ≤ s.inLen.toNat ∧ t = headerLoaded (inHeader s) (popHost s) := by
  have hq := hostQuiet_of_busy e (by rw [hs]; rfl) (by simp [ht])
  rw [step_hload hq hs] at e
  obtain ⟨-, ⟨-, rfl⟩ | ⟨present, rfl⟩⟩ := execHload_next e
  · cases ht
  · exact ⟨hq, present, by rw [fetchedHeader_inside (s := s) present, headerLoaded]⟩

theorem payloadOpened_of_step (e : step s = .next t) (hs : s.seq = .hchk) (ht : t.seq = .run) :
    HostQuiet s ∧ HeaderValid s.hdr ∧ t = openPayload (popHost s) := by
  have hq := hostQuiet_of_busy e (by rw [hs]; rfl) (by simp [ht])
  rw [step_hchk hq hs] at e
  obtain ⟨-, ⟨-, rfl⟩ | ⟨-, -, rfl⟩ | ⟨-, -, -, rfl⟩ | ⟨h1, h2, h3, rfl⟩⟩ := execHchk_next e
  · cases ht
  · cases ht
  · cases ht
  · exact ⟨hq, ⟨h1, h2, h3⟩, rfl⟩

/-- Only HCHK leads into a run from outside. -/
theorem seq_before_run (e : step s = .next t) (ht : t.seq = .run ∨ t.seq = .alen) :
    s.seq = .hchk ∨ s.seq = .run ∨ s.seq = .alen := by
  rw [step_eq_stepWith] at e
  obtain ⟨-, ⟨-, rfl⟩ | ⟨r, -, effect⟩⟩ := effect_of_stepWith e
  · have same : (hostWrite (hostMove s) (popHost s)).seq = s.seq := by cases hostMove s <;> rfl
    exact .inr (same ▸ ht)
  · have before : (popHost s).seq = .hchk ∨ (popHost s).seq = .run ∨ (popHost s).seq = .alen := by
      generalize fetched r (popHost s) = i at effect
      cases effect with
      | trap busy raises => simp at ht
      | startIgnored busy => exact .inr ht
      | started quiet => simp [started] at ht
      | headerLoaded seq present => simp [headerLoaded] at ht
      | payloadOpened seq valid => exact .inl seq
      | controlLoaded due inside => exact .inr (.inl ((controlDue_iff _).mp due).1)
      | literal due inside => exact .inr (.inl ((tokenDue_iff true _).mp due).1)
      | copied supplied due inside fits copy => exact .inr (.inl ((tokenDue_iff false _).mp due).1)
      | phaseEnded due => exact .inr (.inl ((endDue_iff _).mp due).1)
      | pixel item due inside load => exact .inr (.inl ((pixelDue_iff _).mp due).1)
      | alphaOpened seq inside => exact .inr (.inr seq)
      | reset answer => simp [(reset_fields answer).1] at ht
    exact before

/-! ### The state in which decoding starts -/

/-- The state HCHK checks, three host moves after START. -/
def headerInPlace (s : State) : State := popHost (headerLoaded (inHeader s) (popHost (started (popHost s))))

/-- The state HCHK reaches three steps after START: IN, IN_LEN and the host's moves are all it takes from before. -/
def decodingStart (s : State) : State := openPayload (headerInPlace s)

/-- What lets START, HLOAD and HCHK through. -/
structure Opens (s : State) : Prop where
  loads   : HostQuiet (popHost s)
  checks  : HostQuiet (popHost (popHost s))
  present : 32 ≤ s.inLen.toNat
  valid   : HeaderValid (inHeader s)

theorem run_three_of_opens (quiet : s.seq.busy = false) (move : hostMove s = .start) (h : Opens s) :
    Host.Core.run core 3 s = .next (decodingStart s) := by
  rw [run_succ (step_started quiet move),
    run_succ (step_headerLoaded (s := started (popHost s)) h.loads rfl h.present)]
  exact run_one (step_payloadOpened (s := headerLoaded (inHeader s) (popHost (started (popHost s)))) h.checks rfl h.valid)

theorem opens_of_run_three (quiet : s.seq.busy = false) (move : hostMove s = .start)
    (e : Host.Core.run core 3 s = .next t) (ht : t.seq = .run) : Opens s := by
  rw [run_succ (step_started quiet move)] at e
  obtain ⟨s2, second, e⟩ := run_succ_next e
  obtain ⟨s3, third, e⟩ := run_succ_next e
  obtain rfl := Host.Outcome.next.inj e
  have hchk : s2.seq = .hchk := by
    obtain hchk | running := seq_before_run third (.inl ht)
    · exact hchk
    · have impossible := seq_before_run second running
      simp [started] at impossible
  obtain ⟨loads, present, rfl⟩ := headerLoaded_of_step second rfl hchk
  obtain ⟨checks, valid, -⟩ := payloadOpened_of_step third hchk ht
  exact ⟨loads, checks, present, valid⟩

/-- The two states owe nothing to anything but IN, IN_LEN and the host's moves. -/
theorem decodingStart_sameRun (inp : t.inp = s.inp) (inLen : t.inLen = s.inLen) (host : t.host = s.host) :
    SameRun (decodingStart s) (decodingStart t) := by
  have header : inHeader t = inHeader s := by simp only [inHeader, inWord, inByte, inp]
  refine ⟨?_, fun pixel => nomatch pixel⟩
  simp only [decodingStart, headerInPlace, openPayload, beginPhase, payloadEnd, headerLoaded, popHost, started, header, inp, inLen,
    host]

/-! ### From there to the end -/

/-- A host that has no move left, in a state of the invariant. -/
def Alone (s : State) : Prop := Inv s ∧ s.host = []

theorem Alone.hostQuiet (h : Alone s) : HostQuiet s := by
  rw [HostQuiet, hostMove, h.2]
  exact ⟨HostMove.noConfusion, rfl⟩

theorem Alone.step (h : Alone s) (e : Machine.step s = .next t) : Alone t := by
  refine ⟨inv_step h.1 e, ?_⟩
  have host : (popHost s).host = [] := by rw [popHost_host, h.2]; rfl
  rw [step_eq_stepWith] at e
  obtain ⟨-, ⟨-, rfl⟩ | ⟨r, -, effect⟩⟩ := effect_of_stepWith e
  · cases hostMove s <;> exact host
  · obtain ⟨-, -, same⟩ := effect.host_fields
    rw [same, host]

theorem Alone.completes (h : Alone s) : ∃ t, Machine.step s = .next t :=
  step_completes h.1 (by rw [h.hostQuiet.2, Bool.false_and])

theorem stepsLeft_pos (hs : s.seq = .run ∨ s.seq = .alen) : 1 ≤ stepsLeft s := by
  obtain hs | hs := hs
  · cases hm : s.mode.control with
    | true =>
      rw [stepsLeft_token hs hm, tokenSteps]
      omega
    | false =>
      rw [stepsLeft_pixel hs hm, stepsAfterPixels]
      split_ifs <;> omega
  · rw [stepsLeft_alen hs]
    omega

/-- Inside a run a step goes on or ends it. -/
theorem seq_of_runStep (step : RunStep s t) : t.seq.ended = true ∨ t.seq = .run ∨ t.seq = .alen := by
  cases step with
  | trap why => exact .inl rfl
  | phaseEnded due =>
    by_cases rgb : s.mode = .v3rgb
    · exact .inr (.inr (if_pos rgb))
    · have seq : (phaseEnded s).seq = .done := if_neg rgb
      rw [seq]
      exact .inl rfl
  | control due inside => exact .inr (.inl ((controlDue_iff s).mp due).1)
  | literal due inside => exact .inr (.inl ((tokenDue_iff true s).mp due).1)
  | pixel due inside load => exact .inr (.inl ((pixelDue_iff s).mp due).1)
  | alpha seq inside => exact .inr (.inl rfl)

/-- What every step keeps holds at the end of the run, which comes within the steps left. -/
theorem reaches_end {P : State → Prop} (alone : ∀ s, P s → Alone s)
    (keeps : ∀ s t, P s → s.seq = .run ∨ s.seq = .alen → step s = .next t → P t) (h : P s)
    (hs : s.seq = .run ∨ s.seq = .alen) :
    ∃ k t, 1 ≤ k ∧ k ≤ stepsLeft s ∧ Host.Core.run core k s = .next t ∧ P t ∧ t.seq.ended = true := by
  induction steps : stepsLeft s generalizing s with
  | zero =>
    have := stepsLeft_pos hs
    omega
  | succ n ih =>
    obtain ⟨t, e⟩ := (alone s h).completes
    have ht := keeps s t h hs e
    have runStep := runStep_of_step (alone s h).1 (alone s h).hostQuiet hs e
    obtain ended | running := seq_of_runStep runStep
    · exact ⟨1, t, Nat.le_refl 1, by omega, run_one e, ht, ended⟩
    · have left : stepsLeft t = n := by
        obtain fault | left := stepsLeft_of_runStep (inv_popHost (alone s h).1) runStep
        · rw [fault] at running
          simp at running
        · have same : stepsLeft (popHost s) = stepsLeft s := rfl
          omega
      obtain ⟨k, t', pos, le, rest, ht', ended⟩ := ih ht running left
      exact ⟨k + 1, t', by omega, by omega, (run_succ e).trans rest, ht', ended⟩

/-! ### The bound (R87) -/

theorem controlBytes_mono {m n : Nat} (h : m ≤ n) : controlBytes m ≤ controlBytes n :=
  Nat.div_le_div_right (by omega)

/-- After HCHK the steps left lie within the bound of R87. -/
theorem stepsLeft_openPayload (hv : HeaderValid s.hdr) :
    3 + stepsLeft (openPayload s) ≤ runBound s.hdr.hunpacked.toInt := by
  have target := openPayload_target hv
  have first := firstTarget_eq hv
  have pos := hv.pixelCount_pos
  have le := pixelCount_le hv
  have fits : (openPayload s).target.toNat ≤ max s.hdr.hunpacked.toInt.toNat 1 := by
    rw [first] at target
    split_ifs at target <;> omega
  have controls := controlBytes_mono fits
  have units : (openPayload s).units.toNat = 0 := rfl
  have cnt : (openPayload s).cnt.val = 0 := rfl
  rw [runBound]
  cases hm : (openPayload s).mode.control with
  | true =>
    rw [stepsLeft_token rfl hm, units, cnt, tokenSteps, Nat.sub_zero, Nat.sub_zero]
    omega
  | false =>
    rw [stepsLeft_pixel rfl hm, units, stepsAfterPixels, tokenSteps, Nat.sub_zero]
    split_ifs with rgb
    · have type : s.hdr.htype.toInt = 3 := (mode_eq_v3rgb_iff hv).mp rgb
      have size := hunpacked_of_type_three hv type
      rw [first, if_neg (by rw [ofType_three type]; exact Mode.noConfusion)] at target
      omega
    · omega

theorem three_le_runBound (n : Int) : 3 ≤ runBound n := by
  rw [runBound]
  omega

/-- HCHK ends the run or begins the decoding. -/
theorem hchk_ends_or_opens (h : Alone s) (hs : s.seq = .hchk) :
    (∃ t, step s = .next t ∧ t.seq.ended = true) ∨
      HeaderValid s.hdr ∧ step s = .next (openPayload (popHost s)) := by
  obtain ⟨t, e⟩ := h.completes
  have answer := e
  rw [step_hchk h.hostQuiet hs] at answer
  obtain ⟨-, ⟨-, rfl⟩ | ⟨-, -, rfl⟩ | ⟨-, -, -, rfl⟩ | ⟨h1, h2, h3, rfl⟩⟩ := execHchk_next answer
  · exact .inl ⟨_, e, rfl⟩
  · exact .inl ⟨_, e, rfl⟩
  · exact .inl ⟨_, e, rfl⟩
  · exact .inr ⟨⟨h1, h2, h3⟩, e⟩

/-! ### The statements -/

/-- Settles O48: fewer than 32 bytes and a header that fails a check end the run at once; otherwise the bound of the first
phase and the measure of its steps. -/
theorem everyRunTerminates : Obligations.EveryRunTerminates := by
  unfold Obligations.EveryRunTerminates
  intro s h quiet host
  have three := three_le_runBound (inWord s 28).toInt
  have first : step s = .next (started (popHost s)) := step_started quiet (by rw [hostMove, host]; rfl)
  have alone1 : Alone (started (popHost s)) :=
    ⟨inv_started (inv_popHost h), by rw [started, popHost_host, host]; rfl⟩
  by_cases present : 32 ≤ s.inLen.toNat
  · have second := step_headerLoaded (s := started (popHost s)) alone1.hostQuiet rfl present
    have alone2 := alone1.step second
    obtain ⟨t, third, ended⟩ | ⟨valid, third⟩ := hchk_ends_or_opens alone2 rfl
    · exact ⟨3, t, by decide, three, by rw [run_succ first, run_succ second, run_one third], ended⟩
    · obtain ⟨k, t, pos, le, rest, -, ended⟩ := reaches_end (P := Alone) (fun _ h => h) (fun _ _ h _ => h.step)
        (alone2.step third) (.inl rfl)
      have bound := stepsLeft_openPayload (s := headerInPlace s) valid
      refine ⟨3 + k, t, by omega, Nat.le_trans (Nat.add_le_add_left le 3) bound, ?_, ended⟩
      rw [run_add (by rw [run_succ first, run_succ second, run_one third]), rest]
  · have short : s.inLen.toNat < 32 := Nat.lt_of_not_le present
    have second : step (started (popHost s)) = .next (trapState .invalidHeader 0 (popHost (started (popHost s)))) := by
      rw [step_hload alone1.hostQuiet rfl]
      exact execHload_short (s := popHost (started (popHost s))) _ rfl short
    exact ⟨2, _, by decide, Nat.le_trans (by decide) three, by rw [run_succ first, run_one second], rfl⟩

/-- Settles O49: what lets the three steps through, and the state they lead to, depend on IN, IN_LEN and the host only. -/
theorem runStartsFresh : Obligations.RunStartsFresh := by
  unfold Obligations.RunStartsFresh
  intro s s' t t' quiet quiet' inp inLen host move e e' hs'
  have opens := opens_of_run_three quiet move e hs'
  have header : inHeader t = inHeader s := by simp only [inHeader, inWord, inByte, inp]
  have opens' : Opens t :=
    { loads := by simpa only [HostQuiet, hostMove, popHost, host] using opens.loads
      checks := by simpa only [HostQuiet, hostMove, popHost, host] using opens.checks
      present := inLen ▸ opens.present
      valid := header ▸ opens.valid }
  have move' : hostMove t = .start := by rw [hostMove, host]; exact move
  rw [run_three_of_opens quiet move opens] at e
  rw [run_three_of_opens quiet' move' opens'] at e'
  obtain rfl := Host.Outcome.next.inj e
  obtain rfl := Host.Outcome.next.inj e'
  exact decodingStart_sameRun inp inLen host

end Sys2Proof.Runs
end

section
/-!
PROOFS, that what the spec gives no value does not reach the run (40_header_wrapper.md R86). A state with other values for
NBR and for the number of the next free value takes the same step; only the neighbour load writes the two, and it reads
written bytes of OUT only.
-/

namespace Sys2Proof.Unspecified

open Sys2Proof.Machine Sys2Proof.Safety Sys2Proof.TokenStream Sys2Proof.Effects Sys2Proof.Selection
open Sys2Proof.Delivery Sys2Proof.Invariant Sys2Proof.Output

variable {s t : State}

/-- The state with these values for what the spec gives no value. -/
def retag (n : Pixel) (f : Nat) (s : State) : State := { s with nbr := n, free := f }

/-- A step's answer with these values. -/
def retagged (n : Pixel) (f : Nat) (o : Result) : Result := andThen o (fun s => .next (retag n f s))

theorem retagged_ite (n : Pixel) (f : Nat) (c : Prop) [Decidable c] (o o' : Result) :
    retagged n f (if c then o else o') = if c then retagged n f o else retagged n f o' :=
  apply_ite _ c o o'

theorem guardFetch_retag {k : Nat} {g : State → Result} (n : Pixel) (f : Nat)
    (hg : g (retag n f s) = retagged n f (g s)) :
    guardFetch k (retag n f s) g = retagged n f (guardFetch k s g) := by
  rw [guardFetch, guardFetch, retagged_ite, retagged_ite]
  exact ite_congr rfl (fun _ => rfl) fun _ => ite_congr rfl (fun _ => rfl) fun _ => hg

theorem outWrites_retag (n : Pixel) (f : Nat) (cells : List Host.Cell) (s : State) :
    outWrites cells (retag n f s) = retagged n f (outWrites cells s) := by
  rw [outWrites, outWrites, retagged_ite]
  rfl

theorem emitUnit_retag (n : Pixel) (f : Nat) (d : Byte) (s : State) :
    emitUnit d (retag n f s) = retagged n f (emitUnit d s) := by
  rw [emitUnit, outWrites_retag, emitUnit]
  show andThen (retagged n f (outWrites (unitCells s.mode s.units.toNat d) s)) _ = _
  cases outWrites (unitCells s.mode s.units.toNat d) s <;> rfl

/-- An instruction that neither loads the neighbour nor resets does the same. -/
theorem exec_retag (n : Pixel) (f : Nat) {i : Instr} (raw : ∀ q0 q1 q2, i ≠ .pixRaw q0 q1 q2) (reset : i ≠ .reset)
    (s : State) : exec i (retag n f s) = retagged n f (exec i s) := by
  cases i with
  | start =>
    rw [exec, exec, execStart, execStart, retagged_ite]
    rfl
  | hload h =>
    rw [exec, exec, execHload, execHload, retagged_ite, retagged_ite]
    rfl
  | hchk =>
    rw [exec, exec, execHchk, execHchk, retagged_ite, retagged_ite, retagged_ite, retagged_ite]
    rfl
  | ctl k =>
    rw [exec, exec, execCtl, execCtl, retagged_ite]
    exact ite_congr rfl (fun _ => guardFetch_retag n f rfl) fun _ => rfl
  | lit d =>
    rw [exec, exec, execLit, execLit, retagged_ite]
    exact ite_congr rfl (fun _ => guardFetch_retag n f (emitUnit_retag n f d (useControlBit (advance 1 s)))) fun _ => rfl
  | bref =>
    rw [exec, exec, execBref, execBref, brefWith.eq_def, brefWith.eq_def, retagged_ite]
    rfl
  | endPhase =>
    rw [exec, exec, execEnd, execEnd, retagged_ite]
    rfl
  | pixRaw q0 q1 q2 => exact absurd rfl (raw q0 q1 q2)
  | pixDelta tag =>
    rw [exec, exec, execPixDelta, execPixDelta, deltaWith, deltaWith, retagged_ite]
    exact ite_congr rfl (fun _ => guardFetch_retag n f rfl) fun _ => rfl
  | alen m =>
    rw [exec, exec, execAlen, execAlen, retagged_ite]
    exact ite_congr rfl (fun _ => guardFetch_retag n f rfl) fun _ => rfl
  | reset => exact absurd rfl reset

/-- Such an instruction leaves NBR alone, or takes its value away. -/
theorem nbr_eq_of_exec {i : Instr} (raw : ∀ q0 q1 q2, i ≠ .pixRaw q0 q1 q2) (reset : i ≠ .reset)
    (e : exec i s = .next t) (seen : t.nbrv = true) : t.nbr = s.nbr ∧ s.nbrv = true := by
  cases effect_of_exec e with
  | payloadOpened seq valid => cases seen
  | copied supplied due inside fits copy =>
    exact absurd supplied backref_default
  | @pixel i k q0 q1 q2 nbr nbrv item due inside load =>
    obtain ⟨rfl, -⟩ | ⟨supplied, -⟩ := item
    · exact absurd rfl (raw q0 q1 q2)
    · exact absurd supplied delta_default
  | reset answer => exact absurd rfl reset
  | _ => exact ⟨rfl, seen⟩

/-! ### The neighbour load reads written bytes -/

theorem covered_neighbour {m : Mode} (hm : m.control = false) {u v n i : Nat} (hv : v < u) (hi : i < 3) :
    Covered m u n (pixelStride m * v + i) := by
  cases m <;> simp [Covered, Mode.control, pixelStride] at hm ⊢ <;> omega

theorem outByte_retag (n : Pixel) (f : Nat) {a : Nat} (h : (Mem.read .out s.out a).isSome = true) :
    outByte (retag n f s) a = outByte s a := by
  obtain ⟨v, hv⟩ := Option.isSome_iff_exists.mp h
  have hv' : Mem.read .out (retag n f s).out a = some v := hv
  rw [outByte, outByte, hv, hv', Option.getD_some, Option.getD_some]

theorem neighbourPixel_retag (n : Pixel) (f : Nat) (hm : s.mode.control = false) (tracks : Tracks s) {v : Nat}
    (hv : v < s.units.toNat) : neighbourPixel (retag n f s) v = neighbourPixel s v := by
  have written (i : Nat) (hi : i < 3) := (tracks (pixelStride s.mode * v + i)).mpr (covered_neighbour hm hv hi)
  have mode : (retag n f s).mode = s.mode := rfl
  have lowest := written 0 (by decide)
  rw [Nat.add_zero] at lowest
  rw [neighbourPixel, neighbourPixel, mode, outByte_retag n f lowest,
    outByte_retag n f (written 1 (by decide)), outByte_retag n f (written 2 (by decide))]

/-- The load with other free values completes too, with the same NBRV and the same NBR where NBRV is 1. -/
theorem loadNeighbour_retag (n : Pixel) (f : Nat) (h : Inv s) (due : pixelDue s = true) (tracks : Tracks s)
    {nbr : Pixel} {nbrv : Bool} (load : loadNeighbour s = .next (withNeighbour nbr nbrv s)) :
    ∃ nbr', loadNeighbour (retag n f s) = .next (withNeighbour nbr' nbrv (retag n f s)) ∧
      (nbrv = true → nbr' = nbr) := by
  obtain ⟨hs, hm, below⟩ := (pixelDue_iff s).mp due
  have fits := h.phase (.inl hs)
  obtain ⟨-, -, -, hw, -⟩ := fits.header.facts
  have room := pixel_room fits hm below
  cases hv : neighbourUnit s.units.toNat s.hdr.hwidth.toInt with
  | none =>
    have hu : s.units.toNat = 0 := by
      unfold neighbourUnit at hv
      split_ifs at hv
      assumption
    have same := Host.Outcome.next.inj (load.symm.trans (loadNeighbour_first hu))
    have none : nbrv = false := congrArg State.nbrv same
    rw [none]
    exact ⟨_, loadNeighbour_first (s := retag n f s) hu, fun seen => nomatch seen⟩
  | some v =>
    have lt := neighbourUnit_lt hw hv
    have same := Host.Outcome.next.inj (load.symm.trans (loadNeighbour_later hv (neighbour_room lt room)))
    have one : nbrv = true := congrArg State.nbrv same
    have pixel : nbr = neighbourPixel s v := congrArg State.nbr same
    rw [one, pixel]
    exact ⟨_, loadNeighbour_later (s := retag n f s) hv (neighbour_room lt room),
      fun _ => neighbourPixel_retag n f hm tracks lt⟩

theorem execPixRaw_retag (n : Pixel) (f : Nat) (h : Inv s) (tracks : s.seq = .run → Tracks s) {q0 q1 q2 : Byte}
    (seen : s.nbrv = true → n = s.nbr) (e : execPixRaw q0 q1 q2 s = .next t) :
    ∃ n' f', execPixRaw q0 q1 q2 (retag n f s) = .next (retag n' f' t) ∧ (t.nbrv = true → n' = t.nbr) := by
  obtain ⟨due, ⟨cut, rfl⟩ | ⟨inside, -, room, s1, load, rfl⟩⟩ := execPixRaw_next e
  · exact ⟨n, f, execPixRaw_truncated (s := retag n f s) due cut, seen⟩
  · obtain ⟨hs, -⟩ := (pixelDue_iff s).mp due
    obtain ⟨-, -, inLen⟩ := h.segment (.inl hs)
    obtain ⟨nbr, nbrv, rfl⟩ := loadNeighbour_withNeighbour load
    obtain ⟨nbr', load', same⟩ := loadNeighbour_retag n f h due (tracks hs) load
    rw [delivered_eq]
    refine ⟨nbr', f + 1, ?_, same⟩
    rw [execPixRaw_delivers (s := retag n f s) due inside inLen room load']
    rfl

/-! ### The step -/

theorem exec_of_retag (n : Pixel) (f : Nat) (h : Inv s) (tracks : s.seq = .run → Tracks s) {i : Instr}
    (reset : i ≠ .reset) (seen : s.nbrv = true → n = s.nbr) (e : exec i s = .next t) :
    ∃ n' f', exec i (retag n f s) = .next (retag n' f' t) ∧ (t.nbrv = true → n' = t.nbr) := by
  by_cases raw : ∃ q0 q1 q2, i = .pixRaw q0 q1 q2
  · obtain ⟨q0, q1, q2, rfl⟩ := raw
    exact execPixRaw_retag n f h tracks seen e
  · have raw (q0 q1 q2 : Byte) : i ≠ .pixRaw q0 q1 q2 := fun hi => raw ⟨q0, q1, q2, hi⟩
    refine ⟨n, f, ?_, fun ht => ?_⟩
    · rw [exec_retag n f raw reset, e]
      rfl
    · obtain ⟨nbr, valid⟩ := nbr_eq_of_exec raw reset e ht
      rw [nbr, seen valid]

theorem fetched_retag (n : Pixel) (f : Nat) (r : Row) (s : State) : fetched r (retag n f s) = fetched r s := by
  cases r <;> rfl

theorem step_retag (n : Pixel) (f : Nat) (h : Inv s) (out : OutTracksUnits s) (hq : HostQuiet s)
    (seen : s.nbrv = true → n = s.nbr) (e : step s = .next t) :
    ∃ n' f', step (retag n f s) = .next (retag n' f' t) ∧ (t.nbrv = true → n' = t.nbr) := by
  cases chosen : select (hostMove s) (popHost s) with
  | quiescent =>
    obtain ⟨quiet, h1, h2⟩ := select_quiescent chosen
    rw [step_quiet (s := s) quiet h1 h2] at e
    obtain rfl := Host.Outcome.next.inj e
    refine ⟨n, f, (step_quiet (s := retag n f s) quiet h1 h2).trans (congrArg _ ?_), ?_⟩
    · show hostWrite (hostMove s) (retag n f (popHost s)) = _
      cases hostMove s <;> rfl
    · cases hostMove s <;> exact seen
  | row r =>
    have row : step s = exec (fetched r (popHost s)) (popHost s) := stepBy_row exec hq.2 chosen
    have row' : step (retag n f s) = exec (fetched r (popHost s)) (retag n f (popHost s)) := by
      rw [← fetched_retag n f r (popHost s)]
      exact stepBy_row exec (s := retag n f s) hq.2 chosen
    have reset : fetched r (popHost s) ≠ .reset := by
      intro fetch
      have isReset : r = .reset := by rw [← fetched_row r (popHost s), fetch]; rfl
      rw [isReset] at chosen
      exact hq.1 (select_eq_reset chosen)
    rw [row] at e
    rw [row']
    exact exec_of_retag n f (inv_popHost h) (fun hs => out (.inl hs)) reset seen e

/-! ### The statement -/

/-- Settles O50: a state that differs in NBR and in the counter is the other state with other values for the two. -/
theorem unspecifiedValuesDoNotMatter : Obligations.UnspecifiedValuesDoNotMatter := by
  unfold Obligations.UnspecifiedValuesDoNotMatter
  intro s s' t h out same hq e
  obtain ⟨tagged, seen⟩ := same
  have differs : t = retag t.nbr t.free s := tagged
  obtain ⟨n, f, e', seen'⟩ := step_retag t.nbr t.free h out hq seen e
  rw [differs]
  exact ⟨retag n f s', e', rfl, seen'⟩

end Sys2Proof.Unspecified
end

section
/-!
PROOFS, what a run makes of a stream that carries a buffer (46_reference_encoder.md R166). `Faithful out` says of a state
inside a run that IN carries the rest of `out` where the phase will fetch it and that every byte written so far is the one
of `out`; then no item traps, every step keeps it, and the run ends in DONE with `out` in OUT and IP at IN_LEN.
-/

namespace Sys2Proof.Faithfulness

open Sys2Proof.Machine Sys2Proof.Safety Sys2Proof.Effects Sys2Proof.Selection Sys2Proof.Delivery
open Sys2Proof.Validation Sys2Proof.Invariant Sys2Proof.Output Sys2Proof.Relations Sys2Proof.Run Sys2Proof.Runs

variable {out : List Byte} {s t : State}

/-! ### Streams that carry a buffer -/

/-- From `start` on IN holds a control-byte stream of literals only that carries the `n` units of `out`. -/
structure TokensAt (s : State) (m : Mode) (start n : Nat) (out : List Byte) : Prop where
  controls : ∀ g, 8 * g < n → inByte s (start + 9 * g) = 0xFF#8
  units    : ∀ u a, u < n → UnitLane m u a → out[a]? = some (inByte s (start + u + u / 8 + 1))

/-- From the payload's start on IN holds the `n` raw pixels of `out`. -/
structure PixelsAt (s : State) (m : Mode) (n : Nat) (out : List Byte) : Prop where
  tags  : ∀ u, u < n → inByte s (32 + 4 * u) = 0
  bytes : ∀ u i, u < n → i < 3 → out[pixelStride m * u + i]? = some (inByte s (32 + 4 * u + (i + 1)))

/-- After `n` raw pixels IN holds the alpha length and the alpha plane of `out`, and ends there. -/
structure AlphaAt (s : State) (n : Nat) (out : List Byte) : Prop where
  length : (inWord s (32 + 4 * n)).toInt = ((n + controlBytes n : Nat) : Int)
  tokens : TokensAt s .v3a (32 + 4 * n + 4) n out
  inLen  : s.inLen.toNat = 32 + 4 * n + 4 + n + controlBytes n

/-- What a run that will deliver `out` has delivered, and what IN still carries. -/
structure Faithful (out : List Byte) (s : State) : Prop where
  seq    : s.seq = .run ∨ s.seq = .alen ∨ s.seq = .done
  length : out.length = s.outLen.toNat
  agrees : ∀ a v, Mem.read .out s.out a = some v → out[a]? = some v
  limit  : s.seq ≠ .done → s.limit = s.inLen
  tokens : s.seq ≠ .done → s.mode.control = true →
    TokensAt s s.mode (phaseStart s) s.target.toNat out ∧
      s.inLen.toNat = phaseStart s + s.target.toNat + controlBytes s.target.toNat
  pixels : s.seq ≠ .done → s.mode.control = false → PixelsAt s s.mode s.target.toNat out
  last   : s.seq ≠ .done → s.mode = .v2 → s.inLen.toNat = 32 + 4 * s.target.toNat
  alpha  : s.seq ≠ .done → s.mode = .v3rgb → AlphaAt s s.target.toNat out
  done   : s.seq = .done → s.ip = s.inLen

theorem TokensAt.congr {m : Mode} {start n : Nat} (h : TokensAt s m start n out) (inp : t.inp = s.inp) :
    TokensAt t m start n out := by
  have same (a : Nat) : inByte t a = inByte s a := by rw [inByte, inByte, inp]
  exact ⟨fun g hg => (same _).trans (h.controls g hg), fun u a hu lane => by rw [same]; exact h.units u a hu lane⟩

/-- A state that keeps the phase and IN carries the rest as before. -/
theorem Faithful.congr (h : Faithful out s) (hs : s.seq ≠ .done) (seq : t.seq = s.seq) (same : SamePhase s t)
    (inp : t.inp = s.inp) (agrees : ∀ a v, Mem.read .out t.out a = some v → out[a]? = some v) : Faithful out t where
  seq := by rw [seq]; exact h.seq
  length := by rw [same.outLen]; exact h.length
  agrees := agrees
  limit _ := by rw [same.limit, same.inLen]; exact h.limit hs
  tokens _ control := by
    rw [same.mode] at control
    have start : phaseStart t = phaseStart s := by rw [phaseStart, phaseStart, same.mode, same.target]
    rw [start, same.mode, same.target, same.inLen]
    exact ⟨(h.tokens hs control).1.congr inp, (h.tokens hs control).2⟩
  pixels _ control := by
    rw [same.mode] at control
    have bytes (a : Nat) : inByte t a = inByte s a := by rw [inByte, inByte, inp]
    obtain ⟨tags, pixels⟩ := h.pixels hs control
    rw [same.mode, same.target]
    exact ⟨fun u hu => (bytes _).trans (tags u hu), fun u i hu hi => by rw [bytes]; exact pixels u i hu hi⟩
  last _ mode := by
    rw [same.mode] at mode
    rw [same.inLen, same.target]
    exact h.last hs mode
  alpha _ mode := by
    rw [same.mode] at mode
    obtain ⟨length, tokens, inLen⟩ := h.alpha hs mode
    have word (a : Nat) : inWord t a = inWord s a := by simp only [inWord, inByte, inp]
    rw [same.target]
    exact ⟨by rw [word]; exact length, tokens.congr inp, by rw [same.inLen]; exact inLen⟩
  done hd := absurd (seq ▸ hd) hs

/-! ### No item traps -/

/-- What holds of every state of such a run. -/
structure Carried (out : List Byte) (s : State) : Prop where
  alone    : Alone s
  tracks   : OutTracksUnits s
  tokens   : TokenPhase s
  pixels   : PixelPhase s
  faithful : Faithful out s

theorem ne_done_of_run (hs : s.seq = .run) : s.seq ≠ .done := by simp [hs]

/-- The control byte in use is `0xFF`, so every control bit is 1. -/
theorem controlBit_of_tokens (h : TokenRelation s) {n : Nat} (stream : TokensAt s s.mode (phaseStart s) n out)
    (below : s.units.toNat < n) (cnt : s.cnt ≠ 0) : controlBit s = true := by
  obtain ⟨place, left⟩ := literal_place h cnt
  have shift : 8 - s.cnt.val = s.units.toNat % 8 := by omega
  have address : s.ip.toNat - (8 - s.cnt.val) - 1 = phaseStart s + 9 * (s.units.toNat / 8) := by omega
  rw [controlBit, h.bits (by omega), address, stream.controls _ (by omega), shift]
  have bit : s.units.toNat % 8 < 8 := Nat.mod_lt _ (by decide)
  interval_cases s.units.toNat % 8 <;> rfl

theorem not_stopped (h : Carried out s) : ¬ Stopped s := by
  obtain ⟨alone, -, tokens, pixels, faithful⟩ := h
  rintro (⟨due, cut⟩ | ⟨due, cut⟩ | due | ⟨due, cut⟩ | ⟨due, tag⟩ | ⟨hs, cut⟩)
  · obtain ⟨hs, hm, below, cnt⟩ := (controlDue_iff s).mp due
    obtain ⟨place, -⟩ := control_place (tokens hs hm) cnt
    obtain ⟨-, inLen⟩ := faithful.tokens (ne_done_of_run hs) hm
    rw [faithful.limit (ne_done_of_run hs), inLen, controlBytes] at cut
    omega
  · obtain ⟨hs, hm, below, cnt, -⟩ := (tokenDue_iff true s).mp due
    obtain ⟨place, -⟩ := literal_place (tokens hs hm) cnt
    obtain ⟨-, inLen⟩ := faithful.tokens (ne_done_of_run hs) hm
    rw [faithful.limit (ne_done_of_run hs), inLen, controlBytes] at cut
    omega
  · obtain ⟨hs, hm, below, cnt, bit⟩ := (tokenDue_iff false s).mp due
    obtain ⟨stream, -⟩ := faithful.tokens (ne_done_of_run hs) hm
    rw [controlBit_of_tokens (tokens hs hm) stream below cnt] at bit
    cases bit
  · obtain ⟨hs, hm, below⟩ := (pixelDue_iff s).mp due
    obtain ⟨ip, -⟩ := pixels (.inl hs) hm
    rw [faithful.limit (ne_done_of_run hs)] at cut
    have room : 32 + 4 * s.target.toNat ≤ s.inLen.toNat := by
      cases mode : s.mode <;> simp [mode, Mode.control] at hm
      · exact (faithful.last (ne_done_of_run hs) mode).ge
      · have := (faithful.alpha (ne_done_of_run hs) mode).inLen
        omega
    omega
  · obtain ⟨hs, hm, below⟩ := (pixelDue_iff s).mp due
    obtain ⟨ip, -⟩ := pixels (.inl hs) hm
    rw [ip] at tag
    exact tag ((faithful.pixels (ne_done_of_run hs) hm).tags _ below)
  · obtain ⟨mode, all⟩ := alone.1.rgbDone hs
    obtain ⟨ip, -⟩ := pixels (.inr hs) (by rw [mode]; rfl)
    have inLen := (faithful.alpha (by simp [hs]) mode).inLen
    rw [faithful.limit (by simp [hs]), inLen, ip, all] at cut
    omega

/-! ### Every step keeps it -/

theorem faithful_literal (h : Carried out s) (due : tokenDue true s = true) :
    Faithful out (literalTaken (inByte s s.ip.toNat) s) := by
  obtain ⟨-, -, tokens, -, faithful⟩ := h
  obtain ⟨hs, hm, below, cnt, -⟩ := (tokenDue_iff true s).mp due
  obtain ⟨place, -⟩ := literal_place (tokens hs hm) cnt
  obtain ⟨stream, -⟩ := faithful.tokens (ne_done_of_run hs) hm
  refine faithful.congr (ne_done_of_run hs) rfl ⟨rfl, rfl, rfl, rfl, rfl, rfl, rfl, rfl⟩ rfl fun a v hv => ?_
  by_cases lane : UnitLane s.mode s.units.toNat a
  · rw [read_literalTaken_lane _ lane] at hv
    rw [stream.units _ a below lane, ← hv, place]
  · rw [read_literalTaken_other _ lane] at hv
    exact faithful.agrees a v hv

theorem faithful_pixel (h : Carried out s) {nbr : Pixel} {nbrv : Bool} (due : pixelDue s = true) :
    Faithful out (delivered 4 (inByte s (s.ip.toNat + 1)) (inByte s (s.ip.toNat + 2)) (inByte s (s.ip.toNat + 3))
      (withNeighbour nbr nbrv s)) := by
  obtain ⟨-, -, -, pixels, faithful⟩ := h
  obtain ⟨hs, hm, below⟩ := (pixelDue_iff s).mp due
  obtain ⟨ip, -⟩ := pixels (.inl hs) hm
  have bytes (i : Nat) (hi : i < 3) := (faithful.pixels (ne_done_of_run hs) hm).bytes _ i below hi
  refine faithful.congr (ne_done_of_run hs) rfl ⟨rfl, rfl, rfl, rfl, rfl, rfl, rfl, rfl⟩ rfl fun a v hv => ?_
  rw [read_delivered_out, ip] at hv
  have same : (withNeighbour nbr nbrv s).mode = s.mode ∧ (withNeighbour nbr nbrv s).units = s.units ∧
    (withNeighbour nbr nbrv s).out = s.out := ⟨rfl, rfl, rfl⟩
  rw [same.1, same.2.1, same.2.2] at hv
  split_ifs at hv with h0 h1 h2
  · rw [h0, ← hv]
    exact bytes 0 (by decide)
  · rw [h1, ← hv]
    exact bytes 1 (by decide)
  · rw [h2, ← hv]
    exact bytes 2 (by decide)
  · exact faithful.agrees a v hv

theorem faithful_alpha (h : Carried out s) (hs : s.seq = .alen) (inside : s.ip.toNat + 4 ≤ s.limit.toNat) :
    Faithful out (openAlpha (inWord s s.ip.toNat) s) := by
  obtain ⟨alone, -, -, pixels, faithful⟩ := h
  obtain ⟨mode, all⟩ := alone.1.rgbDone hs
  obtain ⟨ip, -⟩ := pixels (.inr hs) (by rw [mode]; rfl)
  have notDone : s.seq ≠ .done := by simp [hs]
  obtain ⟨length, tokens, inLen⟩ := faithful.alpha notDone mode
  have target := openAlpha_target_eq (n := inWord s s.ip.toNat) alone.1 hs
  have limit := openAlpha_limit (n := inWord s s.ip.toNat) inside
  have place : s.ip.toNat = 32 + 4 * s.target.toNat := by rw [ip, all]
  have start : phaseStart (openAlpha (inWord s s.ip.toNat) s) = 32 + 4 * s.target.toNat + 4 := by
    have plane : (openAlpha (inWord s s.ip.toNat) s).mode = .v3a := rfl
    rw [phaseStart, if_pos plane, target]
  exact
    { seq := .inl rfl
      length := faithful.length
      agrees := faithful.agrees
      limit := fun _ => by
        have same : (openAlpha (inWord s s.ip.toNat) s).inLen = s.inLen := rfl
        apply BitVec.eq_of_toNat_eq
        rw [same]
        rw [faithful.limit notDone, place, length, max_eq_left (Int.natCast_nonneg _), min_eq_left (by omega)] at limit
        rw [place]
        exact Int.ofNat_inj.mp limit
      tokens := fun _ _ => by
        rw [start, target]
        exact ⟨tokens.congr rfl, inLen⟩
      pixels := fun _ control => by cases control
      last := fun _ mode => by cases mode
      alpha := fun _ mode => by cases mode
      done := fun hd => by cases hd }

/-- At the end of the last phase IP stands at the end of the stream. -/
theorem ip_at_end (h : Carried out s) (hs : s.seq = .run) (all : s.units = s.target) (last : s.mode ≠ .v3rgb) :
    s.ip = s.inLen := by
  obtain ⟨alone, -, tokens, pixels, faithful⟩ := h
  apply BitVec.eq_of_toNat_eq
  obtain ⟨-, inside, -⟩ := alone.1.segment (.inl hs)
  rw [faithful.limit (ne_done_of_run hs)] at inside
  cases hm : s.mode.control with
  | true =>
    obtain ⟨-, inLen⟩ := faithful.tokens (ne_done_of_run hs) hm
    have relation := tokens hs hm
    rw [inLen, controlBytes] at inside ⊢
    by_cases full : s.cnt = 8
    · obtain ⟨group, place⟩ := relation.afterCtl full
      rw [all] at group place
      omega
    · obtain ⟨place, -⟩ := relation.afterLit full
      rw [all, controlBytes] at place
      omega
  | false =>
    obtain ⟨ip, -⟩ := pixels (.inl hs) hm
    have mode : s.mode = .v2 := by cases mode : s.mode <;> simp_all [Mode.control]
    rw [faithful.last (ne_done_of_run hs) mode, ip, all]

theorem faithful_phaseEnded (h : Carried out s) (due : endDue s = true) : Faithful out (phaseEnded s) := by
  obtain ⟨hs, all⟩ := (endDue_iff s).mp due
  have faithful := h.faithful
  have notDone := ne_done_of_run hs
  by_cases rgb : s.mode = .v3rgb
  · have seq : (phaseEnded s).seq = .alen := if_pos rgb
    exact
      { seq := .inr (.inl seq)
        length := faithful.length
        agrees := faithful.agrees
        limit := fun _ => faithful.limit notDone
        tokens := fun _ control => by
          rw [show (phaseEnded s).mode = .v3rgb from rgb] at control
          cases control
        pixels := fun _ control => ⟨(faithful.pixels notDone control).tags, (faithful.pixels notDone control).bytes⟩
        last := fun _ => faithful.last notDone
        alpha := fun _ mode =>
          ⟨(faithful.alpha notDone mode).length, (faithful.alpha notDone mode).tokens.congr rfl,
            (faithful.alpha notDone mode).inLen⟩
        done := fun hd => by rw [seq] at hd; cases hd }
  · have seq : (phaseEnded s).seq = .done := if_neg rgb
    exact
      { seq := .inr (.inr seq)
        length := faithful.length
        agrees := faithful.agrees
        limit := fun hd => absurd seq hd
        tokens := fun hd => absurd seq hd
        pixels := fun hd => absurd seq hd
        last := fun hd => absurd seq hd
        alpha := fun hd => absurd seq hd
        done := fun _ => show s.ip = s.inLen from ip_at_end h hs all rgb }

theorem faithful_runStep (h : Carried out s) (step : RunStep s t) : Faithful out t := by
  cases step with
  | trap why => exact absurd why (not_stopped h)
  | phaseEnded due => exact faithful_phaseEnded h due
  | control due inside =>
    obtain ⟨hs, -⟩ := (controlDue_iff s).mp due
    exact h.faithful.congr (ne_done_of_run hs) rfl ⟨rfl, rfl, rfl, rfl, rfl, rfl, rfl, rfl⟩ rfl h.faithful.agrees
  | literal due inside => exact faithful_literal h due
  | pixel due inside load => exact faithful_pixel h due
  | alpha seq inside => exact faithful_alpha h seq inside

/-- A host without moves has none to take off its list. -/
theorem popHost_eq_self (host : s.host = []) : popHost s = s := by
  cases s
  subst host
  rfl

theorem carried_step (h : Carried out s) (hs : s.seq = .run ∨ s.seq = .alen) (e : step s = .next t) :
    Carried out t where
  alone := h.alone.step e
  tracks := outTracks_step h.alone.1 h.tracks e
  tokens := tokenPhase_step h.alone.1 h.tokens h.pixels e
  pixels := pixelPhase_step h.pixels e
  faithful := by
    have step := runStep_of_step h.alone.1 h.alone.hostQuiet hs e
    rw [popHost_eq_self h.alone.2] at step
    exact faithful_runStep h step

/-! ### The end of the run -/

theorem hostBuffer_of_done (h : Carried out s) (hs : s.seq = .done) (read : Nat) : hostBuffer read s = out := by
  apply List.ext_getElem?
  intro a
  rw [hostBuffer, List.getElem?_map]
  obtain inside | outside := Nat.lt_or_ge a s.outLen.toNat
  · rw [List.getElem?_range inside]
    exact (h.faithful.agrees a _ (doneMeansBufferComplete s h.alone.1 h.tracks hs (read + a) a inside)).symm
  · rw [List.getElem?_eq_none (by simpa using outside), List.getElem?_eq_none (by rw [h.faithful.length]; exact outside)]
    rfl

/-- Such a run ends in DONE with the buffer delivered and the stream consumed. -/
theorem carried_decodes (h : Carried out s) (hs : s.seq = .run) :
    ∃ k t, Host.Core.run core k s = .next t ∧ t.seq = .done ∧ (∀ read, hostBuffer read t = out) ∧ t.ip = t.inLen := by
  obtain ⟨k, t, -, -, run, ht, ended⟩ :=
    reaches_end (P := Carried out) (fun _ h => h.alone) (fun _ _ h hs => carried_step h hs) h (.inl hs)
  have done : t.seq = .done := by
    obtain running | running | done := ht.faithful.seq
    · rw [running] at ended
      cases ended
    · rw [running] at ended
      cases ended
    · exact done
  exact ⟨k, t, run, done, hostBuffer_of_done ht done, ht.faithful.done done⟩

end Sys2Proof.Faithfulness
end

section
/-!
PROOFS, a container in IN (46_reference_encoder.md R165, 70_reset_and_hazards.md R203). The image is laid down byte by byte,
so IN holds its header and its payload; a header that passes the checks then leads to the state in which decoding starts.
-/

namespace Sys2Proof.Container

open Sys2Proof.Machine Sys2Proof.Safety Sys2Proof.Effects Sys2Proof.Selection Sys2Proof.Validation
open Sys2Proof.Invariant Sys2Proof.Runs

/-! ### The bytes of IN -/

theorem read_placeBytes_below {bytes : List Byte} {base a : Nat} (m : Mem) (ha : a < base) :
    Mem.read .inp (placeBytes bytes base m) a = Mem.read .inp m a := by
  induction bytes generalizing base m with
  | nil => rfl
  | cons b bytes ih => rw [placeBytes, ih _ (by omega), Mem.read_write_other _ _ _ (Nat.ne_of_lt ha)]

theorem read_placeBytes {bytes : List Byte} {base i : Nat} {b : Byte} (m : Mem) (h : bytes[i]? = some b) :
    Mem.read .inp (placeBytes bytes base m) (base + i) = some b := by
  induction bytes generalizing base i m with
  | nil => cases h
  | cons c bytes ih =>
    rw [placeBytes]
    cases i with
    | zero =>
      obtain rfl : c = b := Option.some.inj h
      exact (read_placeBytes_below _ (Nat.lt_add_one base)).trans (Mem.read_write_same .inp m base c)
    | succ i =>
      rw [← Nat.add_assoc, Nat.add_right_comm]
      exact ih _ h

theorem wf_placeBytes {bytes : List Byte} {base : Nat} {m : Mem} (small : base + bytes.length ≤ 4294967296)
    (hm : Mem.wf .inp m = true) : Mem.wf .inp (placeBytes bytes base m) = true := by
  induction bytes generalizing base m with
  | nil => exact hm
  | cons b bytes ih =>
    rw [List.length_cons] at small
    exact ih (by omega) (Mem.wf_write .inp m base b (show base < 4294967296 by omega) hm)

/-- From `base` on IN holds these bytes. -/
def Holds (s : State) (base : Nat) (bytes : List Byte) : Prop :=
  ∀ i b, bytes[i]? = some b → inByte s (base + i) = b

variable {s t : State} {base : Nat}

theorem holds_loadImage (image : List Byte) : Holds (loadImage image) 0 image := by
  intro i b h
  have read : Mem.read .inp (loadImage image).inp (0 + i) = some b := read_placeBytes [] h
  rw [inByte, read, Option.getD_some]

theorem Holds.congr {bytes : List Byte} (h : Holds s base bytes) (inp : t.inp = s.inp) : Holds t base bytes :=
  fun i b hb => by rw [← h i b hb, inByte, inByte, inp]

theorem Holds.left {xs ys : List Byte} (h : Holds s base (xs ++ ys)) : Holds s base xs :=
  fun i b hb => h i b (by
    have hi : i < xs.length := (List.getElem?_eq_some_iff.mp hb).1
    rw [List.getElem?_append_left hi, hb])

theorem Holds.right {xs ys : List Byte} (h : Holds s base (xs ++ ys)) : Holds s (base + xs.length) ys :=
  fun i b hb => by
    rw [Nat.add_assoc]
    exact h _ b (by rw [List.getElem?_append_right (Nat.le_add_right _ _), Nat.add_sub_cancel_left, hb])

theorem Holds.word {w : Word} (h : Holds s base (wordBytes w)) : inWord s base = w := by
  have b0 := h 0 _ rfl
  have b1 := h 1 _ rfl
  have b2 := h 2 _ rfl
  have b3 := h 3 _ rfl
  rw [inWord, b1, b2, b3, show inByte s base = _ from b0, Codec.wordOfBytes_wordBytes]

theorem length_headerBytes (h : Header) : (headerBytes h).length = 32 := rfl

theorem Holds.header {h : Header} (held : Holds s 0 (headerBytes h)) : inHeader s = h := by
  have h7 := held.right.word
  have h6 := held.left.right.word
  have h5 := held.left.left.right.word
  have h4 := held.left.left.left.right.word
  have h3 := held.left.left.left.left.right.word
  have h2 := held.left.left.left.left.left.right.word
  have h1 := held.left.left.left.left.left.left.right.word
  have h0 := held.left.left.left.left.left.left.left.word
  have lengths (w : Word) : (wordBytes w).length = 4 := rfl
  simp only [List.length_append, lengths, Nat.zero_add, Nat.reduceAdd] at h1 h2 h3 h4 h5 h6 h7
  rw [inHeader, h0, h1, h2, h3, h4, h5, h6, h7]

/-! ### The state in which the decoding of a container starts -/

section Load

variable {h : Header} {payload : List Byte}

theorem loadImage_inLen (small : payload.length ≤ 2147483647) :
    (loadImage (headerBytes h ++ payload)).inLen.toNat = 32 + payload.length := by
  have inLen : (loadImage (headerBytes h ++ payload)).inLen =
      BitVec.ofNat 32 (headerBytes h ++ payload).length := rfl
  rw [inLen, List.length_append, length_headerBytes, BitVec.toNat_ofNat]
  omega

theorem inv_loadImage (small : payload.length ≤ 2147483647) : Inv (loadImage (headerBytes h ++ payload)) := by
  refine inv_of_idle_or_fault (.inl rfl) ⟨wf_placeBytes ?_ rfl, rfl, Mem.wf_zeroWindow⟩
    ⟨by simp [loadImage], by simp [loadImage]⟩
  rw [List.length_append, length_headerBytes]
  omega

theorem inHeader_loadImage : inHeader (loadImage (headerBytes h ++ payload)) = h :=
  (holds_loadImage _).left.header

theorem opens_loadImage (small : payload.length ≤ 2147483647) (valid : HeaderValid h) :
    Opens (loadImage (headerBytes h ++ payload)) where
  loads := ⟨HostMove.noConfusion, rfl⟩
  checks := ⟨HostMove.noConfusion, rfl⟩
  present := by rw [loadImage_inLen small]; omega
  valid := by rw [inHeader_loadImage]; exact valid

/-- The state in which the decoding of a container starts. -/
def opened (h : Header) (payload : List Byte) : State := decodingStart (loadImage (headerBytes h ++ payload))

theorem run_three_loadImage (small : payload.length ≤ 2147483647) (valid : HeaderValid h) :
    Host.Core.run core 3 (loadImage (headerBytes h ++ payload)) = .next (opened h payload) :=
  run_three_of_opens rfl rfl (opens_loadImage small valid)

/-- What every step keeps holds after a run. -/
theorem run_keeps {P : State → Prop} (keeps : ∀ s t, P s → step s = .next t → P t) {n : Nat} (hs : P s)
    (e : Host.Core.run core n s = .next t) : P t := by
  induction n generalizing s with
  | zero => exact Host.Outcome.next.inj e ▸ hs
  | succ n ih =>
    obtain ⟨s1, first, rest⟩ := run_succ_next e
    exact ih (keeps s s1 hs first) rest

theorem alone_opened (small : payload.length ≤ 2147483647) (valid : HeaderValid h) : Alone (opened h payload) :=
  ⟨run_keeps (fun _ _ => inv_step) (inv_loadImage small) (run_three_loadImage small valid), rfl⟩

theorem headerInPlace_hdr : (headerInPlace (loadImage (headerBytes h ++ payload))).hdr = h := inHeader_loadImage

theorem opened_mode : (opened h payload).mode = Mode.ofType h.htype := by
  have mode : (opened h payload).mode =
      Mode.ofType (headerInPlace (loadImage (headerBytes h ++ payload))).hdr.htype := rfl
  rw [mode, headerInPlace_hdr]

theorem opened_outLen (valid : HeaderValid h) : ((opened h payload).outLen.toNat : Int) = h.hunpacked.toInt := by
  rw [← headerInPlace_hdr (h := h) (payload := payload)] at valid
  rw [opened, decodingStart, openPayload_outLen valid, headerInPlace_hdr]

theorem opened_target (valid : HeaderValid h) : ((opened h payload).target.toNat : Int) = firstTarget h := by
  rw [← headerInPlace_hdr (h := h) (payload := payload)] at valid
  rw [opened, decodingStart, openPayload_target valid, headerInPlace_hdr]

theorem opened_inLen (small : payload.length ≤ 2147483647) :
    (opened h payload).inLen.toNat = 32 + payload.length :=
  loadImage_inLen small

/-- Where HPACKED is the payload's length the segment is the whole rest of IN. -/
theorem opened_limit (small : payload.length ≤ 2147483647) (packed : h.hpacked.toInt = payload.length) :
    (opened h payload).limit = (opened h payload).inLen := by
  have limit := openPayload_limit (headerInPlace (loadImage (headerBytes h ++ payload)))
  have inLen : (headerInPlace (loadImage (headerBytes h ++ payload))).inLen.toNat = 32 + payload.length :=
    loadImage_inLen small
  rw [headerInPlace_hdr, packed, inLen] at limit
  apply BitVec.eq_of_toNat_eq
  rw [opened_inLen small, opened, decodingStart]
  omega

theorem holds_opened : Holds (opened h payload) 32 payload :=
  ((holds_loadImage _).right (xs := headerBytes h)).congr rfl

end Load

end Sys2Proof.Container
end

section
/-!
PROOFS, the streams of the reference encoder (46_reference_encoder.md R161 to R164): where each byte of a buffer stands in
its stream, and that IN holding the stream carries the units of the buffer.
-/

namespace Sys2Proof.Streams

open Sys2Proof.Machine Sys2Proof.Safety Sys2Proof.RefEncoder Sys2Proof.Selection Sys2Proof.Faithfulness
open Sys2Proof.Container

variable {s : State} {m : Mode} {out : List Byte}

/-! ### Buffers that hold no further pixel -/

theorem div_three_eq_zero {buf : List Byte} (short : ∀ a b c rest, buf = a :: b :: c :: rest → False) :
    buf.length / 3 = 0 := by
  match buf with
  | [] => rfl
  | [_] => simp
  | [_, _] => simp
  | _ :: _ :: _ :: _ => exact absurd rfl (short _ _ _ _)

theorem div_four_eq_zero {buf : List Byte} (short : ∀ a b c d rest, buf = a :: b :: c :: d :: rest → False) :
    buf.length / 4 = 0 := by
  match buf with
  | [] => rfl
  | [_] => simp
  | [_, _] => simp
  | [_, _, _] => simp
  | _ :: _ :: _ :: _ :: _ => exact absurd rfl (short _ _ _ _ _)

/-! ### Control-byte streams (R161, R162) -/

theorem length_encV0 (data : List Byte) : (encV0 data).length = data.length + controlBytes data.length :=
  (encV0Layout data).1

theorem tokensAt_encV0 {data : List Byte} {start : Nat} (held : Holds s start (encV0 data))
    (lane : ∀ u a, u < data.length → UnitLane m u a → out[a]? = data[u]?) :
    TokensAt s m start data.length out where
  controls g hg := held _ _ ((encV0Layout data).2.1 g hg)
  units u a hu unit := by
    have byte := (encV0Layout data).2.2 u hu
    rw [lane u a hu unit, List.getElem?_eq_getElem hu]
    rw [List.getElem?_eq_getElem hu] at byte
    have address : start + u + u / 8 + 1 = start + (u + u / 8 + 1) := by omega
    rw [address, held _ _ byte]

theorem length_samples (buf : List Byte) : (samples buf).length = buf.length / 3 := by
  fun_induction samples buf with
  | case1 b0 b1 b2 rest ih => simp only [List.length_cons, ih]; omega
  | case2 buf short => rw [div_three_eq_zero short]; rfl

/-- Each byte of `xs` in three lanes (43_v1_expander.md R130). -/
def inThreeLanes (xs : List Byte) : List Byte := xs.flatMap (fun b => [b, b, b])

theorem length_inThreeLanes (xs : List Byte) : (inThreeLanes xs).length = 3 * xs.length := by
  induction xs with
  | nil => rfl
  | cons x xs ih =>
    rw [inThreeLanes, List.flatMap_cons, List.length_append, ← inThreeLanes, ih, List.length_cons, List.length_cons,
      List.length_cons, List.length_cons, List.length_nil]
    omega

theorem getElem?_inThreeLanes (xs : List Byte) (u : Nat) {i : Nat} (hi : i < 3) :
    (inThreeLanes xs)[3 * u + i]? = xs[u]? := by
  induction xs generalizing u with
  | nil => rfl
  | cons x xs ih =>
    have unfolded : inThreeLanes (x :: xs) = [x, x, x] ++ inThreeLanes xs := rfl
    cases u with
    | zero =>
      rw [unfolded, List.getElem?_append_left (by simpa using hi)]
      interval_cases i <;> rfl
    | succ u =>
      rw [unfolded, List.getElem?_append_right (by simp; omega), List.getElem?_cons_succ, ← ih u]
      congr 1
      simp; omega

/-! ### Pixel streams (R163) -/

theorem length_encV2 (buf : List Byte) : (encV2 buf).length = 4 * (buf.length / 3) := by
  fun_induction encV2 buf with
  | case1 b0 b1 b2 rest ih => simp only [List.length_cons, ih]; omega
  | case2 buf short => rw [div_three_eq_zero short]; rfl

theorem encV2_tag (buf : List Byte) (u : Nat) (h : u < buf.length / 3) : (encV2 buf)[4 * u]? = some 0 := by
  fun_induction encV2 buf generalizing u with
  | case1 b0 b1 b2 rest ih =>
    cases u with
    | zero => rfl
    | succ u => exact ih u (by simp only [List.length_cons] at h; omega)
  | case2 buf short => exact absurd (div_three_eq_zero short ▸ h) (Nat.not_lt_zero u)

theorem encV2_byte (buf : List Byte) (u i : Nat) (h : u < buf.length / 3) (hi : i < 3) :
    (encV2 buf)[4 * u + (i + 1)]? = buf[3 * u + i]? := by
  fun_induction encV2 buf generalizing u with
  | case1 b0 b1 b2 rest ih =>
    cases u with
    | zero => interval_cases i <;> rfl
    | succ u =>
      have stream : 4 * (u + 1) + (i + 1) = 4 * u + (i + 1) + 4 := by omega
      have place : 3 * (u + 1) + i = 3 * u + i + 3 := by omega
      rw [stream, place]
      exact ih u (by simp only [List.length_cons] at h; omega)
  | case2 buf short => exact absurd (div_three_eq_zero short ▸ h) (Nat.not_lt_zero u)

theorem pixelsAt_encV2 {buf : List Byte} {n : Nat} (length : buf.length = 3 * n) (held : Holds s 32 (encV2 buf))
    (lane : ∀ u i, u < n → i < 3 → out[pixelStride m * u + i]? = buf[3 * u + i]?) : PixelsAt s m n out where
  tags u hu := held _ _ (encV2_tag buf u (by omega))
  bytes u i hu hi := by
    have inside : 3 * u + i < buf.length := by omega
    have byte := encV2_byte buf u i (by omega) hi
    rw [List.getElem?_eq_getElem inside] at byte
    rw [lane u i hu hi, List.getElem?_eq_getElem inside, Nat.add_assoc, held _ _ byte]

/-! ### The planes of an interleaved buffer (R164) -/

theorem length_rgbPlane (buf : List Byte) : (rgbPlane buf).length = 3 * (buf.length / 4) := by
  fun_induction rgbPlane buf with
  | case1 b0 b1 b2 b3 rest ih => simp only [List.length_cons, ih]; omega
  | case2 buf short => rw [div_four_eq_zero short]; rfl

theorem length_alphaPlane (buf : List Byte) : (alphaPlane buf).length = buf.length / 4 := by
  fun_induction alphaPlane buf with
  | case1 b0 b1 b2 b3 rest ih => simp only [List.length_cons, ih]; omega
  | case2 buf short => rw [div_four_eq_zero short]; rfl

theorem getElem?_rgbPlane (buf : List Byte) (u i : Nat) (h : u < buf.length / 4) (hi : i < 3) :
    (rgbPlane buf)[3 * u + i]? = buf[4 * u + i]? := by
  fun_induction rgbPlane buf generalizing u with
  | case1 b0 b1 b2 b3 rest ih =>
    cases u with
    | zero => interval_cases i <;> rfl
    | succ u =>
      have plane : 3 * (u + 1) + i = 3 * u + i + 3 := by omega
      have place : 4 * (u + 1) + i = 4 * u + i + 4 := by omega
      rw [plane, place]
      exact ih u (by simp only [List.length_cons] at h; omega)
  | case2 buf short => exact absurd (div_four_eq_zero short ▸ h) (Nat.not_lt_zero u)

theorem getElem?_alphaPlane (buf : List Byte) (u : Nat) (h : u < buf.length / 4) :
    (alphaPlane buf)[u]? = buf[4 * u + 3]? := by
  fun_induction alphaPlane buf generalizing u with
  | case1 b0 b1 b2 b3 rest ih =>
    cases u with
    | zero => rfl
    | succ u => exact ih u (by simp only [List.length_cons] at h; omega)
  | case2 buf short => exact absurd (div_four_eq_zero short ▸ h) (Nat.not_lt_zero u)

theorem toInt_ofNat_of_le {n : Nat} (small : n ≤ 2147483647) : (BitVec.ofNat 32 n).toInt = n := by
  rw [BitVec.toInt_ofNat']
  exact Int.bmod_eq_of_le (by omega) (by omega)

/-! ### The stream of an interleaved buffer (R164) -/

section Planes

variable {buf : List Byte} {n : Nat} (length : buf.length = 4 * n)
include length

theorem planes_length :
    (rgbPlane buf).length = 3 * n ∧ (alphaPlane buf).length = n ∧ (encV2 (rgbPlane buf)).length = 4 * n := by
  have quarter : buf.length / 4 = n := by rw [length, Nat.mul_div_cancel_left _ (by decide)]
  have rgb : (rgbPlane buf).length = 3 * n := by rw [length_rgbPlane, quarter]
  refine ⟨rgb, by rw [length_alphaPlane, quarter], ?_⟩
  rw [length_encV2, rgb, Nat.mul_div_cancel_left _ (by decide)]

theorem length_encV3 : (encPayload 3 buf).length = 4 * n + 4 + n + controlBytes n := by
  obtain ⟨-, alpha, stream⟩ := planes_length length
  have parts : encPayload 3 buf = encV2 (rgbPlane buf) ++
    wordBytes (BitVec.ofNat 32 (encV0 (alphaPlane buf)).length) ++ encV0 (alphaPlane buf) := rfl
  have word (w : Word) : (wordBytes w).length = 4 := rfl
  rw [parts, List.length_append, List.length_append, word, stream, length_encV0, alpha, ← Nat.add_assoc]

theorem pixelsAt_encV3 (held : Holds s 32 (encPayload 3 buf)) : PixelsAt s .v3rgb n buf := by
  obtain ⟨rgb, -, -⟩ := planes_length length
  exact pixelsAt_encV2 rgb (Holds.left (Holds.left held)) fun u i hu hi =>
    (getElem?_rgbPlane buf u i (by omega) hi).symm

theorem alphaAt_encV3 (small : (encPayload 3 buf).length ≤ 2147483647) (held : Holds s 32 (encPayload 3 buf))
    (inLen : s.inLen.toNat = 32 + (encPayload 3 buf).length) : AlphaAt s n buf := by
  obtain ⟨-, alpha, stream⟩ := planes_length length
  have whole := length_encV3 length
  have field := (Holds.left held).right.word
  have tokens := Holds.right held
  have word (w : Word) : (wordBytes w).length = 4 := rfl
  rw [List.length_append, word, stream, ← Nat.add_assoc] at tokens
  rw [stream, length_encV0, alpha] at field
  refine ⟨by rw [field, toInt_ofNat_of_le (by omega)], ?_, by omega⟩
  have carried := tokensAt_encV0 (m := .v3a) (out := buf) tokens fun u a hu lane => by
    obtain rfl : a = 4 * u + 3 := lane
    exact (getElem?_alphaPlane buf u (by omega)).symm
  rwa [alpha] at carried

end Planes

end Sys2Proof.Streams
end

section
/-!
PROOFS, the round trips (46_reference_encoder.md R166). The header of `pt1` passes the checks, its payload carries the
buffer by type, and a state that carries the buffer decodes to it.
-/

namespace Sys2Proof.RoundTrips

open Sys2Proof.Machine Sys2Proof.Safety Sys2Proof.Selection Sys2Proof.Validation Sys2Proof.Invariant
open Sys2Proof.Output Sys2Proof.Relations Sys2Proof.Runs Sys2Proof.Faithfulness Sys2Proof.Container Sys2Proof.Streams

/-! ### From the stream to the buffer -/

/-- The block decodes the image to `out` and consumes it to its end. -/
def Decodes (image out : List Byte) : Prop :=
  ∃ (n : Nat) (t : State), Host.Core.run core n (loadImage image) = .next t ∧
    t.seq = .done ∧ (∀ read, hostBuffer read t = out) ∧ t.ip = t.inLen

/-- A header that passes the checks and announces the payload, the length of `out` and `n` units in its first phase. -/
structure Announces (h : Header) (payload out : List Byte) (n : Nat) : Prop where
  valid  : HeaderValid h
  small  : payload.length ≤ 2147483647
  packed : h.hpacked.toInt = payload.length
  length : h.hunpacked.toInt = out.length
  target : firstTarget h = n

section Opened

variable {h : Header} {payload out : List Byte} {n : Nat} (announced : Announces h payload out n)
include announced

theorem opened_target_eq : (opened h payload).target.toNat = n :=
  Int.ofNat_inj.mp ((opened_target announced.valid).trans announced.target)

theorem opened_length : out.length = (opened h payload).outLen.toNat :=
  Int.ofNat_inj.mp (announced.length.symm.trans (opened_outLen announced.valid).symm)

theorem carried_opened (faithful : Faithful out (opened h payload)) : Carried out (opened h payload) where
  alone := alone_opened announced.small announced.valid
  tracks _ := tracks_payloadOpened (by rw [headerInPlace_hdr]; exact announced.valid)
  tokens _ _ := tokenRelation_payloadOpened _
  pixels _ _ := ⟨rfl, rfl⟩
  faithful := faithful

theorem decodes_of_faithful (faithful : Faithful out (opened h payload)) : Decodes (headerBytes h ++ payload) out := by
  obtain ⟨k, t, run, done⟩ := carried_decodes (carried_opened announced faithful) rfl
  exact ⟨3 + k, t, (run_add (run_three_loadImage announced.small announced.valid)).trans run, done⟩

theorem decodes_of_tokens {m : Mode} (mode : Mode.ofType h.htype = m) (control : m.control = true) (plane : m ≠ .v3a)
    (stream : TokensAt (opened h payload) m 32 n out) (whole : payload.length = n + controlBytes n) :
    Decodes (headerBytes h ++ payload) out := by
  have phase : (opened h payload).mode = m := opened_mode.trans mode
  have start : phaseStart (opened h payload) = 32 := if_neg (by rw [phase]; exact plane)
  exact decodes_of_faithful announced
    { seq := .inl rfl
      length := opened_length announced
      agrees := fun a v hv => by cases hv
      limit := fun _ => opened_limit announced.small announced.packed
      tokens := fun _ _ => by
        rw [start, phase, opened_target_eq announced, opened_inLen announced.small, whole, ← Nat.add_assoc]
        exact ⟨stream, rfl⟩
      pixels := fun _ raw => by rw [phase, control] at raw; cases raw
      last := fun _ v2 => by rw [phase] at v2; rw [v2] at control; cases control
      alpha := fun _ rgb => by rw [phase] at rgb; rw [rgb] at control; cases control
      done := fun hd => by cases hd }

theorem decodes_of_pixels (mode : Mode.ofType h.htype = .v2) (stream : PixelsAt (opened h payload) .v2 n out)
    (whole : payload.length = 4 * n) : Decodes (headerBytes h ++ payload) out := by
  have phase : (opened h payload).mode = .v2 := opened_mode.trans mode
  have units := opened_target_eq announced
  exact decodes_of_faithful announced
    { seq := .inl rfl
      length := opened_length announced
      agrees := fun a v hv => by cases hv
      limit := fun _ => opened_limit announced.small announced.packed
      tokens := fun _ control => by rw [phase] at control; cases control
      pixels := fun _ _ => by rw [phase, units]; exact stream
      last := fun _ _ => by rw [opened_inLen announced.small, units, whole]
      alpha := fun _ rgb => by rw [phase] at rgb; cases rgb
      done := fun hd => by cases hd }

theorem decodes_of_planes (mode : Mode.ofType h.htype = .v3rgb) (stream : PixelsAt (opened h payload) .v3rgb n out)
    (alpha : AlphaAt (opened h payload) n out) : Decodes (headerBytes h ++ payload) out := by
  have phase : (opened h payload).mode = .v3rgb := opened_mode.trans mode
  have units := opened_target_eq announced
  exact decodes_of_faithful announced
    { seq := .inl rfl
      length := opened_length announced
      agrees := fun a v hv => by cases hv
      limit := fun _ => opened_limit announced.small announced.packed
      tokens := fun _ control => by rw [phase] at control; cases control
      pixels := fun _ _ => by rw [phase, units]; exact stream
      last := fun _ v2 => by rw [phase] at v2; cases v2
      alpha := fun _ _ => by rw [units]; exact alpha
      done := fun hd => by cases hd }

end Opened

/-! ### The header of a container (R165) -/

section Pt1Header

/-- Bytes of OUT for one pixel (10_state.md R18). -/
def pixelBytes (htype : Nat) : Nat := if htype = 3 then 4 else 3

variable {htype w h : Nat} {buf : List Byte} (offx offy : Word)
variable (known : htype ≤ 3) (hw : 1 ≤ w) (hh : 1 ≤ h) (fits : w * h * pixelBytes htype ≤ 2147483647)

include known in
theorem pt1Header_htype : (pt1Header htype offx offy w h buf).htype.toInt = htype := toInt_ofNat_of_le (by omega)

include fits in
theorem pt1Header_hunpacked :
    (pt1Header htype offx offy w h buf).hunpacked.toInt = (w * h * pixelBytes htype : Nat) :=
  toInt_ofNat_of_le fits

include hw hh fits

theorem pt1Header_dimensions :
    (pt1Header htype offx offy w h buf).hwidth.toInt = w ∧ (pt1Header htype offx offy w h buf).hheight.toInt = h := by
  have pixels : w * h ≤ w * h * pixelBytes htype :=
    Nat.le_mul_of_pos_right _ (by unfold pixelBytes; split <;> decide)
  have width : w ≤ w * h := Nat.le_mul_of_pos_right _ hh
  have height : h ≤ w * h := Nat.le_mul_of_pos_left _ hw
  exact ⟨toInt_ofNat_of_le (by omega), toInt_ofNat_of_le (by omega)⟩

theorem pt1Header_pixelCount : pixelCount (pt1Header htype offx offy w h buf) = (w * h : Nat) := by
  obtain ⟨width, height⟩ := pt1Header_dimensions (buf := buf) offx offy hw hh fits
  rw [pixelCount, width, height, Nat.cast_mul]

include known

theorem pt1Header_valid : HeaderValid (pt1Header htype offx offy w h buf) := by
  obtain ⟨width, height⟩ := pt1Header_dimensions (buf := buf) offx offy hw hh fits
  have type := pt1Header_htype (w := w) (h := h) (buf := buf) offx offy known
  have hsent : (pt1Header htype offx offy w h buf).hsent.toInt = -1 := rfl
  have size := pt1Header_hunpacked (buf := buf) offx offy fits
  refine ⟨?_, ?_, ?_⟩ <;> rw [Bool.eq_false_iff, ne_eq]
  · rw [headerInvalid_iff, type, hsent]
    omega
  · rw [sizeMismatch_iff, width, height, type, size, not_not, pixelBytes, Nat.cast_mul, Nat.cast_mul, Nat.cast_ite]
    norm_cast
  · rw [dimensionInvalid_iff, width, height]
    omega

theorem pt1Header_target :
    firstTarget (pt1Header htype offx offy w h buf) = (if htype = 0 then w * h * 3 else w * h : Nat) := by
  have type := pt1Header_htype (w := w) (h := h) (buf := buf) offx offy known
  have size := pt1Header_hunpacked (buf := buf) offx offy fits
  have pixels := pt1Header_pixelCount (buf := buf) offx offy hw hh fits
  rw [firstTarget, type, size, pixels]
  by_cases h0 : htype = 0
  · subst h0
    rfl
  · rw [if_neg h0, if_neg (by omega)]

theorem pt1Header_announces {out : List Byte} (small : (encPayload htype buf).length ≤ 2147483647)
    (length : out.length = w * h * pixelBytes htype) :
    Announces (pt1Header htype offx offy w h buf) (encPayload htype buf) out
      (if htype = 0 then w * h * 3 else w * h) where
  valid := pt1Header_valid offx offy known hw hh fits
  small := small
  packed := toInt_ofNat_of_le small
  length := by rw [pt1Header_hunpacked offx offy fits, length]
  target := pt1Header_target offx offy known hw hh fits

end Pt1Header

/-! ### The statements -/

/-- Settles O53: each byte of the buffer is one literal of the payload. -/
theorem roundTripType0 : Obligations.RoundTripType0 := by
  unfold Obligations.RoundTripType0
  intro offx offy w h buf hw hh fits length small
  have announced := pt1Header_announces (htype := 0) offx offy (by decide) hw hh fits small length
  rw [if_pos rfl, ← length] at announced
  refine decodes_of_tokens announced rfl rfl Mode.noConfusion
    (tokensAt_encV0 holds_opened fun u a _ lane => ?_) (length_encV0 buf)
  obtain rfl : a = u := lane
  rfl

/-- Settles O54: each sample is one literal, written to three lanes. -/
theorem roundTripType1 : Obligations.RoundTripType1 := by
  unfold Obligations.RoundTripType1
  intro offx offy w h buf hw hh fits length
  have count : (samples buf).length = w * h := by rw [length_samples, length, Nat.mul_div_cancel _ (by decide)]
  have payload := length_encV0 (samples buf)
  have lanes : (inThreeLanes (samples buf)).length = w * h * 3 := by rw [length_inThreeLanes, count, Nat.mul_comm]
  have small : (encPayload 1 buf).length ≤ 2147483647 := by
    rw [count, controlBytes] at payload
    exact payload.trans_le (by omega)
  have announced := pt1Header_announces (htype := 1) offx offy (by decide) hw hh fits small lanes
  rw [if_neg (by decide), ← count] at announced
  refine decodes_of_tokens announced rfl rfl Mode.noConfusion
    (tokensAt_encV0 holds_opened fun u a _ lane => ?_) payload
  obtain rfl | rfl | rfl := lane
  · exact getElem?_inThreeLanes _ u (by decide : 0 < 3)
  · exact getElem?_inThreeLanes _ u (by decide)
  · exact getElem?_inThreeLanes _ u (by decide)

/-- Settles O55: each pixel of the buffer is one raw pixel of the payload. -/
theorem roundTripType2 : Obligations.RoundTripType2 := by
  unfold Obligations.RoundTripType2
  intro offx offy w h buf hw hh fits length small
  have announced := pt1Header_announces (htype := 2) offx offy (by decide) hw hh fits small length
  have payload := length_encV2 buf
  rw [length, Nat.mul_div_cancel _ (by decide)] at payload
  exact decodes_of_pixels announced rfl
    (pixelsAt_encV2 (length.trans (Nat.mul_comm _ _)) holds_opened fun _ _ _ _ => rfl) payload

/-- Settles O56: the raw pixels carry the three colour bytes, the alpha tokens the fourth. -/
theorem roundTripType3 : Obligations.RoundTripType3 := by
  unfold Obligations.RoundTripType3
  intro offx offy w h buf hw hh fits length small
  have announced := pt1Header_announces (htype := 3) offx offy (by decide) hw hh fits small length
  have pixels : buf.length = 4 * (w * h) := length.trans (Nat.mul_comm _ _)
  exact decodes_of_planes announced rfl (pixelsAt_encV3 pixels holds_opened)
    (alphaAt_encV3 pixels small holds_opened (opened_inLen small))

end Sys2Proof.RoundTrips
end
